-- ==== Sys2Proof/Word.lean ====
section
/-! DEFINITION. The word types of the byte-pump (00_scope.md R10): bytes, 24-bit quantities, response words. -/

namespace Sys2Proof

/-- A byte is 8 bits (R10). -/
abbrev Byte := BitVec 8

/-- `LEN_WIDTH` = 24 bits: sizes, indices, byte counters, response values (R8, R25, R26, R42, R103). -/
abbrev Len := BitVec 24

/-- One command word (R100). -/
abbrev CmdWord := BitVec 24

/-- One response word (R103). -/
abbrev RespWord := BitVec 32

end Sys2Proof
end

