-- ==== Sys2Proof/Config.lean ====
section
/-! DEFINITION. What is fixed for the machine (00_scope.md R8), and its one free value. -/

namespace Sys2Proof

/-- `RB_COUNT` (R8, decision D3): the value this hardware takes. DESIGN CHOICE (log 1): it is not an argument. -/
abbrev Config.rbCount : Nat := 2

/-- `CHECK_TX` (R8, R114): the check byte the transmitter sends. -/
abbrev Config.checkTx : Byte := 0x00

/-- The capacity `State.reset` has. DESIGN CHOICE (log 2): R8 leaves `RB_CAPACITY` open;
the value is the one 95_test_vectors.md uses. -/
abbrev Config.resetCapacity : Len := 8

/-- FREE VALUE (log 3), `ARBITRATION` of R8 and R75: which of the waiting requesters the `n`-th service goes to,
taken modulo how many are waiting. Nothing in the model constrains it, so a claim holds for every order. -/
opaque Config.arbitration : Nat → Nat

/-- A ring-buffer handle `0 .. RB_COUNT-1` (R50, R74). The value `none` of R50 is `Option Handle`'s. -/
abbrev Handle := Fin Config.rbCount

end Sys2Proof
end

