-- ==== Sys2Proof/Syntax.lean ====
section
/-! DEFINITION. The instructions: one constructor per row of spec/opcode_table.json. -/

namespace Sys2Proof

/-- The seven block types (R50, R110). -/
inductive BlockType where
  | data | unknown | coldReset | warmReset | busy | ack | nack
  deriving DecidableEq, Repr

/-- The four semaphores by the names of R40; `rxContext` is number 0, `txProcess` number 3. -/
inductive SemId where
  | rxContext | rxProcess | txContext | txProcess
  deriving DecidableEq, Repr

/-- The 17 operations of R101, as names of the `op` field's values. -/
inductive Op where
  | rbReset | rbEnq | rbDeq | rbSize | rbEmpty | rbFull
  | semInit | semTry | semLock | semRel
  | rxStart | rxByte | rxAvail | rxFully
  | txSend | txNext
  | commInit
  deriving DecidableEq, Repr

/-- The instruction set of R1: (a) the 17 operations of the command port, (b) the 7 blocks of the serial channel. -/
inductive Instr where
  -- ring buffers, 40_ringbuffer.md
  | rbReset (b : Handle)
  | rbEnq (b : Handle) (v : Byte)
  | rbDeq (b : Handle)
  | rbSize (b : Handle)
  | rbEmpty (b : Handle)
  | rbFull (b : Handle)
  -- semaphores, 41_semaphore.md
  | semInit (k : SemId) (n : Byte)
  | semTry (k : SemId)
  | semLock (k : SemId)
  | semRel (k : SemId)
  -- reception, 42_reception.md
  | rxStart (h : Option Handle)
  | rxByte (v : Byte)
  | rxAvail
  | rxFully
  -- transmission, 43_transmission.md
  | txSend (h : Option Handle) (t : BlockType)
  | txNext
  -- context, 44_ack_sequencing.md
  | commInit
  -- wire blocks, 30_encoding.md R110 and R111: operands are the bytes after the control byte
  | blockData (payload : List Byte) (check : Byte)
  | blockUnknown (control : Byte) (check : Byte)
  | blockColdReset (check : Byte)
  | blockWarmReset (check : Byte)
  | blockBusy (check : Byte)
  | blockAck (check : Byte)
  | blockNack (check : Byte)
  deriving DecidableEq, Repr

/-- A block as it stands on the wire (R111): control byte, payload (empty but for `Data`), check byte. -/
structure Frame where
  control : Byte
  payload : List Byte
  check : Byte
  deriving DecidableEq, Repr

/-- The two encoded interfaces of 30_encoding.md: a command word (section 2) or the bytes of a block (section 1). -/
inductive Encoded where
  | command (w : CmdWord)
  | wire (bytes : List Byte)
  deriving DecidableEq, Repr

/-- Why a command word is illegal (R104, R105). -/
inductive Illegal where
  /-- `op` is not one of the 17 codes. -/
  | reservedOp
  /-- The operation takes a buffer and `sel` names none. -/
  | noSuchBuffer
  /-- The operation takes a semaphore and `sel > 3`. -/
  | noSuchSemaphore
  /-- `TX_SEND` with `imm > 0x06`. -/
  | noSuchType
  deriving DecidableEq, Repr

end Sys2Proof
end

