-- ==== Sys2Proof/WellFormed.lean ====
section
/-! DEFINITION. Which instructions the encodings can express. Handles, semaphores and block types cannot be out of
range by their types; the two checks left concern wire blocks. -/

namespace Sys2Proof

/-- R111: a payload has `0 <= n <= 2^24 - 1` bytes. R110, R116: type `Unknown` is control byte 0x01 or 0x07 .. 0xFF. -/
def WellFormed : Instr → Bool
  | .blockData p _ => decide (p.length < 2 ^ 24)
  | .blockUnknown c _ => decide (c = 0x01 ∨ 0x07 ≤ c.toNat)
  | .rbReset _ | .rbEnq _ _ | .rbDeq _ | .rbSize _ | .rbEmpty _ | .rbFull _ => true
  | .semInit _ _ | .semTry _ | .semLock _ | .semRel _ => true
  | .rxStart _ | .rxByte _ | .rxAvail | .rxFully => true
  | .txSend _ _ | .txNext | .commInit => true
  | .blockColdReset _ | .blockWarmReset _ | .blockBusy _ | .blockAck _ | .blockNack _ => true

end Sys2Proof
end

