-- ==== Sys2Proof/Decode.lean ====
section
/-! DEFINITION. The decoder, total on any word and any bytes, and after it the encoder (30_encoding.md). -/

namespace Sys2Proof

/-! ### Code tables -/

/-- Control bytes (R110): `tag(t)`. -/
def BlockType.tag : BlockType → Byte
  | .data => 0x00
  | .unknown => 0x01
  | .coldReset => 0x02
  | .warmReset => 0x03
  | .busy => 0x04
  | .ack => 0x05
  | .nack => 0x06

/-- The rows of R110. -/
def allBlockTypes : List BlockType := [.data, .unknown, .coldReset, .warmReset, .busy, .ack, .nack]

/-- The type whose control byte is `c`, none for 0x07 .. 0xFF (R104: what `TX_SEND` accepts). -/
def typeOfCode (c : Byte) : Option BlockType := allBlockTypes.find? fun t => t.tag = c

/-- The type a received control byte is classified as (R116, R187): `Unknown` for 0x07 .. 0xFF. -/
def typeOfControl (c : Byte) : BlockType := (typeOfCode c).getD .unknown

/-- Semaphore numbers (R40). -/
def SemId.number : SemId → Byte
  | .rxContext => 0
  | .rxProcess => 1
  | .txContext => 2
  | .txProcess => 3

/-- The semaphore of a `sel` field, none for `sel > 3` (R104). -/
def semOfSel (x : Byte) : Option SemId :=
  [SemId.rxContext, .rxProcess, .txContext, .txProcess].find? fun k => k.number = x

/-- The handle of a `sel` field, none for `sel >= RB_COUNT` (R104). -/
def handleOfSel (x : Byte) : Option Handle :=
  if h : x.toNat < Config.rbCount then some ⟨x.toNat, h⟩ else none

/-- The `sel` field of `RX_START` and `TX_SEND`, which also accept 0xFF for `none` (R100, R104). -/
def bindingOfSel (x : Byte) : Option (Option Handle) :=
  if x = 0xFF then some none else (handleOfSel x).map some

/-- The `sel` field of a handle. -/
def selOfHandle (b : Handle) : Byte := BitVec.ofNat 8 b.val

/-- The `sel` field of a handle or `none` (R100). -/
def selOfBinding : Option Handle → Byte
  | none => 0xFF
  | some b => selOfHandle b

/-- The `op` codes (R101). -/
def Op.code : Op → Byte
  | .rbReset => 0x01
  | .rbEnq => 0x02
  | .rbDeq => 0x03
  | .rbSize => 0x04
  | .rbEmpty => 0x05
  | .rbFull => 0x06
  | .semInit => 0x10
  | .semTry => 0x11
  | .semLock => 0x12
  | .semRel => 0x13
  | .rxStart => 0x20
  | .rxByte => 0x21
  | .rxAvail => 0x22
  | .rxFully => 0x23
  | .txSend => 0x30
  | .txNext => 0x31
  | .commInit => 0x40

/-- The rows of R101. -/
def allOps : List Op :=
  [.rbReset, .rbEnq, .rbDeq, .rbSize, .rbEmpty, .rbFull, .semInit, .semTry, .semLock, .semRel,
   .rxStart, .rxByte, .rxAvail, .rxFully, .txSend, .txNext, .commInit]

/-- The operation of an `op` field, none for a reserved code (R105). -/
def opOfCode (c : Byte) : Option Op := allOps.find? fun o => o.code = c

/-! ### Fields (R100) -/

def CmdWord.op (w : CmdWord) : Byte := w.extractLsb' 16 8

def CmdWord.sel (w : CmdWord) : Byte := w.extractLsb' 8 8

def CmdWord.imm (w : CmdWord) : Byte := w.extractLsb' 0 8

/-- `Len1`, the length's bits 23:16 (R71, R92). -/
def len1 (n : Len) : Byte := n.extractLsb' 16 8

/-- `Len2`, the length's bits 15:8 (R71, R92). -/
def len2 (n : Len) : Byte := n.extractLsb' 8 8

/-- `Len3`, the length's bits 7:0 (R71, R92). -/
def len3 (n : Len) : Byte := n.extractLsb' 0 8

/-- The length assembled from its three bytes, most significant first (R92, R113). -/
def lenOfBytes (a b c : Byte) : Len :=
  (a.setWidth 24 <<< 16) ||| (b.setWidth 24 <<< 8) ||| c.setWidth 24

/-! ### Decoding a command word (R101, R104) -/

/-- A looked-up operand, or the reason the word is illegal. -/
def operand {α : Type} (x : Option α) (why : Illegal) (mk : α → Instr) : Except Illegal Instr :=
  match x with
  | some a => .ok (mk a)
  | none => .error why

/-- Total on all 2^24 words: the operation a command word presents, or why it is illegal.
A field the operation does not use is not looked at (R100). -/
def decodeCmd (w : CmdWord) : Except Illegal Instr :=
  match opOfCode (CmdWord.op w) with
  | none => .error .reservedOp
  | some .rbReset => operand (handleOfSel (CmdWord.sel w)) .noSuchBuffer fun b => .rbReset b
  | some .rbEnq => operand (handleOfSel (CmdWord.sel w)) .noSuchBuffer fun b => .rbEnq b (CmdWord.imm w)
  | some .rbDeq => operand (handleOfSel (CmdWord.sel w)) .noSuchBuffer fun b => .rbDeq b
  | some .rbSize => operand (handleOfSel (CmdWord.sel w)) .noSuchBuffer fun b => .rbSize b
  | some .rbEmpty => operand (handleOfSel (CmdWord.sel w)) .noSuchBuffer fun b => .rbEmpty b
  | some .rbFull => operand (handleOfSel (CmdWord.sel w)) .noSuchBuffer fun b => .rbFull b
  | some .semInit => operand (semOfSel (CmdWord.sel w)) .noSuchSemaphore fun k => .semInit k (CmdWord.imm w)
  | some .semTry => operand (semOfSel (CmdWord.sel w)) .noSuchSemaphore fun k => .semTry k
  | some .semLock => operand (semOfSel (CmdWord.sel w)) .noSuchSemaphore fun k => .semLock k
  | some .semRel => operand (semOfSel (CmdWord.sel w)) .noSuchSemaphore fun k => .semRel k
  | some .rxStart => operand (bindingOfSel (CmdWord.sel w)) .noSuchBuffer fun h => .rxStart h
  | some .rxByte => .ok (.rxByte (CmdWord.imm w))
  | some .rxAvail => .ok .rxAvail
  | some .rxFully => .ok .rxFully
  | some .txSend =>
    match bindingOfSel (CmdWord.sel w) with
    | none => .error .noSuchBuffer
    | some h => operand (typeOfCode (CmdWord.imm w)) .noSuchType fun t => .txSend h t
  | some .txNext => .ok .txNext
  | some .commInit => .ok .commInit

/-! ### Decoding wire bytes (R111, R115, R311) -/

/-- The first block of a byte sequence and what follows it; none is R311's `incomplete`. -/
def decodeFrame : List Byte → Option (Frame × List Byte)
  | [] => none
  | c :: rest =>
    if typeOfControl c = .data then
      match rest with
      | a :: b :: d :: body =>
        let n := (lenOfBytes a b d).toNat
        match body.drop n with
        | [] => none
        | k :: tail => some (⟨c, body.take n, k⟩, tail)
      | _ => none
    else
      match rest with
      | [] => none
      | k :: tail => some (⟨c, [], k⟩, tail)

/-- The type of a block on the wire (R116). -/
def Frame.blockType (f : Frame) : BlockType := typeOfControl f.control

/-- The instruction a block is. -/
def Frame.toInstr (f : Frame) : Instr :=
  match f.blockType with
  | .data => .blockData f.payload f.check
  | .unknown => .blockUnknown f.control f.check
  | .coldReset => .blockColdReset f.check
  | .warmReset => .blockWarmReset f.check
  | .busy => .blockBusy f.check
  | .ack => .blockAck f.check
  | .nack => .blockNack f.check

/-- The block instruction at the head of a byte sequence, and what follows it. -/
def decodeBlock (bytes : List Byte) : Option (Instr × List Byte) :=
  (decodeFrame bytes).map fun fr => (fr.1.toInstr, fr.2)

/-- Either interface: a legal command word, or exactly one block. -/
def decode : Encoded → Option Instr
  | .command w =>
    match decodeCmd w with
    | .ok i => some i
    | .error _ => none
  | .wire bytes =>
    match decodeBlock bytes with
    | some (i, []) => some i
    | some (_, _ :: _) => none
    | none => none

/-! ### Encoding -/

/-- A command word from its three fields (R100). -/
def cmdWord (o : Op) (sel imm : Byte) : CmdWord := (o.code ++ sel ++ imm : BitVec 24)

/-- The three length bytes of a payload of `n` bytes (R92, R113). -/
def lenBytes (n : Nat) : List Byte :=
  [len1 (BitVec.ofNat 24 n), len2 (BitVec.ofNat 24 n), len3 (BitVec.ofNat 24 n)]

/-- The wire bytes of a `Data` block (R111). -/
def dataBytes (p : List Byte) (check : Byte) : List Byte :=
  [BlockType.data.tag] ++ lenBytes p.length ++ p ++ [check]

/-- R310: what this side's transmitter sends for a block of type `t` with payload `p`. -/
def encodeFrame (t : BlockType) (p : List Byte) : List Byte :=
  match t with
  | .data => dataBytes p Config.checkTx
  | t => [t.tag, Config.checkTx]

/-- The encoding of an instruction; unused fields are written as 0x00 (R100, R130). -/
def encode : Instr → Encoded
  | .rbReset b => .command (cmdWord .rbReset (selOfHandle b) 0)
  | .rbEnq b v => .command (cmdWord .rbEnq (selOfHandle b) v)
  | .rbDeq b => .command (cmdWord .rbDeq (selOfHandle b) 0)
  | .rbSize b => .command (cmdWord .rbSize (selOfHandle b) 0)
  | .rbEmpty b => .command (cmdWord .rbEmpty (selOfHandle b) 0)
  | .rbFull b => .command (cmdWord .rbFull (selOfHandle b) 0)
  | .semInit k n => .command (cmdWord .semInit k.number n)
  | .semTry k => .command (cmdWord .semTry k.number 0)
  | .semLock k => .command (cmdWord .semLock k.number 0)
  | .semRel k => .command (cmdWord .semRel k.number 0)
  | .rxStart h => .command (cmdWord .rxStart (selOfBinding h) 0)
  | .rxByte v => .command (cmdWord .rxByte 0 v)
  | .rxAvail => .command (cmdWord .rxAvail 0 0)
  | .rxFully => .command (cmdWord .rxFully 0 0)
  | .txSend h t => .command (cmdWord .txSend (selOfBinding h) t.tag)
  | .txNext => .command (cmdWord .txNext 0 0)
  | .commInit => .command (cmdWord .commInit 0 0)
  | .blockData p k => .wire (dataBytes p k)
  | .blockUnknown c k => .wire [c, k]
  | .blockColdReset k => .wire [BlockType.coldReset.tag, k]
  | .blockWarmReset k => .wire [BlockType.warmReset.tag, k]
  | .blockBusy k => .wire [BlockType.busy.tag, k]
  | .blockAck k => .wire [BlockType.ack.tag, k]
  | .blockNack k => .wire [BlockType.nack.tag, k]

/-! ### The opcode table's words -/

/-- A row of 8 bits is the control byte of a block whose other bytes are 0 (R111); every other row is a command word.
Log 16. -/
def tableEncoding (nbits w : Nat) : Encoded :=
  if nbits ≤ 8 then
    let c := BitVec.ofNat 8 w
    if typeOfControl c = .data then .wire [c, 0, 0, 0, 0] else .wire [c, 0]
  else .command (BitVec.ofNat 24 w)

/-- The instruction the decoder reads from a row of spec/opcode_table.json. -/
def decodeTableWord (nbits w : Nat) : Option Instr := decode (tableEncoding nbits w)

end Sys2Proof
end

