-- ==== Sys2Proof/Machine/State.lean ====
section
/-! DEFINITION. The state of the block (10_state.md), as plain data, and its value at reset (rule R47). -/

namespace Sys2Proof.Machine

/-- The reception engine's states (R50, R183). -/
inductive RxState where
  | init | ctrlByte | lenByte1 | lenByte2 | lenByte3 | data | check | transmittedAck | ackCtrlByte | ackCheck
  deriving DecidableEq, Repr

/-- The transmission engine's states (R50, R243). -/
inductive TxState where
  | init | ctrlByte | lenByte1 | lenByte2 | lenByte3 | data | check | rcvdAck | ackCtrlByte | ackCheck
  deriving DecidableEq, Repr

/-- What the transmission next-state function answers (R246): a state, `stay`, or none. -/
inductive TxMove where
  | goto (t : TxState)
  | stay
  | none
  deriving DecidableEq, Repr

/-- Status codes (R120). -/
inductive Status where
  | ok | started | busy | error | full | empty | illegal
  deriving DecidableEq, Repr

/-- A response (R103): its status and its 24-bit value. -/
structure Response where
  status : Status
  value : Len
  deriving DecidableEq, Repr

/-- Events (R125). -/
inductive Event where
  | rxIrqEnable | rxIrqDisable | txIrqEnable | txIrqDisable
  | dataReceived | coldResetReceived | warmResetReceived | unknownReceived
  | blockReceived | blockSent | ackReceivedByPeer
  | waitHook
  deriving DecidableEq, Repr

/-- The external agents (R9). The TIMER presents nothing (R336), so it has no port. -/
inductive Agent where
  | host | rxirq | txirq | timer
  deriving DecidableEq, Repr

/-- Who can be waiting to be served: a command port, or the inbound channel whose bytes RXIRQ hands over (R331). -/
inductive Requester where
  | host | rxirq | txirq | channel
  deriving DecidableEq, Repr

/-- The ReceptionContext (R21, R24 to R32). -/
structure RxContext where
  state : RxState
  buf : Option Handle
  expected : Len
  received : Len
  blockType : BlockType
  inProgress : Bool
  ackExpected : Bool
  ackTxDone : Bool
  ackSeen : Bool
  fault : Bool
  deriving DecidableEq, Repr

/-- The TransmissionContext (R22, R33 to R39). -/
structure TxContext where
  state : TxState
  buf : Option Handle
  blockType : BlockType
  inProgress : Bool
  done : Bool
  ackReceived : Bool
  ackExpected : Bool
  fault : Bool
  deriving DecidableEq, Repr

/-- The `permits` counters of the four semaphores (R40). -/
structure Semaphores where
  rxContext : Byte
  rxProcess : Byte
  txContext : Byte
  txProcess : Byte
  deriving DecidableEq, Repr

/-- The two interrupt-enable bits (R41). -/
structure Irq where
  rxEn : Bool
  txEn : Bool
  deriving DecidableEq, Repr

/-- The backing storage of one ring buffer (R43): index and byte, indices strictly rising.
An index that is not listed holds no value (log 4). -/
abbrev Memory := List Host.Cell

/-- One ring buffer (R42, R43). -/
structure RingBuffer where
  size : Len
  readIndex : Len
  writeIndex : Len
  store : Memory
  deriving DecidableEq, Repr

/-- A command port (R9, R100): the words its agent will present, oldest first, and the semaphore a pending
`SEM_LOCK` of that agent waits for (R163). -/
structure Port where
  queue : List CmdWord
  lock : Option SemId
  deriving DecidableEq, Repr

/-- The reset input (R380): low, or arriving after `after` more steps, between two operations or while the next one is
being served. DESIGN CHOICE (log 10): it holds one arrival, so a run from one state holds at most one reset. -/
inductive ResetInput where
  | low
  | arrives (after : Nat) (inService : Bool)
  deriving DecidableEq, Repr

/-- The byte-channel driver's policy towards the interrupt-enable bits (R333, U8): the two legal inputs of a model. -/
inductive Driver where
  | polling | gated
  deriving DecidableEq, Repr

/-- Everything the block holds (R20), the parameter `C`, and the model's own inputs, output logs and bookkeeping. -/
structure State where
  /-- `RB_CAPACITY` (R8, R148): no operation writes it (log 2). -/
  capacity : Len
  rx : RxContext
  tx : TxContext
  sem : Semaphores
  irq : Irq
  /-- The bank of ring buffers (R42, R43). -/
  rb : Vector RingBuffer Config.rbCount
  /-- Output log: the event stream, oldest first (R45, log 5). -/
  events : List Event
  /-- Output log: the responses, oldest first, each with the agent it goes to (R103, log 5). -/
  responses : List (Agent × Response)
  /-- Output log: the outbound byte stream, oldest first (R44, R332, log 12). -/
  wireOut : List Byte
  /-- Input: the command ports (log 6). -/
  host : Port
  rxirq : Port
  txirq : Port
  /-- Input: the inbound bytes RXIRQ has not presented yet, oldest first (R44, R331, log 6). -/
  wireIn : List Byte
  /-- Input: the reset input (R380, log 10). -/
  resetIn : ResetInput
  /-- Parameter of the environment: the driver's policy (R333, U8); no operation writes it (log 19). -/
  driver : Driver
  /-- The agent whose operation is being served (R100, log 17). -/
  serving : Agent
  /-- How many services the block has made: the argument of `Config.arbitration` (log 3). -/
  served : Nat
  deriving DecidableEq, Repr

/-- Why the machine stops. -/
inductive Fault where
  /-- Raised by a dequeue (`RB_DEQ`, or `TX_NEXT` entering `Data`) of a storage byte that no enqueue has written
  since reset: R43 says it holds no value. Safe: the model stops; R43 derives that no run reaches it. -/
  | unwrittenStorage
  deriving DecidableEq, Repr

/-- Why an instruction is turned away. -/
inductive Refusal where
  /-- Raised by an arm of `exec` whose instruction has no meaning yet. Safe: the model stops. No arm uses it. -/
  | notModelled (mnemonic : String)
  deriving DecidableEq, Repr

/-! ### Reset values (R47, R381) -/

def RxContext.reset : RxContext where
  state := .init
  buf := none
  expected := 0#24
  received := 0#24
  blockType := .unknown
  inProgress := false
  ackExpected := false
  ackTxDone := false
  ackSeen := false
  fault := false

def TxContext.reset : TxContext where
  state := .init
  buf := none
  blockType := .unknown
  inProgress := false
  done := false
  ackReceived := false
  ackExpected := false
  fault := false

def Semaphores.reset : Semaphores := ⟨1#8, 1#8, 1#8, 1#8⟩

def Irq.reset : Irq := ⟨false, false⟩

def RingBuffer.reset : RingBuffer := ⟨0#24, 0#24, 0#24, []⟩

def Port.idle : Port := ⟨[], none⟩

/-- The block of capacity `c` right after reset, with no agent presenting anything and (DESIGN CHOICE, log 19) a polling
driver. -/
def State.resetWith (c : Len) : State where
  capacity := c
  rx := RxContext.reset
  tx := TxContext.reset
  sem := Semaphores.reset
  irq := Irq.reset
  rb := Vector.replicate Config.rbCount RingBuffer.reset
  events := []
  responses := []
  wireOut := []
  host := Port.idle
  rxirq := Port.idle
  txirq := Port.idle
  wireIn := []
  resetIn := .low
  driver := .polling
  serving := .host
  served := 0

/-- The machine right after reset (R47, R381), with the capacity log 2 names. -/
def State.reset : State := State.resetWith Config.resetCapacity

end Sys2Proof.Machine
end

