-- ==== Sys2Proof/Machine/Ops.lean ====
section
/-! DEFINITION. The named operations over storage, ring buffers, semaphores, outputs, and the entry, error and exit
of a byte step (20_memory.md, 40_ringbuffer.md, 41_semaphore.md, 60_exceptions.md section 5). -/

namespace Sys2Proof.Machine

/-! ### Storage bytes (R12, R43) -/

/-- `MemRead` of one index: none where the byte holds no value (R43). -/
def Memory.read : Memory → Nat → Option Byte
  | [], _ => none
  | (k, v) :: m, a => if k = a then some v else Memory.read m a

/-- `MemWrite` of one index, keeping the indices strictly rising. -/
def Memory.write : Memory → Nat → Byte → Memory
  | [], a, v => [(a, v)]
  | (k, w) :: m, a, v =>
    if a < k then (a, v) :: (k, w) :: m
    else if a = k then (a, v) :: m
    else (k, w) :: Memory.write m a v

/-- The canonical form: indices strictly rising. -/
abbrev Memory.wf (m : Memory) : Prop := m.Pairwise fun x y => x.1 < y.1

/-! ### Registers -/

def State.buf (s : State) (b : Handle) : RingBuffer := s.rb.get b

def State.setBuf (s : State) (b : Handle) (q : RingBuffer) : State := { s with rb := s.rb.set b q }

def Semaphores.get (m : Semaphores) : SemId → Byte
  | .rxContext => m.rxContext
  | .rxProcess => m.rxProcess
  | .txContext => m.txContext
  | .txProcess => m.txProcess

def Semaphores.set (m : Semaphores) (k : SemId) (n : Byte) : Semaphores :=
  match k with
  | .rxContext => { m with rxContext := n }
  | .rxProcess => { m with rxProcess := n }
  | .txContext => { m with txContext := n }
  | .txProcess => { m with txProcess := n }

def State.permits (s : State) (k : SemId) : Byte := s.sem.get k

def State.setPermits (s : State) (k : SemId) (n : Byte) : State := { s with sem := s.sem.set k n }

/-- The port of an agent; the TIMER has none (R336). -/
def State.port (s : State) : Agent → Port
  | .host => s.host
  | .rxirq => s.rxirq
  | .txirq => s.txirq
  | .timer => Port.idle

def State.setPort (s : State) (a : Agent) (p : Port) : State :=
  match a with
  | .host => { s with host := p }
  | .rxirq => { s with rxirq := p }
  | .txirq => { s with txirq := p }
  | .timer => s

/-! ### Outputs (R13, R44, R45, R103) -/

/-- `emit EV` (R13). -/
def State.emit (s : State) (e : Event) : State := { s with events := s.events ++ [e] }

/-- The response of the operation being served (R103). -/
def State.respond (s : State) (st : Status) (v : Len) : State :=
  { s with responses := s.responses ++ [(s.serving, ⟨st, v⟩)] }

/-- The driver pushes a byte returned with `Ok` by `TX_NEXT` on the channel (R44, R332). -/
def State.push (s : State) (v : Byte) : State := { s with wireOut := s.wireOut ++ [v] }

/-- `irq.rx_en` and the matching event (R41). -/
def State.setRxIrq (s : State) (on : Bool) : State :=
  { s with irq := { s.irq with rxEn := on } }.emit (if on then .rxIrqEnable else .rxIrqDisable)

/-- `irq.tx_en` and the matching event (R41). -/
def State.setTxIrq (s : State) (on : Bool) : State :=
  { s with irq := { s.irq with txEn := on } }.emit (if on then .txIrqEnable else .txIrqDisable)

/-! ### Ring buffers (R91, R141 to R144) -/

/-- The index after `i` (R91): `(i + 1) mod C`. -/
def nextIndex (c i : Len) : Len := BitVec.ofNat 24 ((i.toNat + 1) % c.toNat)

/-- `RbReset` (R141). -/
def rbReset (b : Handle) (s : State) : State :=
  s.setBuf b { s.buf b with size := 0#24, readIndex := 0#24, writeIndex := 0#24 }

/-- The buffer after an enqueue that succeeds (R142). -/
def RingBuffer.enqueue (c : Len) (q : RingBuffer) (v : Byte) : RingBuffer :=
  { q with
    store := Memory.write q.store q.writeIndex.toNat v
    writeIndex := nextIndex c q.writeIndex
    size := q.size + 1#24 }

/-- `RbEnqueue` (R142); none is `Full`. -/
def rbEnqueue (b : Handle) (v : Byte) (s : State) : Option State :=
  if (s.buf b).size = s.capacity then none
  else some (s.setBuf b ((s.buf b).enqueue s.capacity v))

/-- The buffer after a dequeue that succeeds (R143). -/
def RingBuffer.dequeue (c : Len) (q : RingBuffer) : RingBuffer :=
  { q with readIndex := nextIndex c q.readIndex, size := q.size - 1#24 }

/-- `RbDequeue` (R143); `.ok none` is `Empty`. The oldest byte's storage holds a value in every state that meets
the ring-buffer invariant; where it holds none (R43) the machine faults (log 4). -/
def rbDequeue (b : Handle) (s : State) : Except Fault (Option (Byte × State)) :=
  if (s.buf b).size = 0#24 then .ok none
  else
    match Memory.read (s.buf b).store (s.buf b).readIndex.toNat with
    | none => .error .unwrittenStorage
    | some v => .ok (some (v, s.setBuf b ((s.buf b).dequeue s.capacity)))

/-- `RbSize` (R144); of `none` it is 0. -/
def rbSize (h : Option Handle) (s : State) : Len :=
  match h with
  | none => 0#24
  | some b => (s.buf b).size

/-! ### Semaphores (R162, R164) -/

/-- `TryLock` (R162); none is failure. -/
def tryLock (k : SemId) (s : State) : Option State :=
  if s.permits k = 0#8 then none else some (s.setPermits k (s.permits k - 1#8))

/-- `Release` (R164): saturates at 255. -/
def release (k : SemId) (s : State) : State :=
  if (s.permits k).toNat < 255 then s.setPermits k (s.permits k + 1#8) else s

/-! ### Entry, error and exit of a byte step: what stands for taking an exception (R330, R340 to R342, R349, R350) -/

/-- Entry (R349), the same for both engines: a cycle in progress, no sticky fault, the context lock.
The answer is the status of R340 or the state with the lock taken. -/
def enterStep (inProgress fault : Bool) (k : SemId) (s : State) : Except Status State :=
  if inProgress = false then .error .error
  else if fault = true then .error .error
  else
    match tryLock k s with
    | none => .error .busy
    | some s' => .ok s'

/-- `raise Error` in a reception step (R13, R342): the sticky bit and the status. -/
def raiseRx (s : State) : State × Status := ({ s with rx := { s.rx with fault := true } }, .error)

/-- `raise Error` in a transmission step (R13, R342). -/
def raiseTx (s : State) : State := { s with tx := { s.tx with fault := true } }

/-- Exit (R350): the context lock is released on every path. -/
def exitStep (k : SemId) (s : State) : State := release k s

/-! ### Reset input (R380, R381) -/

/-- The state once the reset input has arrived: every piece of state at its value of R47, no event, the logs empty.
What the agents have still to present, the channel's bytes, the capacity, the driver's policy and the service count
stay (log 10).
DESIGN CHOICE (log 10): the arrival is spent, the input is low after it, and a further reset is placed from outside. -/
def applyReset (s : State) : State :=
  { State.resetWith s.capacity with
    host := { Port.idle with queue := s.host.queue }
    rxirq := { Port.idle with queue := s.rxirq.queue }
    txirq := { Port.idle with queue := s.txirq.queue }
    wireIn := s.wireIn
    driver := s.driver
    served := s.served }

end Sys2Proof.Machine
end

