-- ==== Sys2Proof/Machine/Operands.lean ====
section
/-! DEFINITION. Numbers of statuses, responses and events (R103, R120, R125), and the values operations return. -/

namespace Sys2Proof.Machine

/-- Status codes (R120). -/
def Status.code : Status → Byte
  | .ok => 0x00
  | .started => 0x01
  | .busy => 0x02
  | .error => 0x03
  | .full => 0x04
  | .empty => 0x05
  | .illegal => 0x06

/-- The response word (R103): `status` in bits 31:24, `value` in bits 23:0. -/
def Response.word (r : Response) : RespWord := (r.status.code ++ r.value : BitVec 32)

/-- Event codes (R125). -/
def Event.code : Event → Byte
  | .rxIrqEnable => 0x01
  | .rxIrqDisable => 0x02
  | .txIrqEnable => 0x03
  | .txIrqDisable => 0x04
  | .dataReceived => 0x10
  | .coldResetReceived => 0x11
  | .warmResetReceived => 0x12
  | .unknownReceived => 0x13
  | .blockReceived => 0x14
  | .blockSent => 0x15
  | .ackReceivedByPeer => 0x16
  | .waitHook => 0x20

/-- A byte as a response value: `zext_24` (R10, R143, R245). -/
def byteValue (v : Byte) : Len := v.setWidth 24

/-- A truth value as a response value: 1 or 0 (R145, R146, R203, R204). -/
def boolValue (x : Bool) : Len := if x then 1#24 else 0#24

end Sys2Proof.Machine
end

