-- ==== Sys2Proof/Machine/Flags.lean ====
section
/-! DEFINITION. The predicates and next-state functions the engines test (R186, R200, R203, R204, R246, R291).
There are no arithmetic flags (R90). -/

namespace Sys2Proof.Machine

/-- `REQUIRES_ACK` (R291). -/
def requiresAck : BlockType → Bool
  | .data => true
  | .coldReset => true
  | .warmReset => true
  | .unknown => false
  | .busy => false
  | .ack => false
  | .nack => false

/-- The per-type event of an ended reception cycle (R200); `Ack`, `Busy` and `Nack` have none. -/
def typeEvent : BlockType → Option Event
  | .data => some .dataReceived
  | .coldReset => some .coldResetReceived
  | .warmReset => some .warmResetReceived
  | .unknown => some .unknownReceived
  | .busy => none
  | .ack => none
  | .nack => none

/-- `rx_next()` (R186). -/
def rxNext (r : RxContext) : Option RxState :=
  match r.state with
  | .init => if r.ackExpected ∧ r.buf = none then some .ackCtrlByte else some .ctrlByte
  | .ctrlByte => if r.blockType = .data then some .lenByte1 else some .check
  | .lenByte1 => some .lenByte2
  | .lenByte2 => some .lenByte3
  | .lenByte3 => if r.expected = 0#24 then some .check else some .data
  | .data => if r.received.toNat < r.expected.toNat then some .data else some .check
  | .check =>
    if r.ackTxDone then some .transmittedAck
    else if r.ackExpected then some .ackCtrlByte
    else none
  | .ackCtrlByte => some .ackCheck
  | .ackCheck => if r.ackTxDone then some .transmittedAck else none
  | .transmittedAck => none

/-- The wait-state rows of `tx_next()`: `Check` and `AckCheck` (R246). -/
def txWaitNext (t : TxContext) : TxMove :=
  if t.ackReceived then .goto .rcvdAck
  else if t.ackExpected then .goto .ackCtrlByte
  else .stay

/-- `tx_next()` (R246), with `occ` the occupancy of the bound buffer. -/
def txNext (t : TxContext) (occ : Len) : TxMove :=
  match t.state with
  | .init => .goto .ctrlByte
  | .ctrlByte => if t.blockType = .data then .goto .lenByte1 else .goto .check
  | .lenByte1 => .goto .lenByte2
  | .lenByte2 => .goto .lenByte3
  | .lenByte3 => if occ = 0#24 then .goto .check else .goto .data
  | .data => if occ = 0#24 then .goto .check else .goto .data
  | .check => txWaitNext t
  | .ackCheck => txWaitNext t
  | .ackCtrlByte => .goto .ackCheck
  | .rcvdAck => .none

/-- The formula of `RX_AVAIL` (R203). -/
def payloadAvailable (s : State) : Bool :=
  decide (s.rx.blockType = .data) && s.rx.buf.isSome && decide (0 < (rbSize s.rx.buf s).toNat)

/-- The formula of `RX_FULLY` (R204). -/
def fullyReceived (s : State) : Bool :=
  !s.rx.inProgress && decide (s.rx.blockType = .data) && decide (s.rx.received = s.rx.expected)

end Sys2Proof.Machine
end

