-- ==== Sys2Proof/Machine/Context.lean ====
section
/-! DEFINITION. Context initialisation (44_ack_sequencing.md section 4). -/

namespace Sys2Proof.Machine

/-- The contexts, the semaphores and the interrupt bits at their reset values (R297, R47 rows marked `*`). -/
def initContexts (s : State) : State :=
  { s with rx := RxContext.reset, tx := TxContext.reset, sem := Semaphores.reset, irq := Irq.reset }

/-- `COMM_INIT` (R297). A pending `SEM_LOCK` and the ring buffers are left alone. -/
def execCommInit (s : State) : Host.Outcome State Fault Refusal :=
  .next ((((initContexts s).emit .rxIrqDisable).emit .txIrqDisable).respond .ok 0#24)

end Sys2Proof.Machine
end

