-- ==== Sys2Proof/Machine/Ring.lean ====
section
/-! DEFINITION. The ring-buffer operations (40_ringbuffer.md). -/

namespace Sys2Proof.Machine

/-- `RB_RESET b` (R141). -/
def execRbReset (b : Handle) (s : State) : Host.Outcome State Fault Refusal :=
  .next ((rbReset b s).respond .ok 0#24)

/-- `RB_ENQ b, v` (R142). -/
def execRbEnq (b : Handle) (v : Byte) (s : State) : Host.Outcome State Fault Refusal :=
  match rbEnqueue b v s with
  | none => .next (s.respond .full 0#24)
  | some t => .next (t.respond .ok 0#24)

/-- `RB_DEQ b` (R143). -/
def execRbDeq (b : Handle) (s : State) : Host.Outcome State Fault Refusal :=
  match rbDequeue b s with
  | .error e => .fault e
  | .ok none => .next (s.respond .empty 0#24)
  | .ok (some (v, t)) => .next (t.respond .ok (byteValue v))

/-- `RB_SIZE b` (R144). -/
def execRbSize (b : Handle) (s : State) : Host.Outcome State Fault Refusal :=
  .next (s.respond .ok (rbSize (some b) s))

/-- `RB_EMPTY b` (R145). -/
def execRbEmpty (b : Handle) (s : State) : Host.Outcome State Fault Refusal :=
  .next (s.respond .ok (boolValue (decide ((s.buf b).size = 0#24))))

/-- `RB_FULL b` (R146). -/
def execRbFull (b : Handle) (s : State) : Host.Outcome State Fault Refusal :=
  .next (s.respond .ok (boolValue (decide ((s.buf b).size = s.capacity))))

end Sys2Proof.Machine
end

