-- ==== Sys2Proof/Machine/Semaphore.lean ====
section
/-! DEFINITION. The semaphore operations (41_semaphore.md). -/

namespace Sys2Proof.Machine

/-- `SEM_INIT k, n` (R161). -/
def execSemInit (k : SemId) (n : Byte) (s : State) : Host.Outcome State Fault Refusal :=
  .next ((s.setPermits k n).respond .ok 0#24)

/-- `SEM_TRY k` (R162): 0 is obtained, 1 is was already locked. -/
def execSemTry (k : SemId) (s : State) : Host.Outcome State Fault Refusal :=
  match tryLock k s with
  | none => .next (s.respond .ok 1#24)
  | some t => .next (t.respond .ok 0#24)

/-- The `SEM_LOCK` the agent being served is held by, or none (R163). -/
def State.setPending (s : State) (l : Option SemId) : State :=
  s.setPort s.serving { s.port s.serving with lock := l }

/-- One attempt of `SEM_LOCK k` (R163): it completes, or emits `WAIT_HOOK` and stays pending (log 7). -/
def execSemLock (k : SemId) (s : State) : Host.Outcome State Fault Refusal :=
  match tryLock k s with
  | some t => .next ((t.setPending none).respond .ok 0#24)
  | none => .next ((s.setPending (some k)).emit .waitHook)

/-- `SEM_REL k` (R164). -/
def execSemRel (k : SemId) (s : State) : Host.Outcome State Fault Refusal :=
  .next ((release k s).respond .ok 0#24)

end Sys2Proof.Machine
end

