-- ==== Sys2Proof/Machine/Cycle.lean ====
section
/-! DEFINITION. Starting and ending a cycle, and the hand-off between the engines (R181, R200, R241, R260, R262,
R292 to R295). Nesting is bounded (R298), so each procedure calls only earlier ones. -/

namespace Sys2Proof.Machine

/-! ### Starting -/

/-- The `Init` entry action of reception (R182). -/
def rxInitAction (s : State) : State := { s with rx := { s.rx with expected := 0#24, received := 0#24 } }

/-- `start_reception(h)` (R181); none is `Busy`. -/
def startReception (h : Option Handle) (s : State) : Option State :=
  match tryLock .rxProcess s with
  | none => none
  | some s =>
    let s := rxInitAction { s with rx := { s.rx with state := .init } }
    let s := { s with rx := { s.rx with buf := h, inProgress := true, ackSeen := false } }
    some (s.setRxIrq true)

/-- The `Init` entry action of transmission (R242). -/
def txInitAction (s : State) : State := { s with tx := { s.tx with ackReceived := false } }

/-- `send_block(h, t)` (R241); none is `Busy`. -/
def sendBlock (h : Option Handle) (t : BlockType) (s : State) : Option State :=
  match tryLock .txProcess s with
  | none => none
  | some s =>
    let s := { s with tx := { s.tx with done := false, inProgress := true, buf := h, blockType := t, state := .init } }
    some ((txInitAction s).setTxIrq true)

/-! ### Ending -/

/-- `end_reception_cycle()` (R200). -/
def endReceptionCycle (s : State) : State :=
  let s := release .rxProcess s
  let s := { s with rx := { s.rx with inProgress := false } }
  let s := if s.rx.ackSeen then s.emit .ackReceivedByPeer else s
  let s := match typeEvent s.rx.blockType with
    | some e => s.emit e
    | none => s
  let s := s.emit .blockReceived
  let s := s.setRxIrq false
  if s.rx.ackExpected then (startReception s.rx.buf s).getD s else s

/-- `end_transmission_cycle()` (R262). -/
def endTransmissionCycle (s : State) : State :=
  let s := release .txProcess s
  let s := { s with tx := { s.tx with inProgress := false, done := true } }
  let s := s.emit .blockSent
  if s.tx.ackExpected then (sendBlock none .ack s).getD s else s

/-- R248: the transmit interrupt is disabled by a step that leaves the engine idle or waiting. -/
def disableTxIfIdle (s : State) : State :=
  if s.tx.done = true ∨ s.tx.inProgress = false then s.setTxIrq false else s

/-! ### Re-drives and hand-offs -/

/-- `redrive_tx()` (R294). -/
def redriveTx (s : State) : State :=
  match enterStep s.tx.inProgress s.tx.fault .txContext s with
  | .error _ => s
  | .ok s' =>
    let s' :=
      if txNext s'.tx (rbSize s'.tx.buf s') = .goto .rcvdAck then
        disableTxIfIdle (endTransmissionCycle { s' with tx := { s'.tx with state := .rcvdAck } })
      else s'
    exitStep .txContext s'

/-- `ack_received_handling()` (R292). -/
def ackReceivedHandling (s : State) : State :=
  redriveTx
    { s with rx := { s.rx with ackExpected := false, ackSeen := true }, tx := { s.tx with ackReceived := true } }

/-- The `TransmittedAck` action (R195): the flag is consumed and the cycle ends. -/
def transmittedAckAction (s : State) : State :=
  endReceptionCycle { s with rx := { s.rx with ackTxDone := false } }

/-- `redrive_rx()` (R295). -/
def redriveRx (s : State) : State :=
  match enterStep s.rx.inProgress s.rx.fault .rxContext s with
  | .error _ => s
  | .ok s' =>
    let s' :=
      if rxNext s'.rx = some .transmittedAck then
        transmittedAckAction { s' with rx := { s'.rx with state := .transmittedAck } }
      else s'
    exitStep .rxContext s'

/-- `ack_sent_handling()` (R293). -/
def ackSentHandling (s : State) : State :=
  redriveRx { s with tx := { s.tx with ackExpected := false }, rx := { s.rx with ackTxDone := true } }

/-- `completion()` (R260). -/
def completion (s : State) : State :=
  if requiresAck s.tx.blockType then
    if s.tx.ackReceived then endTransmissionCycle { s with tx := { s.tx with state := .rcvdAck } }
    else
      let s := { s with tx := { s.tx with done := true }, rx := { s.rx with ackExpected := true } }
      (startReception none s).getD s
  else endTransmissionCycle s

end Sys2Proof.Machine
end

