-- ==== Sys2Proof/Machine/Transmission.lean ====
section
/-! DEFINITION. The transmission engine's byte step and operations (43_transmission.md). -/

namespace Sys2Proof.Machine

/-! ### Entry actions: the byte emitted, if any, and the new state -/

/-- `Check` (R255). -/
def txCheckAction (s : State) : State :=
  completion (if s.tx.blockType = .ack ∧ s.tx.ackExpected = true then ackSentHandling s else s)

/-- `AckCheck` (R257). -/
def txAckCheckAction (s : State) : State :=
  completion (ackSentHandling { s with tx := { s.tx with done := true } })

/-- `Data` (R254): the next-state function enters `Data` with `occ > 0` only, so a buffer is bound and not empty;
a state without one emits nothing. -/
def txDataAction (s : State) : Except Fault (Option Byte × State) :=
  match s.tx.buf with
  | none => .ok (none, s)
  | some b =>
    match rbDequeue b s with
    | .error e => .error e
    | .ok none => .ok (none, s)
    | .ok (some (v, t)) => .ok (some v, t)

/-- The entry action of a state (R250 to R258). -/
def txAction (next : TxState) (s : State) : Except Fault (Option Byte × State) :=
  match next with
  | .init => .ok (none, txInitAction s)
  | .ctrlByte => .ok (some s.tx.blockType.tag, s)
  | .lenByte1 => .ok (some (len1 (rbSize s.tx.buf s)), s)
  | .lenByte2 => .ok (some (len2 (rbSize s.tx.buf s)), s)
  | .lenByte3 => .ok (some (len3 (rbSize s.tx.buf s)), s)
  | .data => txDataAction s
  | .check => .ok (some Config.checkTx, txCheckAction s)
  | .ackCtrlByte => .ok (some BlockType.ack.tag, s)
  | .ackCheck => .ok (some Config.checkTx, txAckCheckAction s)
  | .rcvdAck => .ok (none, endTransmissionCycle s)

/-- The end of a step that did not fault (R245, R247, R248): interrupt, lock, response, and the byte on the channel. -/
def finishTx (byte : Option Byte) (s : State) : State :=
  let s := exitStep .txContext (disableTxIfIdle s)
  match byte with
  | none => s.respond .empty 0#24
  | some v => (s.push v).respond .ok (byteValue v)

/-! ### Operations -/

/-- `TX_SEND h, t` (R241). -/
def execTxSend (h : Option Handle) (t : BlockType) (s : State) : Host.Outcome State Fault Refusal :=
  match sendBlock h t s with
  | none => .next (s.respond .busy 0#24)
  | some s' => .next (s'.respond .started 0#24)

/-- `TX_NEXT` (R245). -/
def execTxNext (s : State) : Host.Outcome State Fault Refusal :=
  match enterStep s.tx.inProgress s.tx.fault .txContext s with
  | .error st => .next (s.respond st 0#24)
  | .ok s' =>
    match txNext s'.tx (rbSize s'.tx.buf s') with
    | .none => .next ((exitStep .txContext (raiseTx s')).respond .error 0#24)
    | .stay => .next (finishTx none s')
    | .goto n =>
      match txAction n { s' with tx := { s'.tx with state := n } } with
      | .error e => .fault e
      | .ok (byte, t) => .next (finishTx byte t)

end Sys2Proof.Machine
end

