-- ==== Sys2Proof/Machine/Reception.lean ====
section
/-! DEFINITION. The reception engine's byte step and operations (42_reception.md). -/

namespace Sys2Proof.Machine

/-! ### Entry actions -/

/-- `CtrlByte` (R187). -/
def rxCtrlByteAction (v : Byte) (s : State) : State :=
  let s := { s with rx := { s.rx with blockType := typeOfControl v } }
  if s.rx.blockType = .data then
    match s.rx.buf with
    | some b => rbReset b s
    | none => s
  else s

/-- `LenByte1` (R188). -/
def rxLenByte1Action (v : Byte) (s : State) : State :=
  { s with rx := { s.rx with expected := v.setWidth 24 <<< 16 } }

/-- `LenByte2` (R188). -/
def rxLenByte2Action (v : Byte) (s : State) : State :=
  { s with rx := { s.rx with expected := s.rx.expected ||| (v.setWidth 24 <<< 8) } }

/-- `LenByte3` (R188). -/
def rxLenByte3Action (v : Byte) (s : State) : State :=
  { s with rx := { s.rx with expected := s.rx.expected ||| v.setWidth 24 } }

/-- One more payload byte consumed (R189). -/
def countReceived (s : State) : State := { s with rx := { s.rx with received := s.rx.received + 1#24 } }

/-- `Data` (R189): a full destination buffer is an error fatal to the cycle. -/
def rxDataAction (v : Byte) (s : State) : State × Status :=
  match s.rx.buf with
  | none => (countReceived s, .ok)
  | some b =>
    match rbEnqueue b v s with
    | none => raiseRx s
    | some t => (countReceived t, .ok)

/-- `Check` (R190): the block-completion decision. -/
def rxCheckAction (s : State) : State :=
  if s.rx.blockType = .ack ∧ s.rx.ackExpected = true then endReceptionCycle (ackReceivedHandling s)
  else if requiresAck s.rx.blockType = false then endReceptionCycle s
  else
    let s := { s with tx := { s.tx with ackExpected := true } }
    (sendBlock none .ack s).getD s

/-- `AckCtrlByte` (R192). -/
def rxAckCtrlByteAction (prev : RxState) (v : Byte) (s : State) : State × Status :=
  if v ≠ BlockType.ack.tag then raiseRx s
  else if prev = .init then ({ s with rx := { s.rx with blockType := .ack } }, .ok)
  else (s, .ok)

/-- `AckCheck` (R193). -/
def rxAckCheckAction (s : State) : State :=
  let s := ackReceivedHandling s
  if s.rx.ackTxDone then transmittedAckAction s
  else if requiresAck s.rx.blockType = true ∧ s.tx.ackExpected = true then s
  else endReceptionCycle s

/-- The entry action of a state (R182, R187 to R195); the check byte is not examined (R194). -/
def rxAction (next prev : RxState) (v : Byte) (s : State) : State × Status :=
  match next with
  | .init => (rxInitAction s, .ok)
  | .ctrlByte => (rxCtrlByteAction v s, .ok)
  | .lenByte1 => (rxLenByte1Action v s, .ok)
  | .lenByte2 => (rxLenByte2Action v s, .ok)
  | .lenByte3 => (rxLenByte3Action v s, .ok)
  | .data => rxDataAction v s
  | .check => (rxCheckAction s, .ok)
  | .ackCtrlByte => rxAckCtrlByteAction prev v s
  | .ackCheck => (rxAckCheckAction s, .ok)
  | .transmittedAck => (transmittedAckAction s, .ok)

/-- Transition and entry action, the context lock held (R185). -/
def rxTransition (v : Byte) (s : State) : State × Status :=
  match rxNext s.rx with
  | none => raiseRx s
  | some n => rxAction n s.rx.state v { s with rx := { s.rx with state := n } }

/-- `on_byte_received(v)` (R185): the new state and the status. -/
def onByteReceived (v : Byte) (s : State) : State × Status :=
  match enterStep s.rx.inProgress s.rx.fault .rxContext s with
  | .error st => (s, st)
  | .ok s' => (exitStep .rxContext (rxTransition v s').1, (rxTransition v s').2)

/-- One received byte, answered to the agent that presented it. -/
def receiveByte (v : Byte) (s : State) : State := (onByteReceived v s).1.respond (onByteReceived v s).2 0#24

/-- Received bytes, in order, nothing in between (R131 `FEED`, R331). -/
def receiveBytes (bytes : List Byte) (s : State) : State := bytes.foldl (fun t v => receiveByte v t) s

/-! ### Operations -/

/-- `RX_START h` (R181). -/
def execRxStart (h : Option Handle) (s : State) : Host.Outcome State Fault Refusal :=
  match startReception h s with
  | none => .next (s.respond .busy 0#24)
  | some t => .next (t.respond .started 0#24)

/-- `RX_BYTE v` (R185). -/
def execRxByte (v : Byte) (s : State) : Host.Outcome State Fault Refusal := .next (receiveByte v s)

/-- `RX_AVAIL` (R203). -/
def execRxAvail (s : State) : Host.Outcome State Fault Refusal :=
  .next (s.respond .ok (boolValue (payloadAvailable s)))

/-- `RX_FULLY` (R204). -/
def execRxFully (s : State) : Host.Outcome State Fault Refusal :=
  .next (s.respond .ok (boolValue (fullyReceived s)))

end Sys2Proof.Machine
end

