-- ==== Sys2Proof/Machine/Wire.lean ====
section
/-! DEFINITION. The wire blocks as instructions (R1 (b), R110, R111): a block on the inbound channel is its bytes
given to the reception engine in order (R115, R315, R331; log 8). -/

namespace Sys2Proof.Machine

/-- `BLOCK_DATA`: control byte, three length bytes, payload, check byte. -/
def execBlockData (p : List Byte) (k : Byte) (s : State) : Host.Outcome State Fault Refusal :=
  .next (receiveBytes (dataBytes p k) s)

/-- `BLOCK_UNKNOWN`: control byte 0x01, or 0x07 .. 0xFF (R116), and check byte. -/
def execBlockUnknown (c k : Byte) (s : State) : Host.Outcome State Fault Refusal :=
  .next (receiveBytes [c, k] s)

/-- `BLOCK_COLDRESET`. -/
def execBlockColdReset (k : Byte) (s : State) : Host.Outcome State Fault Refusal :=
  .next (receiveBytes [BlockType.coldReset.tag, k] s)

/-- `BLOCK_WARMRESET`. -/
def execBlockWarmReset (k : Byte) (s : State) : Host.Outcome State Fault Refusal :=
  .next (receiveBytes [BlockType.warmReset.tag, k] s)

/-- `BLOCK_BUSY`. -/
def execBlockBusy (k : Byte) (s : State) : Host.Outcome State Fault Refusal :=
  .next (receiveBytes [BlockType.busy.tag, k] s)

/-- `BLOCK_ACK`. -/
def execBlockAck (k : Byte) (s : State) : Host.Outcome State Fault Refusal :=
  .next (receiveBytes [BlockType.ack.tag, k] s)

/-- `BLOCK_NACK`. -/
def execBlockNack (k : Byte) (s : State) : Host.Outcome State Fault Refusal :=
  .next (receiveBytes [BlockType.nack.tag, k] s)

end Sys2Proof.Machine
end

