-- ==== Sys2Proof/Machine/Dispatch.lean ====
section
/-! DEFINITION. One arm per instruction. -/

namespace Sys2Proof.Machine

def exec (i : Instr) (s : State) : Host.Outcome State Fault Refusal :=
  match i with
  | .rbReset b => Sys2Proof.Machine.execRbReset b s
  | .rbEnq b v => Sys2Proof.Machine.execRbEnq b v s
  | .rbDeq b => Sys2Proof.Machine.execRbDeq b s
  | .rbSize b => Sys2Proof.Machine.execRbSize b s
  | .rbEmpty b => Sys2Proof.Machine.execRbEmpty b s
  | .rbFull b => Sys2Proof.Machine.execRbFull b s
  | .semInit k n => Sys2Proof.Machine.execSemInit k n s
  | .semTry k => Sys2Proof.Machine.execSemTry k s
  | .semLock k => Sys2Proof.Machine.execSemLock k s
  | .semRel k => Sys2Proof.Machine.execSemRel k s
  | .rxStart h => Sys2Proof.Machine.execRxStart h s
  | .rxByte v => Sys2Proof.Machine.execRxByte v s
  | .rxAvail => Sys2Proof.Machine.execRxAvail s
  | .rxFully => Sys2Proof.Machine.execRxFully s
  | .txSend h t => Sys2Proof.Machine.execTxSend h t s
  | .txNext => Sys2Proof.Machine.execTxNext s
  | .commInit => Sys2Proof.Machine.execCommInit s
  | .blockData p k => Sys2Proof.Machine.execBlockData p k s
  | .blockUnknown c k => Sys2Proof.Machine.execBlockUnknown c k s
  | .blockColdReset k => Sys2Proof.Machine.execBlockColdReset k s
  | .blockWarmReset k => Sys2Proof.Machine.execBlockWarmReset k s
  | .blockBusy k => Sys2Proof.Machine.execBlockBusy k s
  | .blockAck k => Sys2Proof.Machine.execBlockAck k s
  | .blockNack k => Sys2Proof.Machine.execBlockNack k s

end Sys2Proof.Machine
end

