-- ==== Sys2Proof/Machine/Fetch.lean ====
section
/-! DEFINITION. Which presented operation is served next, and what it is (R75, R80, R100, R163, R331, R333). -/

namespace Sys2Proof.Machine

/-- The agent behind a requester; the channel's bytes are presented by RXIRQ (R331). -/
def Requester.agent : Requester → Agent
  | .host => .host
  | .rxirq => .rxirq
  | .txirq => .txirq
  | .channel => .rxirq

/-- R333: a polling driver presents at any time, a gated one only while the interrupt-enable bit it obeys is 1. -/
def Driver.presents : Driver → Bool → Bool
  | .polling, _ => true
  | .gated, enabled => enabled

/-- R333: whether agent `a` presents the word `w` now. The policy governs RXIRQ's `RX_BYTE` and TXIRQ's `TX_NEXT`, and
nothing else (log 19). -/
def wordPresented (s : State) (a : Agent) (w : CmdWord) : Bool :=
  match a, decodeCmd w with
  | .rxirq, .ok (.rxByte _) => s.driver.presents s.irq.rxEn
  | .txirq, .ok .txNext => s.driver.presents s.irq.txEn
  | _, _ => true

/-- A port has something to serve: a pending `SEM_LOCK` (R163), or an oldest word that its agent presents. -/
def portWaiting (a : Agent) (s : State) : Bool :=
  match (s.port a).lock, (s.port a).queue with
  | some _, _ => true
  | none, w :: _ => wordPresented s a w
  | none, [] => false

/-- The channel has a byte that RXIRQ presents now (R331, R333); an agent held by a `SEM_LOCK` presents nothing else
(R163). -/
def channelWaiting (s : State) : Bool := !s.wireIn.isEmpty && s.rxirq.lock.isNone && s.driver.presents s.irq.rxEn

/-- Whether a requester waits. -/
def isWaiting (s : State) : Requester → Bool
  | .host => portWaiting .host s
  | .rxirq => portWaiting .rxirq s
  | .txirq => portWaiting .txirq s
  | .channel => channelWaiting s

/-- Everyone who waits. -/
def waiting (s : State) : List Requester := [Requester.host, .rxirq, .txirq, .channel].filter (isWaiting s)

/-- `ARBITRATION` (R75): a lone requester is served; among several the free value says which (log 3). -/
def arbitrate (n : Nat) : List Requester → Option Requester
  | [] => none
  | [r] => some r
  | r :: q :: l => (r :: q :: l)[Config.arbitration n % (r :: q :: l).length]?

/-- The state while an operation of agent `a` is served. -/
def State.serve (s : State) (a : Agent) : State := { s with serving := a, served := s.served + 1 }

/-- What is served: an instruction in the state it starts from; an illegal word; or nothing. -/
abbrev Served := Option (Except Illegal Instr × State)

/-- The service of a command port: the pending `SEM_LOCK` is attempted again (R163), or the oldest word is taken and
decoded (R80). -/
def servePort (a : Agent) (s : State) : Served :=
  match (s.port a).lock with
  | some k => some (.ok (.semLock k), s.serve a)
  | none =>
    match (s.port a).queue with
    | [] => none
    | w :: ws => some (decodeCmd w, (s.setPort a { queue := ws, lock := none }).serve a)

/-- The oldest channel byte, presented with `RX_BYTE` (R331). -/
def serveChannelByte (s : State) : Served :=
  match s.wireIn with
  | [] => none
  | v :: rest => some (.ok (.rxByte v), { s with wireIn := rest }.serve .rxirq)

/-- The service of the channel. While the driver polls, nobody else waits and no reset is on its way, nothing can come
between the bytes of a block or hold one back, and a complete block is one service; otherwise each byte is a service of
its own (log 8). -/
def serveChannel (s : State) : Served :=
  match s.driver, s.resetIn, waiting s with
  | .polling, .low, [_] =>
    match decodeBlock s.wireIn with
    | some (i, rest) => some (.ok i, { s with wireIn := rest }.serve .rxirq)
    | none => serveChannelByte s
  | _, _, _ => serveChannelByte s

/-- The next service. -/
def fetch (s : State) : Served :=
  match arbitrate s.served (waiting s) with
  | none => none
  | some .channel => serveChannel s
  | some r => servePort r.agent s

/-- Reset arrives while the next operation is being served (R380): its word, byte or attempt is gone, it has no response,
and the block is as after reset. With nothing presented no operation is in service. -/
def abandonService (s : State) : State :=
  match fetch s with
  | none => applyReset s
  | some (_, t) => applyReset t

/-- The answer to an illegal command word (R104). -/
def answerIllegal (s : State) : State := s.respond .illegal 0#24

/-- The machine with nothing presented but `e`: by HOST if it is a command word, on the channel, under a
polling driver, if it is a block. -/
def presentOnly (e : Encoded) (s : State) : State :=
  let s := { s with resetIn := .low, host := Port.idle, rxirq := Port.idle, txirq := Port.idle, wireIn := [] }
  match e with
  | .command w => { s with host := { Port.idle with queue := [w] } }
  | .wire bytes => { s with wireIn := bytes, driver := .polling }

end Sys2Proof.Machine
end

