-- ==== Sys2Proof/Machine/Step.lean ====
section
/-! DEFINITION. One step: one service, or the reset input (R75, R380). -/

namespace Sys2Proof.Machine

/-- One service, whole. With nothing presented the block does nothing (R9, R365; log 11). -/
def serveNext (s : State) : Host.Outcome State Fault Refusal :=
  match fetch s with
  | none => .next s
  | some (.ok i, t) => exec i t
  | some (.error _, t) => .next (answerIllegal t)

/-- One step: a service, or the arrival of the reset input between two operations or inside one (R380; log 10). -/
def step (s : State) : Host.Outcome State Fault Refusal :=
  match s.resetIn with
  | .low => serveNext s
  | .arrives (n + 1) inService => serveNext { s with resetIn := .arrives n inService }
  | .arrives 0 false => .next (applyReset s)
  | .arrives 0 true => .next (abandonService s)

/-- `s` with the opcode-table word `w` of `nbits` bits as the only thing presented, so that the next step serves it
(log 6, log 16). -/
def State.withFetchWord (s : State) (nbits w : Nat) : State := presentOnly (tableEncoding nbits w) s

end Sys2Proof.Machine
end

