-- ==== Sys2Proof/Safety.lean ====
section
/-! DEFINITION. What counts as a good state and a good run, in the terms the claims use. -/

namespace Sys2Proof.Machine

/-! ### Command words (R100, R101) -/

/-- The `sel` field names the bound buffer, or is 0xFF for `none` (R100). -/
def SelBinds (x : Byte) : Option Handle → Prop
  | none => x = 0xFF#8
  | some b => x.toNat = b.val

/-- The table of R101: the fields of a command word that presents an operation. -/
def Presents (w : CmdWord) : Instr → Prop
  | .rbReset b => CmdWord.op w = 0x01#8 ∧ (CmdWord.sel w).toNat = b.val
  | .rbEnq b v => CmdWord.op w = 0x02#8 ∧ (CmdWord.sel w).toNat = b.val ∧ CmdWord.imm w = v
  | .rbDeq b => CmdWord.op w = 0x03#8 ∧ (CmdWord.sel w).toNat = b.val
  | .rbSize b => CmdWord.op w = 0x04#8 ∧ (CmdWord.sel w).toNat = b.val
  | .rbEmpty b => CmdWord.op w = 0x05#8 ∧ (CmdWord.sel w).toNat = b.val
  | .rbFull b => CmdWord.op w = 0x06#8 ∧ (CmdWord.sel w).toNat = b.val
  | .semInit k n => CmdWord.op w = 0x10#8 ∧ CmdWord.sel w = k.number ∧ CmdWord.imm w = n
  | .semTry k => CmdWord.op w = 0x11#8 ∧ CmdWord.sel w = k.number
  | .semLock k => CmdWord.op w = 0x12#8 ∧ CmdWord.sel w = k.number
  | .semRel k => CmdWord.op w = 0x13#8 ∧ CmdWord.sel w = k.number
  | .rxStart h => CmdWord.op w = 0x20#8 ∧ SelBinds (CmdWord.sel w) h
  | .rxByte v => CmdWord.op w = 0x21#8 ∧ CmdWord.imm w = v
  | .rxAvail => CmdWord.op w = 0x22#8
  | .rxFully => CmdWord.op w = 0x23#8
  | .txSend h t => CmdWord.op w = 0x30#8 ∧ SelBinds (CmdWord.sel w) h ∧ CmdWord.imm w = t.tag
  | .txNext => CmdWord.op w = 0x31#8
  | .commInit => CmdWord.op w = 0x40#8
  | .blockData _ _ => False
  | .blockUnknown _ _ => False
  | .blockColdReset _ => False
  | .blockWarmReset _ => False
  | .blockBusy _ => False
  | .blockAck _ => False
  | .blockNack _ => False

/-! ### What stays the same -/

/-- The parameter, the inputs and the bookkeeping of the model. -/
abbrev SameInputs (s t : State) : Prop :=
  t.capacity = s.capacity ∧ t.host = s.host ∧ t.rxirq = s.rxirq ∧ t.txirq = s.txirq ∧ t.wireIn = s.wireIn ∧
    t.resetIn = s.resetIn ∧ t.driver = s.driver ∧ t.serving = s.serving ∧ t.served = s.served

/-- Every storage byte reads as before, through the model's read of one byte (R12). -/
abbrev SameStorage (s t : State) : Prop :=
  ∀ b i, Memory.read (t.buf b).store i = Memory.read (s.buf b).store i

/-- Every storage byte but byte `i` of buffer `b` reads as before. -/
abbrev SameStorageBut (b : Handle) (i : Nat) (s t : State) : Prop :=
  ∀ c j, (c, j) ≠ (b, i) → Memory.read (t.buf c).store j = Memory.read (s.buf c).store j

/-- The output streams are only ever appended to (R45, R76). -/
abbrev OutputsGrow (s t : State) : Prop :=
  s.events <+: t.events ∧ s.responses <+: t.responses ∧ s.wireOut <+: t.wireOut

/-- A procedure inside an engine step: it touches the contexts, the semaphores, the interrupt bits, and appends
events. -/
abbrev EngineOnly (s t : State) : Prop :=
  SameInputs s t ∧ t.rb = s.rb ∧ t.responses = s.responses ∧ t.wireOut = s.wireOut ∧ s.events <+: t.events

/-! ### Ring buffers (R42, R43) -/

/-- Both indices are in `0 .. C-1` and the size in `0 .. C` (R42). -/
abbrev RingBuffer.InRange (c : Len) (q : RingBuffer) : Prop :=
  q.readIndex.toNat < c.toNat ∧ q.writeIndex.toNat < c.toNat ∧ q.size.toNat ≤ c.toNat

/-- R42: "size == (write_index - read_index) mod C unless full, in which case size == C and indices coincide". -/
abbrev RingBuffer.Occupancy (c : Len) (q : RingBuffer) : Prop :=
  if q.size = c then q.writeIndex = q.readIndex
  else q.size.toNat = (q.writeIndex.toNat + c.toNat - q.readIndex.toNat) % c.toNat

/-- The storage is in canonical form, within `0 .. C-1`, and every occupied byte holds a value (R43). -/
abbrev RingBuffer.Stored (c : Len) (q : RingBuffer) : Prop :=
  Memory.wf q.store ∧ (∀ x ∈ q.store, x.1 < c.toNat) ∧
    ∀ k < q.size.toNat, (Memory.read q.store ((q.readIndex.toNat + k) % c.toNat)).isSome = true

/-- The ring-buffer invariant, of every buffer of the bank. -/
abbrev RingInv (s : State) : Prop :=
  ∀ b, (s.buf b).InRange s.capacity ∧ (s.buf b).Occupancy s.capacity ∧ (s.buf b).Stored s.capacity

/-- The queue content from `read_index`, oldest first. -/
def RingBuffer.contents (c : Len) (q : RingBuffer) : List (Option Byte) :=
  (List.range q.size.toNat).map fun k => Memory.read q.store ((q.readIndex.toNat + k) % c.toNat)

/-- Buffer `b` holds exactly the bytes `p`, oldest first. -/
abbrev Holds (s : State) (b : Handle) (p : List Byte) : Prop :=
  (s.buf b).contents s.capacity = p.map some

/-- The bytes bound as a source: none bound holds no byte (R144, R251, decision D19). -/
abbrev SourceHolds (s : State) (h : Option Handle) (p : List Byte) : Prop :=
  match h with
  | none => p = []
  | some b => Holds s b p

/-! ### The engines (R48) -/

/-- R48 (a), (b), (c): the locks. -/
abbrev LockInv (s : State) : Prop :=
  s.permits .rxContext = 1#8 ∧ s.permits .txContext = 1#8 ∧
    (s.permits .rxProcess = 0#8 ∨ s.permits .rxProcess = 1#8) ∧
    (s.permits .txProcess = 0#8 ∨ s.permits .txProcess = 1#8) ∧
    (s.rx.inProgress = true → s.permits .rxProcess = 0#8) ∧
    (s.tx.inProgress = true → s.permits .txProcess = 0#8)

/-- R48 (d), with what makes it inductive: nothing is received before the length is known. -/
abbrev CountInv (s : State) : Prop :=
  s.rx.received.toNat ≤ s.rx.expected.toNat ∧
    (s.rx.state ∈ [RxState.init, .ctrlByte, .lenByte1, .lenByte2, .lenByte3] → s.rx.received = 0#24)

/-- R48 (f): an awaited ACK belongs to a transmission that waits for it. -/
abbrev AwaitedAckInv (s : State) : Prop :=
  s.rx.ackExpected = true →
    s.tx.inProgress = true ∧ s.tx.done = true ∧ s.tx.state ∈ [TxState.check, .ackCtrlByte, .ackCheck]

/-- What makes R48 (f) inductive: a transmission past its main block waits for an ACK, an ACK is not both awaited and
received, `RcvdAck` is not left in progress (R246), and R39's fault bit is clear. -/
abbrev WaitInv (s : State) : Prop :=
  (s.tx.inProgress = true → s.tx.state ∈ [TxState.check, .ackCtrlByte, .ackCheck] →
      requiresAck s.tx.blockType = true) ∧
    ¬ (s.tx.ackReceived = true ∧ s.rx.ackExpected = true) ∧
    (s.tx.inProgress = true → s.tx.state ≠ .rcvdAck) ∧
    s.tx.fault = false

/-- R48 (a), (b), (c), (d), (f) together, and what makes them inductive. -/
abbrev EngineInv (s : State) : Prop := LockInv s ∧ CountInv s ∧ AwaitedAckInv s ∧ WaitInv s

/-- The four `SEM_*` operations. -/
def isSemOp : Instr → Bool
  | .semInit _ _ => true
  | .semTry _ => true
  | .semLock _ => true
  | .semRel _ => true
  | _ => false

/-- A word that presents no `SEM_*` operation. -/
def notSemWord (w : CmdWord) : Bool :=
  match decodeCmd w with
  | .ok i => !isSemOp i
  | .error _ => true

/-- R48's premise: no agent presents, or is held by, a `SEM_*` operation. -/
abbrev NoSemOps (s : State) : Prop :=
  (s.host.lock = none ∧ s.rxirq.lock = none ∧ s.txirq.lock = none) ∧
    (∀ w ∈ s.host.queue, notSemWord w = true) ∧ (∀ w ∈ s.rxirq.queue, notSemWord w = true) ∧
    (∀ w ∈ s.txirq.queue, notSemWord w = true)

/-! ### When a byte step gets past its entry (R341, R349) -/

abbrev RxReady (s : State) : Prop :=
  s.rx.inProgress = true ∧ s.rx.fault = false ∧ s.permits .rxContext ≠ 0#8

abbrev TxReady (s : State) : Prop :=
  s.tx.inProgress = true ∧ s.tx.fault = false ∧ s.permits .txContext ≠ 0#8

/-- A normal cycle that waits for its first byte (R184, R186). -/
abbrev RxNormalStart (s : State) : Prop :=
  RxReady s ∧ s.rx.state = .init ∧ ¬ (s.rx.ackExpected = true ∧ s.rx.buf = none)

/-- A dedicated cycle that waits for its first byte (R184, R186). -/
abbrev RxDedicatedStart (s : State) : Prop :=
  RxReady s ∧ s.rx.state = .init ∧ s.rx.ackExpected = true ∧ s.rx.buf = none

/-- The transmission engine's wait state (R16, R246), with no fault and its lock free. -/
abbrev TxWaiting (s : State) : Prop :=
  TxReady s ∧ s.tx.done = true ∧ (s.tx.state = .check ∨ s.tx.state = .ackCheck)

/-- A re-drive of transmission with `tx.ack_received` set takes its step (R294): the entry checks pass in a wait state. -/
abbrev TxRedriven (s : State) : Prop := TxReady s ∧ (s.tx.state = .check ∨ s.tx.state = .ackCheck)

/-- A re-drive of reception with `rx.ack_tx_done` set takes its step (R295). -/
abbrev RxRedriven (s : State) : Prop := RxReady s ∧ (s.rx.state = .check ∨ s.rx.state = .ackCheck)

/-- The storage byte an `RX_BYTE` stores to, if it stores one (R189): index `write_index` of the bound buffer. -/
def rxByteStores (s : State) : Option (Handle × Nat) :=
  if RxReady s ∧ rxNext s.rx = some .data then
    match s.rx.buf with
    | none => none
    | some b => if (s.buf b).size = s.capacity then none else some (b, (s.buf b).writeIndex.toNat)
  else none

/-- The events of an ended reception cycle whose main block is of type `t` (R201). -/
def endOfReception (seen : Bool) (t : BlockType) : List Event :=
  (if seen then [.ackReceivedByPeer] else []) ++
  (match t with
    | .data => [.dataReceived]
    | .coldReset => [.coldResetReceived]
    | .warmReset => [.warmResetReceived]
    | .unknown => [.unknownReceived]
    | .busy => []
    | .ack => []
    | .nack => []) ++
  [.blockReceived, .rxIrqDisable]

/-! ### Runs of one operation -/

/-- An outcome with the two interrupt-enable bits forgotten (R335). -/
def withoutIrq : Host.Outcome State Fault Refusal → Host.Outcome State Fault Refusal
  | .next t => .next { t with irq := Irq.reset }
  | .fault e => .fault e
  | .refused r => .refused r

/-- `FEED` (R131): `RX_BYTE` of each byte, in order. -/
def feed : List Byte → State → Host.Outcome State Fault Refusal
  | [], s => .next s
  | v :: l, s =>
    match exec (.rxByte v) s with
    | .next t => feed l t
    | .fault e => .fault e
    | .refused r => .refused r

/-- `PUMP n` (R131): `TX_NEXT`, `n` times. -/
def pump : Nat → State → Host.Outcome State Fault Refusal
  | 0, s => .next s
  | n + 1, s =>
    match exec .txNext s with
    | .next t => pump n t
    | .fault e => .fault e
    | .refused r => .refused r

/-- A history of one buffer: `some v` is `RB_ENQ b, v`, `none` is `RB_DEQ b`. The answer is the last state, the bytes of
the enqueues that were answered `Ok` and the bytes returned by the dequeues that were, each in order; none if a step
did not answer a next state. -/
def ringRun (b : Handle) : List (Option Byte) → State → Option (State × List Byte × List Byte)
  | [], s => some (s, [], [])
  | some v :: l, s =>
    match exec (.rbEnq b v) s with
    | .next t => (ringRun b l t).map fun r =>
        if t.responses = s.responses ++ [(s.serving, ⟨.ok, 0#24⟩)] then (r.1, v :: r.2.1, r.2.2) else r
    | _ => none
  | none :: l, s =>
    match exec (.rbDeq b) s with
    | .next t => (ringRun b l t).map fun r =>
        match t.responses.getLast? with
        | some (_, ⟨.ok, w⟩) => (r.1, r.2.1, w.setWidth 8 :: r.2.2)
        | _ => r
    | _ => none

end Sys2Proof.Machine
end

