-- ==== Sys2Proof/Certificates/Slice0/Obligations.lean ====
section
/-! DEFINITION. The statements about the model, one per entry of OBLIGATIONS.json. -/

open Sys2Proof Sys2Proof.Machine

/-! ### Encodings (30_encoding.md, 45_framing_codec.md) -/

/-- R100, R111: decoding the encoding of a well-formed instruction gives it back, with every operand. -/
def Obligations.DecodeEncodeRoundTrip : Prop :=
  ∀ i : Instr, WellFormed i = true → decode (encode i) = some i

/-- Words written out from R100, R101, R104, R110 and R111 decode to what they stand for; the two fields of the response
word (R103), the status codes (R120) and the event codes (R125), row by row. -/
def Obligations.WrittenOutWordsDecode : Prop :=
  decodeCmd 0x0201FF#24 = .ok (.rbEnq 1 0xFF#8) ∧
  decodeCmd 0x110300#24 = .ok (.semTry .txProcess) ∧
  decodeCmd 0x20FF00#24 = .ok (.rxStart none) ∧
  decodeCmd 0x2100A1#24 = .ok (.rxByte 0xA1#8) ∧
  decodeCmd 0x30FF04#24 = .ok (.txSend none .busy) ∧
  decodeCmd 0x31ABCD#24 = .ok .txNext ∧
  decodeCmd 0x400000#24 = .ok .commInit ∧
  decodeCmd 0x070000#24 = .error .reservedOp ∧
  decodeCmd 0x03FF00#24 = .error .noSuchBuffer ∧
  decode (.wire [0x00#8, 0x00#8, 0x00#8, 0x02#8, 0xAB#8, 0xCD#8, 0x7F#8]) =
    some (.blockData [0xAB#8, 0xCD#8] 0x7F#8) ∧
  decode (.wire [0x05#8, 0xFF#8]) = some (.blockAck 0xFF#8) ∧
  decode (.wire [0x5A#8, 0x77#8]) = some (.blockUnknown 0x5A#8 0x77#8) ∧
  (∀ (st : Status) (v : Len),
    (Response.word ⟨st, v⟩).extractLsb' 24 8 = st.code ∧ (Response.word ⟨st, v⟩).extractLsb' 0 24 = v) ∧
  (Status.code .ok = 0x00#8 ∧ Status.code .started = 0x01#8 ∧ Status.code .busy = 0x02#8 ∧
    Status.code .error = 0x03#8 ∧ Status.code .full = 0x04#8 ∧ Status.code .empty = 0x05#8 ∧
    Status.code .illegal = 0x06#8) ∧
  (Event.code .rxIrqEnable = 0x01#8 ∧ Event.code .rxIrqDisable = 0x02#8 ∧ Event.code .txIrqEnable = 0x03#8 ∧
    Event.code .txIrqDisable = 0x04#8 ∧ Event.code .dataReceived = 0x10#8 ∧ Event.code .coldResetReceived = 0x11#8 ∧
    Event.code .warmResetReceived = 0x12#8 ∧ Event.code .unknownReceived = 0x13#8 ∧
    Event.code .blockReceived = 0x14#8 ∧ Event.code .blockSent = 0x15#8 ∧
    Event.code .ackReceivedByPeer = 0x16#8 ∧ Event.code .waitHook = 0x20#8)

/-- R101 with R100: which operation, with which operands, each command word presents; a field the operation does not
use takes no part. -/
def Obligations.CommandWordFields : Prop :=
  ∀ (w : CmdWord) (i : Instr), decodeCmd w = .ok i ↔ Presents w i

/-- R104: which command words are illegal, and that one changes no state, emits no event, and is answered `Illegal`
with value 0. -/
def Obligations.IllegalCommandWords : Prop :=
  ∀ w : CmdWord,
    ((∃ e, decodeCmd w = .error e) ↔
      CmdWord.op w ∉ [0x01#8, 0x02#8, 0x03#8, 0x04#8, 0x05#8, 0x06#8, 0x10#8, 0x11#8, 0x12#8, 0x13#8,
        0x20#8, 0x21#8, 0x22#8, 0x23#8, 0x30#8, 0x31#8, 0x40#8] ∨
      (CmdWord.op w ∈ [0x01#8, 0x02#8, 0x03#8, 0x04#8, 0x05#8, 0x06#8] ∧ Config.rbCount ≤ (CmdWord.sel w).toNat) ∨
      (CmdWord.op w ∈ [0x20#8, 0x30#8] ∧ Config.rbCount ≤ (CmdWord.sel w).toNat ∧ CmdWord.sel w ≠ 0xFF#8) ∨
      (CmdWord.op w ∈ [0x10#8, 0x11#8, 0x12#8, 0x13#8] ∧ 3 < (CmdWord.sel w).toNat) ∨
      (CmdWord.op w = 0x30#8 ∧ 0x06 < (CmdWord.imm w).toNat)) ∧
    ∀ s : State, (∃ e, decodeCmd w = .error e) →
      (∀ (a : Agent) (r : Requester) (ws : List CmdWord),
        (a = .host ∧ r = .host ∨ a = .rxirq ∧ r = .rxirq ∨ a = .txirq ∧ r = .txirq) → s.resetIn = .low →
        waiting s = [r] → s.port a = ⟨w :: ws, none⟩ →
        step s = .next { s.setPort a ⟨ws, none⟩ with
          serving := a, served := s.served + 1
          responses := s.responses ++ [(a, ⟨.illegal, 0#24⟩)] }) ∧
      step (presentOnly (.command w) s) =
        .next { s with
          resetIn := .low, host := ⟨[], none⟩, rxirq := ⟨[], none⟩, txirq := ⟨[], none⟩, wireIn := []
          serving := .host, served := s.served + 1
          responses := s.responses ++ [(.host, ⟨.illegal, 0#24⟩)] }

/-- R312: the round-trip law of the framing functions, both ways. -/
def Obligations.FramingRoundTrip : Prop :=
  (∀ (t : BlockType) (p r : List Byte), p.length ≤ 2 ^ 24 - 1 →
    ∃ f, decodeFrame (encodeFrame t p ++ r) = some (f, r) ∧ f.blockType = t ∧
      f.payload = if t = .data then p else []) ∧
  (∀ (bytes rest : List Byte) (f : Frame), decodeFrame bytes = some (f, rest) →
    ∃ mid, bytes = f.control :: mid ++ [f.check] ++ rest ∧
      encodeFrame f.blockType f.payload =
        (if 0x07 ≤ f.control.toNat then 0x01#8 else f.control) :: mid ++ [0x00#8])

/-- R92: the three length bytes and the 24-bit length determine each other. -/
def Obligations.LengthBytesAreInverse : Prop :=
  (∀ n : Len, lenOfBytes (len1 n) (len2 n) (len3 n) = n) ∧
  (∀ a b c : Byte, len1 (lenOfBytes a b c) = a ∧ len2 (lenOfBytes a b c) = b ∧ len3 (lenOfBytes a b c) = c) ∧
  (∀ a b c : Byte, (lenOfBytes a b c).toNat = a.toNat * 2 ^ 16 + b.toNat * 2 ^ 8 + c.toNat)

/-! ### Ring buffers (40_ringbuffer.md) -/

/-- R141. -/
def Obligations.RbResetEffect : Prop :=
  ∀ (b : Handle) (s : State),
    encode (.rbReset b) = .command (0x01#8 ++ BitVec.ofNat 8 b.val ++ 0x00#8) ∧ ∃ t, exec (.rbReset b) s = .next t ∧
    t.buf b = { s.buf b with size := 0#24, readIndex := 0#24, writeIndex := 0#24 } ∧
    (∀ c, c ≠ b → t.buf c = s.buf c) ∧
    t = { s with rb := t.rb, responses := s.responses ++ [(s.serving, ⟨.ok, 0#24⟩)] }

/-- R142, with the storage byte it stores to: index `write_index` of buffer `b`. -/
def Obligations.RbEnqEffect : Prop :=
  ∀ (b : Handle) (v : Byte) (s : State), 0 < s.capacity.toNat →
    encode (.rbEnq b v) = .command (0x02#8 ++ BitVec.ofNat 8 b.val ++ v) ∧
    ((s.buf b).size = s.capacity →
      exec (.rbEnq b v) s = .next { s with responses := s.responses ++ [(s.serving, ⟨.full, 0#24⟩)] }) ∧
    ((s.buf b).size ≠ s.capacity → ∃ t, exec (.rbEnq b v) s = .next t ∧
      (t.buf b).size = (s.buf b).size + 1#24 ∧
      (t.buf b).writeIndex.toNat = ((s.buf b).writeIndex.toNat + 1) % s.capacity.toNat ∧
      (t.buf b).readIndex = (s.buf b).readIndex ∧
      Memory.read (t.buf b).store (s.buf b).writeIndex.toNat = some v ∧
      SameStorageBut b (s.buf b).writeIndex.toNat s t ∧
      (∀ c, c ≠ b → t.buf c = s.buf c) ∧
      t = { s with rb := t.rb, responses := s.responses ++ [(s.serving, ⟨.ok, 0#24⟩)] })

/-- R143. -/
def Obligations.RbDeqEffect : Prop :=
  ∀ (b : Handle) (s : State), 0 < s.capacity.toNat →
    encode (.rbDeq b) = .command (0x03#8 ++ BitVec.ofNat 8 b.val ++ 0x00#8) ∧
    ((s.buf b).size = 0#24 →
      exec (.rbDeq b) s = .next { s with responses := s.responses ++ [(s.serving, ⟨.empty, 0#24⟩)] }) ∧
    (∀ v, (s.buf b).size ≠ 0#24 → Memory.read (s.buf b).store (s.buf b).readIndex.toNat = some v →
      ∃ t, exec (.rbDeq b) s = .next t ∧
        (t.buf b).size = (s.buf b).size - 1#24 ∧
        (t.buf b).readIndex.toNat = ((s.buf b).readIndex.toNat + 1) % s.capacity.toNat ∧
        (t.buf b).writeIndex = (s.buf b).writeIndex ∧
        (t.buf b).store = (s.buf b).store ∧
        (∀ c, c ≠ b → t.buf c = s.buf c) ∧
        t = { s with rb := t.rb, responses := s.responses ++ [(s.serving, ⟨.ok, v.setWidth 24⟩)] })

/-- Log 4 (DEDUCED from R43): `RB_DEQ` stops exactly where the oldest byte's storage holds no value. -/
def Obligations.DequeueOfUnwrittenByteStops : Prop :=
  ∀ (b : Handle) (s : State),
    exec (.rbDeq b) s = .fault .unwrittenStorage ↔
      (s.buf b).size ≠ 0#24 ∧ Memory.read (s.buf b).store (s.buf b).readIndex.toNat = none

/-- R144, R145, R146. -/
def Obligations.RbQueryEffects : Prop :=
  (∀ s : State, rbSize none s = 0#24) ∧
  ∀ (b : Handle) (s : State),
    encode (.rbSize b) = .command (0x04#8 ++ BitVec.ofNat 8 b.val ++ 0x00#8) ∧
    encode (.rbEmpty b) = .command (0x05#8 ++ BitVec.ofNat 8 b.val ++ 0x00#8) ∧
    encode (.rbFull b) = .command (0x06#8 ++ BitVec.ofNat 8 b.val ++ 0x00#8) ∧
    exec (.rbSize b) s = .next { s with responses := s.responses ++ [(s.serving, ⟨.ok, (s.buf b).size⟩)] } ∧
    exec (.rbEmpty b) s = .next { s with responses := s.responses ++
      [(s.serving, ⟨.ok, if (s.buf b).size = 0#24 then 1#24 else 0#24⟩)] } ∧
    exec (.rbFull b) s = .next { s with responses := s.responses ++
      [(s.serving, ⟨.ok, if (s.buf b).size = s.capacity then 1#24 else 0#24⟩)] }

/-- R147: from an empty buffer, the dequeues that succeed return the bytes of the enqueues that succeeded, in order,
and the size is the difference. -/
def Obligations.FifoLaw : Prop :=
  ∀ (b : Handle) (s : State) (l : List (Option Byte)), RingInv s → (s.buf b).size = 0#24 →
    ∃ u ins outs, ringRun b l s = some (u, ins, outs) ∧ RingInv u ∧
      outs <+: ins ∧ (u.buf b).size.toNat = ins.length - outs.length ∧ Holds u b (ins.drop outs.length)

/-! ### Semaphores (41_semaphore.md) -/

/-- R161, R162, R164: nothing else changes. -/
def Obligations.SemaphoreEffects : Prop :=
  ∀ (k : SemId) (s : State),
    (∀ n, encode (.semInit k n) = .command (0x10#8 ++ k.number ++ n)) ∧
    encode (.semTry k) = .command (0x11#8 ++ k.number ++ 0x00#8) ∧
    encode (.semRel k) = .command (0x13#8 ++ k.number ++ 0x00#8) ∧
    (∀ n, exec (.semInit k n) s = .next ((s.setPermits k n).respond .ok 0#24)) ∧
    (s.permits k = 0#8 → exec (.semTry k) s = .next (s.respond .ok 1#24)) ∧
    (s.permits k ≠ 0#8 → exec (.semTry k) s = .next ((s.setPermits k (s.permits k - 1#8)).respond .ok 0#24)) ∧
    ((s.permits k).toNat < 255 → exec (.semRel k) s = .next ((s.setPermits k (s.permits k + 1#8)).respond .ok 0#24)) ∧
    (s.permits k = 255#8 → exec (.semRel k) s = .next (s.respond .ok 0#24))

/-- R163: an attempt completes, or emits `WAIT_HOOK` and leaves the operation pending at its agent's port; while it is
pending the agent presents nothing else, and its next service is another attempt. -/
def Obligations.SemLockAttempts : Prop :=
  ∀ (k : SemId) (s : State),
    (s.permits k ≠ 0#8 → exec (.semLock k) s = .next
      (((s.setPermits k (s.permits k - 1#8)).setPort s.serving { s.port s.serving with lock := none }).respond .ok 0#24)) ∧
    (s.permits k = 0#8 → exec (.semLock k) s = .next
      ((s.setPort s.serving { s.port s.serving with lock := some k }).emit .waitHook)) ∧
    (∀ a, (s.port a).lock = some k →
      servePort a s = some (.ok (.semLock k), { s with serving := a, served := s.served + 1 }) ∧
      (a = .rxirq → Requester.channel ∉ waiting s))

/-! ### Tables of the engines -/

/-- The control bytes of R110 and the semaphore numbers of R40, then R186, R246 and R291, all row by row. -/
def Obligations.EngineTables : Prop :=
  (BlockType.tag .data = 0x00#8 ∧ BlockType.tag .unknown = 0x01#8 ∧ BlockType.tag .coldReset = 0x02#8 ∧
    BlockType.tag .warmReset = 0x03#8 ∧ BlockType.tag .busy = 0x04#8 ∧ BlockType.tag .ack = 0x05#8 ∧
    BlockType.tag .nack = 0x06#8) ∧
  (SemId.number .rxContext = 0#8 ∧ SemId.number .rxProcess = 1#8 ∧ SemId.number .txContext = 2#8 ∧
    SemId.number .txProcess = 3#8) ∧
  (∀ t : BlockType, requiresAck t = true ↔ t = .data ∨ t = .coldReset ∨ t = .warmReset) ∧
  (∀ r : RxContext,
    (r.state = .init → rxNext r = some (if r.ackExpected = true ∧ r.buf = none then .ackCtrlByte else .ctrlByte)) ∧
    (r.state = .ctrlByte → rxNext r = some (if r.blockType = .data then .lenByte1 else .check)) ∧
    (r.state = .lenByte1 → rxNext r = some .lenByte2) ∧
    (r.state = .lenByte2 → rxNext r = some .lenByte3) ∧
    (r.state = .lenByte3 → rxNext r = some (if r.expected = 0#24 then .check else .data)) ∧
    (r.state = .data → rxNext r = some (if r.received.toNat < r.expected.toNat then .data else .check)) ∧
    (r.state = .check → rxNext r =
      if r.ackTxDone = true then some .transmittedAck else if r.ackExpected = true then some .ackCtrlByte else none) ∧
    (r.state = .ackCtrlByte → rxNext r = some .ackCheck) ∧
    (r.state = .ackCheck → rxNext r = if r.ackTxDone = true then some .transmittedAck else none) ∧
    (r.state = .transmittedAck → rxNext r = none)) ∧
  ∀ (t : TxContext) (occ : Len),
    (t.state = .init → txNext t occ = .goto .ctrlByte) ∧
    (t.state = .ctrlByte → txNext t occ = .goto (if t.blockType = .data then .lenByte1 else .check)) ∧
    (t.state = .lenByte1 → txNext t occ = .goto .lenByte2) ∧
    (t.state = .lenByte2 → txNext t occ = .goto .lenByte3) ∧
    (t.state = .lenByte3 ∨ t.state = .data → txNext t occ = .goto (if 0 < occ.toNat then .data else .check)) ∧
    (t.state = .check ∨ t.state = .ackCheck → txNext t occ =
      if t.ackReceived = true then .goto .rcvdAck else if t.ackExpected = true then .goto .ackCtrlByte else .stay) ∧
    (t.state = .ackCtrlByte → txNext t occ = .goto .ackCheck) ∧
    (t.state = .rcvdAck → txNext t occ = .none)

/-! ### Starting a cycle, and the entry of a byte step -/

/-- R181. -/
def Obligations.RxStartEffect : Prop :=
  ∀ (h : Option Handle) (s : State),
    encode (.rxStart h) = .command (0x20#8 ++ h.elim 0xFF#8 (fun b => BitVec.ofNat 8 b.val) ++ 0x00#8) ∧
    (s.permits .rxProcess = 0#8 →
      exec (.rxStart h) s = .next { s with responses := s.responses ++ [(s.serving, ⟨.busy, 0#24⟩)] }) ∧
    (s.permits .rxProcess ≠ 0#8 →
      exec (.rxStart h) s = .next
        { s with
          sem := { s.sem with rxProcess := s.sem.rxProcess - 1#8 }
          rx := { s.rx with state := .init, expected := 0#24, received := 0#24, buf := h, inProgress := true,
                            ackSeen := false }
          irq := { s.irq with rxEn := true }
          events := s.events ++ [.rxIrqEnable]
          responses := s.responses ++ [(s.serving, ⟨.started, 0#24⟩)] })

/-- R241. -/
def Obligations.TxSendEffect : Prop :=
  ∀ (h : Option Handle) (t : BlockType) (s : State),
    encode (.txSend h t) = .command (0x30#8 ++ h.elim 0xFF#8 (fun b => BitVec.ofNat 8 b.val) ++ t.tag) ∧
    (s.permits .txProcess = 0#8 →
      exec (.txSend h t) s = .next { s with responses := s.responses ++ [(s.serving, ⟨.busy, 0#24⟩)] }) ∧
    (s.permits .txProcess ≠ 0#8 →
      exec (.txSend h t) s = .next
        { s with
          sem := { s.sem with txProcess := s.sem.txProcess - 1#8 }
          tx := { s.tx with done := false, inProgress := true, buf := h, blockType := t, state := .init,
                            ackReceived := false }
          irq := { s.irq with txEn := true }
          events := s.events ++ [.txIrqEnable]
          responses := s.responses ++ [(s.serving, ⟨.started, 0#24⟩)] })

/-- R341: the order of the checks of a byte step; none of these results changes anything (R340 E1, E2, E6, E7, `Busy`). -/
def Obligations.ByteStepEntryPriority : Prop :=
  ∀ (v : Byte) (s : State),
    (s.rx.inProgress = false → exec (.rxByte v) s = .next (s.respond .error 0#24)) ∧
    (s.rx.inProgress = true → s.rx.fault = true → exec (.rxByte v) s = .next (s.respond .error 0#24)) ∧
    (s.rx.inProgress = true → s.rx.fault = false → s.permits .rxContext = 0#8 →
      exec (.rxByte v) s = .next (s.respond .busy 0#24)) ∧
    (s.tx.inProgress = false → exec .txNext s = .next (s.respond .error 0#24)) ∧
    (s.tx.inProgress = true → s.tx.fault = true → exec .txNext s = .next (s.respond .error 0#24)) ∧
    (s.tx.inProgress = true → s.tx.fault = false → s.permits .txContext = 0#8 →
      exec .txNext s = .next (s.respond .busy 0#24))

/-! ### Reception (42_reception.md) -/

/-- R187. -/
def Obligations.RxControlByteEffect : Prop :=
  ∀ (v : Byte) (ty : BlockType) (s : State), RxNormalStart s →
    (v.toNat ≤ 0x06 ∧ v = ty.tag ∨ 0x07 ≤ v.toNat ∧ ty = .unknown) →
    ∃ t, exec (.rxByte v) s = .next t ∧
      (∀ b, ty = .data → s.rx.buf = some b →
        t.buf b = { s.buf b with size := 0#24, readIndex := 0#24, writeIndex := 0#24 } ∧
        ∀ c, c ≠ b → t.buf c = s.buf c) ∧
      (ty ≠ .data ∨ s.rx.buf = none → t.rb = s.rb) ∧
      t = { s with
        rx := { s.rx with state := .ctrlByte, blockType := ty }
        rb := t.rb
        responses := s.responses ++ [(s.serving, ⟨.ok, 0#24⟩)] }

/-- R188: each length byte, and the three of them in order, most significant first. -/
def Obligations.RxLengthBytesEffect : Prop :=
  (∀ (v : Byte) (s : State), RxReady s →
    let sets (st : RxState) (n : Len) : Prop := exec (.rxByte v) s = .next
      { s with
        rx := { s.rx with state := st, expected := n }
        responses := s.responses ++ [(s.serving, ⟨.ok, 0#24⟩)] }
    (s.rx.state = .ctrlByte → s.rx.blockType = .data → sets .lenByte1 (v.setWidth 24 <<< 16)) ∧
    (s.rx.state = .lenByte1 → sets .lenByte2 (s.rx.expected ||| (v.setWidth 24 <<< 8))) ∧
    (s.rx.state = .lenByte2 → sets .lenByte3 (s.rx.expected ||| v.setWidth 24))) ∧
  ∀ (a b c : Byte) (s : State), RxReady s → s.rx.state = .ctrlByte → s.rx.blockType = .data →
    ∃ n : Len, n.toNat = a.toNat * 2 ^ 16 + b.toNat * 2 ^ 8 + c.toNat ∧
      feed [a, b, c] s = .next
        { s with
          rx := { s.rx with state := .lenByte3, expected := n }
          responses := s.responses ++ List.replicate 3 (s.serving, ⟨.ok, 0#24⟩) }

/-- R189. -/
def Obligations.RxDataByteEffect : Prop :=
  ∀ (v : Byte) (s : State), RxReady s → rxNext s.rx = some .data →
    (s.rx.buf = none → exec (.rxByte v) s = .next
      { s with
        rx := { s.rx with state := .data, received := s.rx.received + 1#24 }
        responses := s.responses ++ [(s.serving, ⟨.ok, 0#24⟩)] }) ∧
    (∀ b, s.rx.buf = some b → (s.buf b).size ≠ s.capacity → exec (.rxByte v) s = .next
      { s.setBuf b
          { size := (s.buf b).size + 1#24
            readIndex := (s.buf b).readIndex
            writeIndex := nextIndex s.capacity (s.buf b).writeIndex
            store := Memory.write (s.buf b).store (s.buf b).writeIndex.toNat v } with
        rx := { s.rx with state := .data, received := s.rx.received + 1#24 }
        responses := s.responses ++ [(s.serving, ⟨.ok, 0#24⟩)] }) ∧
    (∀ b, s.rx.buf = some b → (s.buf b).size = s.capacity → exec (.rxByte v) s = .next
      { s with
        rx := { s.rx with state := .data, fault := true }
        responses := s.responses ++ [(s.serving, ⟨.error, 0#24⟩)] })

/-- R192, from `Init` (dedicated cycle) and from `Check` (in-cycle ACK). -/
def Obligations.RxAckControlByteEffect : Prop :=
  ∀ (v : Byte) (s : State), RxReady s → rxNext s.rx = some .ackCtrlByte →
    (v ≠ 0x05#8 → exec (.rxByte v) s = .next
      { s with
        rx := { s.rx with state := .ackCtrlByte, fault := true }
        responses := s.responses ++ [(s.serving, ⟨.error, 0#24⟩)] }) ∧
    (v = 0x05#8 → exec (.rxByte v) s = .next
      { s with
        rx := { s.rx with state := .ackCtrlByte, blockType := if s.rx.state = .init then .ack else s.rx.blockType }
        responses := s.responses ++ [(s.serving, ⟨.ok, 0#24⟩)] })

/-- R342, R340 E3 and E8: a byte step of either engine with no next state is an error that stays. -/
def Obligations.RxNoNextStateIsFatal : Prop :=
  (∀ (v : Byte) (s : State), RxReady s → rxNext s.rx = none →
    exec (.rxByte v) s = .next
      { s with
        rx := { s.rx with fault := true }
        responses := s.responses ++ [(s.serving, ⟨.error, 0#24⟩)] }) ∧
  ∀ s : State, TxReady s → txNext s.tx (rbSize s.tx.buf s) = .none →
    exec .txNext s = .next
      { s with
        tx := { s.tx with fault := true }
        responses := s.responses ++ [(s.serving, ⟨.error, 0#24⟩)] }

/-- R190 second branch, R200, R201: a block that needs no reply ends its cycle. -/
def Obligations.RxCheckEndsCycle : Prop :=
  ∀ (v : Byte) (s : State), RxReady s → rxNext s.rx = some .check → requiresAck s.rx.blockType = false →
    s.rx.ackExpected = false → s.permits .rxProcess = 0#8 →
    exec (.rxByte v) s = .next
      { s with
        rx := { s.rx with state := .check, inProgress := false }
        sem := { s.sem with rxProcess := 1#8 }
        irq := { s.irq with rxEn := false }
        events := s.events ++ endOfReception s.rx.ackSeen s.rx.blockType
        responses := s.responses ++ [(s.serving, ⟨.ok, 0#24⟩)] }

/-- R202: a cycle that ends while an ACK is still awaited starts again with the same buffer: a block that needs no reply
ends in `Check`, a block whose reply has been sent in `TransmittedAck`. (The end by a re-drive, which takes no byte, is in
`OwedAckEndsBothCycles` and `TxInCycleAckCheckByte`.) -/
def Obligations.RxEndRestartsWhileAckAwaited : Prop :=
  ∀ (v : Byte) (s : State), RxReady s → s.rx.ackExpected = true → s.permits .rxProcess = 0#8 →
    let restarts (txDone : Bool) : Prop := exec (.rxByte v) s = .next
      { s with
        rx := { s.rx with state := .init, inProgress := true, expected := 0#24, received := 0#24, ackSeen := false,
                          ackTxDone := txDone }
        irq := { s.irq with rxEn := true }
        events := s.events ++ endOfReception s.rx.ackSeen s.rx.blockType ++ [.rxIrqEnable]
        responses := s.responses ++ [(s.serving, ⟨.ok, 0#24⟩)] }
    (rxNext s.rx = some .check → requiresAck s.rx.blockType = false → s.rx.blockType ≠ .ack →
      restarts s.rx.ackTxDone) ∧
    (rxNext s.rx = some .transmittedAck → restarts false)

/-- R190 third branch: an ACK is owed, its transmission is tried, and the cycle waits in `Check`. -/
def Obligations.RxCheckOwesAck : Prop :=
  ∀ (v : Byte) (s : State), RxReady s → rxNext s.rx = some .check → requiresAck s.rx.blockType = true →
    (s.permits .txProcess = 0#8 → exec (.rxByte v) s = .next
      { s with
        rx := { s.rx with state := .check }
        tx := { s.tx with ackExpected := true }
        responses := s.responses ++ [(s.serving, ⟨.ok, 0#24⟩)] }) ∧
    (s.permits .txProcess ≠ 0#8 → exec (.rxByte v) s = .next
      { s with
        rx := { s.rx with state := .check }
        tx := { s.tx with ackExpected := true, done := false, inProgress := true, buf := none, blockType := .ack,
                          state := .init, ackReceived := false }
        sem := { s.sem with txProcess := s.sem.txProcess - 1#8 }
        irq := { s.irq with txEn := true }
        events := s.events ++ [.txIrqEnable]
        responses := s.responses ++ [(s.serving, ⟨.ok, 0#24⟩)] })

/-- R190 first branch and R193 last branch with R292 and R294: the awaited `Ack` ends its own reception and, where no ACK
is owed, the transmission it re-drives, whether it came as a main block or in a dedicated cycle. As a main block, in every
other case too: a re-driven transmission that owes an ACK starts it at once, and a transmission that cannot be re-driven
keeps its flag (R398). -/
def Obligations.AwaitedAckEndsBothCycles : Prop :=
  ∀ (v : Byte) (s : State), RxReady s → s.rx.ackExpected = true → s.rx.blockType = .ack → s.permits .rxProcess = 0#8 →
    let ended : RxContext :=
      { s.rx with state := if s.rx.state = .ackCtrlByte then .ackCheck else .check, ackExpected := false,
                  ackSeen := true, inProgress := false }
    let ok : List (Agent × Response) := s.responses ++ [(s.serving, ⟨.ok, 0#24⟩)]
    ((rxNext s.rx = some .check ∨ rxNext s.rx = some .ackCheck ∧ s.rx.ackTxDone = false) →
      TxRedriven s → s.tx.ackExpected = false → s.permits .txProcess = 0#8 → exec (.rxByte v) s = .next
      { s with
        rx := ended
        tx := { s.tx with state := .rcvdAck, ackReceived := true, inProgress := false, done := true }
        sem := { s.sem with rxProcess := 1#8, txProcess := 1#8 }
        irq := ⟨false, false⟩
        events := s.events ++ [.blockSent, .txIrqDisable, .ackReceivedByPeer, .blockReceived, .rxIrqDisable]
        responses := ok }) ∧
    (rxNext s.rx = some .check → TxRedriven s → s.tx.ackExpected = true → s.permits .txProcess = 0#8 →
      exec (.rxByte v) s = .next
      { s with
        rx := ended
        tx := { s.tx with state := .init, buf := none, blockType := .ack, inProgress := true, done := false,
                          ackReceived := false }
        sem := { s.sem with rxProcess := 1#8 }
        irq := ⟨false, true⟩
        events := s.events ++ [.blockSent, .txIrqEnable, .ackReceivedByPeer, .blockReceived, .rxIrqDisable]
        responses := ok }) ∧
    (rxNext s.rx = some .check → ¬ TxRedriven s → exec (.rxByte v) s = .next
      { s with
        rx := ended
        tx := { s.tx with ackReceived := true }
        sem := { s.sem with rxProcess := 1#8 }
        irq := { s.irq with rxEn := false }
        events := s.events ++ [.ackReceivedByPeer, .blockReceived, .rxIrqDisable]
        responses := ok })

/-- R193 with R292, R294, R301: the byte that completes an `Ack` in `AckCheck`, in every case. The transmission is
re-driven, which ends it and starts an owed `Ack`, or is not, which leaves it its flag; the reception waits for the `Ack`
that is still owed, or ends. -/
def Obligations.InCycleAckFlushesOwedAck : Prop :=
  ∀ (v : Byte) (s : State), RxReady s → s.rx.state = .ackCtrlByte → s.permits .rxProcess = 0#8 →
    s.permits .txProcess = 0#8 →
    let waits : Prop := s.rx.ackTxDone = false ∧ requiresAck s.rx.blockType = true ∧ s.tx.ackExpected = true
    let taken : RxContext := { s.rx with state := .ackCheck, ackExpected := false, ackSeen := true }
    let ended : RxContext := { taken with ackTxDone := false, inProgress := false }
    let owedAck : TxContext :=
      { s.tx with state := .init, buf := none, blockType := .ack, inProgress := true, done := false,
                  ackReceived := false }
    let ok : List (Agent × Response) := s.responses ++ [(s.serving, ⟨.ok, 0#24⟩)]
    (TxRedriven s → waits → exec (.rxByte v) s = .next
      { s with
        rx := taken
        tx := owedAck
        irq := { s.irq with txEn := true }
        events := s.events ++ [.blockSent, .txIrqEnable]
        responses := ok }) ∧
    (¬ TxRedriven s → waits → exec (.rxByte v) s = .next
      { s with rx := taken, tx := { s.tx with ackReceived := true }, responses := ok }) ∧
    (¬ TxRedriven s → ¬ waits → exec (.rxByte v) s = .next
      { s with
        rx := ended
        tx := { s.tx with ackReceived := true }
        sem := { s.sem with rxProcess := 1#8 }
        irq := { s.irq with rxEn := false }
        events := s.events ++ endOfReception true s.rx.blockType
        responses := ok }) ∧
    (TxRedriven s → ¬ waits → s.tx.ackExpected = false → exec (.rxByte v) s = .next
      { s with
        rx := ended
        tx := { s.tx with state := .rcvdAck, ackReceived := true, inProgress := false, done := true }
        sem := { s.sem with rxProcess := 1#8, txProcess := 1#8 }
        irq := ⟨false, false⟩
        events := s.events ++ [.blockSent, .txIrqDisable] ++ endOfReception true s.rx.blockType
        responses := ok }) ∧
    (TxRedriven s → ¬ waits → s.tx.ackExpected = true → exec (.rxByte v) s = .next
      { s with
        rx := ended
        tx := owedAck
        sem := { s.sem with rxProcess := 1#8 }
        irq := ⟨false, true⟩
        events := s.events ++ [.blockSent, .txIrqEnable] ++ endOfReception true s.rx.blockType
        responses := ok })

/-- R195, R399: a byte that finds the owed `Ack` already sent is swallowed and ends the cycle. -/
def Obligations.TransmittedAckEndsCycle : Prop :=
  ∀ (v : Byte) (s : State), RxReady s → rxNext s.rx = some .transmittedAck → s.rx.ackExpected = false →
    s.permits .rxProcess = 0#8 →
    exec (.rxByte v) s = .next
      { s with
        rx := { s.rx with state := .transmittedAck, ackTxDone := false, inProgress := false }
        sem := { s.sem with rxProcess := 1#8 }
        irq := { s.irq with rxEn := false }
        events := s.events ++ endOfReception s.rx.ackSeen s.rx.blockType
        responses := s.responses ++ [(s.serving, ⟨.ok, 0#24⟩)] }

/-- R194, R114: the check byte takes part in nothing. -/
def Obligations.CheckByteIsNotExamined : Prop :=
  ∀ (v w : Byte) (s : State),
    (rxNext s.rx = some .check ∨ rxNext s.rx = some .ackCheck) → exec (.rxByte v) s = exec (.rxByte w) s

/-- R203, R204. -/
def Obligations.RxQueryEffects : Prop :=
  encode .rxAvail = .command 0x220000#24 ∧ encode .rxFully = .command 0x230000#24 ∧
  ∀ s : State,
    exec .rxAvail s = .next { s with responses := s.responses ++
      [(s.serving, ⟨.ok, if s.rx.blockType = .data ∧ s.rx.buf ≠ none ∧ 0 < (rbSize s.rx.buf s).toNat
        then 1#24 else 0#24⟩)] } ∧
    exec .rxFully s = .next { s with responses := s.responses ++
      [(s.serving, ⟨.ok, if s.rx.inProgress = false ∧ s.rx.blockType = .data ∧ s.rx.received = s.rx.expected
        then 1#24 else 0#24⟩)] }

/-! ### Transmission (43_transmission.md) -/

/-- R250 to R253: the control byte and the three length bytes, the occupancy read at each step (and R248, which applies
where `tx.done` is set). -/
def Obligations.TxHeaderBytesEffect : Prop :=
  ∀ s : State, TxReady s →
    let sends (n : TxState) (v : Byte) : Prop := exec .txNext s = .next
      { s with
        tx := { s.tx with state := n }
        irq := { s.irq with txEn := s.irq.txEn && !s.tx.done }
        wireOut := s.wireOut ++ [v]
        events := s.events ++ (if s.tx.done = true then [.txIrqDisable] else [])
        responses := s.responses ++ [(s.serving, ⟨.ok, v.setWidth 24⟩)] }
    (s.tx.state = .init → sends .ctrlByte s.tx.blockType.tag) ∧
    (s.tx.state = .ctrlByte → s.tx.blockType = .data →
      sends .lenByte1 ((rbSize s.tx.buf s).extractLsb' 16 8)) ∧
    (s.tx.state = .lenByte1 → sends .lenByte2 ((rbSize s.tx.buf s).extractLsb' 8 8)) ∧
    (s.tx.state = .lenByte2 → sends .lenByte3 ((rbSize s.tx.buf s).extractLsb' 0 8))

/-- R254: the oldest byte of the source buffer (and R248, which applies where `tx.done` is set). -/
def Obligations.TxDataByteEffect : Prop :=
  ∀ (b : Handle) (v : Byte) (s : State), TxReady s → s.tx.buf = some b →
    (s.tx.state = .lenByte3 ∨ s.tx.state = .data) → (s.buf b).size ≠ 0#24 →
    Memory.read (s.buf b).store (s.buf b).readIndex.toNat = some v →
    exec .txNext s = .next
      { s.setBuf b
          { size := (s.buf b).size - 1#24
            readIndex := nextIndex s.capacity (s.buf b).readIndex
            writeIndex := (s.buf b).writeIndex
            store := (s.buf b).store } with
        tx := { s.tx with state := .data }
        irq := { s.irq with txEn := s.irq.txEn && !s.tx.done }
        wireOut := s.wireOut ++ [v]
        events := s.events ++ (if s.tx.done = true then [.txIrqDisable] else [])
        responses := s.responses ++ [(s.serving, ⟨.ok, v.setWidth 24⟩)] }

/-- R263 first row, R260, R262, R247, R248: a main block that needs no ACK ends its cycle in the step that returns its
check byte; if an ACK is owed, which the block is not, the owed `Ack` starts at once and the interrupt stays enabled. -/
def Obligations.TxCheckEndsCycle : Prop :=
  ∀ s : State, TxReady s → txNext s.tx (rbSize s.tx.buf s) = .goto .check → requiresAck s.tx.blockType = false →
    s.permits .txProcess = 0#8 →
    (s.tx.ackExpected = false → exec .txNext s = .next
      { s with
        tx := { s.tx with state := .check, inProgress := false, done := true }
        sem := { s.sem with txProcess := 1#8 }
        irq := { s.irq with txEn := false }
        wireOut := s.wireOut ++ [0x00#8]
        events := s.events ++ [.blockSent, .txIrqDisable]
        responses := s.responses ++ [(s.serving, ⟨.ok, 0#24⟩)] }) ∧
    (s.tx.ackExpected = true → s.tx.blockType ≠ .ack → exec .txNext s = .next
      { s with
        tx := { s.tx with state := .init, buf := none, blockType := .ack, inProgress := true, done := false,
                          ackReceived := false }
        irq := { s.irq with txEn := true }
        wireOut := s.wireOut ++ [0x00#8]
        events := s.events ++ [.blockSent, .txIrqEnable]
        responses := s.responses ++ [(s.serving, ⟨.ok, 0#24⟩)] })

/-- R260, R261 first row, R263 third and fourth rows: a main block that needs an ACK waits for it, and starts a dedicated
reception if the receiver is free. -/
def Obligations.TxCheckWaitsForAck : Prop :=
  ∀ s : State, TxReady s → txNext s.tx (rbSize s.tx.buf s) = .goto .check → requiresAck s.tx.blockType = true →
    s.tx.ackReceived = false →
    (s.permits .rxProcess = 0#8 → exec .txNext s = .next
      { s with
        tx := { s.tx with state := .check, done := true }
        rx := { s.rx with ackExpected := true }
        irq := { s.irq with txEn := false }
        wireOut := s.wireOut ++ [0x00#8]
        events := s.events ++ [.txIrqDisable]
        responses := s.responses ++ [(s.serving, ⟨.ok, 0#24⟩)] }) ∧
    (s.permits .rxProcess ≠ 0#8 → exec .txNext s = .next
      { s with
        tx := { s.tx with state := .check, done := true }
        rx := { s.rx with ackExpected := true, state := .init, expected := 0#24, received := 0#24, buf := none,
                          inProgress := true, ackSeen := false }
        sem := { s.sem with rxProcess := s.sem.rxProcess - 1#8 }
        irq := ⟨true, false⟩
        wireOut := s.wireOut ++ [0x00#8]
        events := s.events ++ [.rxIrqEnable, .txIrqDisable]
        responses := s.responses ++ [(s.serving, ⟨.ok, 0#24⟩)] })

/-- R300, R255, R293, R295, R202: the owed `Ack`'s check byte ends the reception that waits in `Check` or `AckCheck`, which
starts again if an ACK is awaited, then its own cycle; where the reception is not re-driven its flag stays set (R399). -/
def Obligations.OwedAckEndsBothCycles : Prop :=
  ∀ s : State, TxReady s → s.tx.state = .ctrlByte → s.tx.blockType = .ack → s.tx.ackExpected = true →
    s.permits .txProcess = 0#8 →
    let sent : TxContext := { s.tx with state := .check, ackExpected := false, inProgress := false, done := true }
    (RxRedriven s → s.permits .rxProcess = 0#8 → s.rx.ackExpected = false → exec .txNext s = .next
      { s with
        tx := sent
        rx := { s.rx with state := .transmittedAck, ackTxDone := false, inProgress := false }
        sem := { s.sem with rxProcess := 1#8, txProcess := 1#8 }
        irq := ⟨false, false⟩
        wireOut := s.wireOut ++ [0x00#8]
        events := s.events ++ endOfReception s.rx.ackSeen s.rx.blockType ++ [.blockSent, .txIrqDisable]
        responses := s.responses ++ [(s.serving, ⟨.ok, 0#24⟩)] }) ∧
    (RxRedriven s → s.permits .rxProcess = 0#8 → s.rx.ackExpected = true → exec .txNext s = .next
      { s with
        tx := sent
        rx := { s.rx with state := .init, ackTxDone := false, inProgress := true, expected := 0#24, received := 0#24,
                          ackSeen := false }
        sem := { s.sem with txProcess := 1#8 }
        irq := ⟨true, false⟩
        wireOut := s.wireOut ++ [0x00#8]
        events := s.events ++ endOfReception s.rx.ackSeen s.rx.blockType ++
          [.rxIrqEnable, .blockSent, .txIrqDisable]
        responses := s.responses ++ [(s.serving, ⟨.ok, 0#24⟩)] }) ∧
    (¬ RxRedriven s → exec .txNext s = .next
      { s with
        tx := sent
        rx := { s.rx with ackTxDone := true }
        sem := { s.sem with txProcess := 1#8 }
        irq := { s.irq with txEn := false }
        wireOut := s.wireOut ++ [0x00#8]
        events := s.events ++ [.blockSent, .txIrqDisable]
        responses := s.responses ++ [(s.serving, ⟨.ok, 0#24⟩)] })

/-- R246 wait rows, R256, R258, R302, R398, R248: a polled wait state stays, sends the owed `Ack`'s first byte in cycle,
or, where the awaited ACK has arrived, ends its cycle with no byte and starts an owed `Ack`. -/
def Obligations.TxWaitStateStep : Prop :=
  ∀ s : State, TxWaiting s →
    (s.tx.ackReceived = false → s.tx.ackExpected = false → exec .txNext s = .next
      { s with
        irq := { s.irq with txEn := false }
        events := s.events ++ [.txIrqDisable]
        responses := s.responses ++ [(s.serving, ⟨.empty, 0#24⟩)] }) ∧
    (s.tx.ackReceived = false → s.tx.ackExpected = true → exec .txNext s = .next
      { s with
        tx := { s.tx with state := .ackCtrlByte }
        irq := { s.irq with txEn := false }
        wireOut := s.wireOut ++ [0x05#8]
        events := s.events ++ [.txIrqDisable]
        responses := s.responses ++ [(s.serving, ⟨.ok, 5#24⟩)] }) ∧
    (s.tx.ackReceived = true → s.tx.ackExpected = false → s.permits .txProcess = 0#8 → exec .txNext s = .next
      { s with
        tx := { s.tx with state := .rcvdAck, inProgress := false }
        sem := { s.sem with txProcess := 1#8 }
        irq := { s.irq with txEn := false }
        events := s.events ++ [.blockSent, .txIrqDisable]
        responses := s.responses ++ [(s.serving, ⟨.empty, 0#24⟩)] }) ∧
    (s.tx.ackReceived = true → s.tx.ackExpected = true → s.permits .txProcess = 0#8 → exec .txNext s = .next
      { s with
        tx := { s.tx with state := .init, buf := none, blockType := .ack, done := false, ackReceived := false }
        irq := { s.irq with txEn := true }
        events := s.events ++ [.blockSent, .txIrqEnable]
        responses := s.responses ++ [(s.serving, ⟨.empty, 0#24⟩)] })

/-- R257 with R293, R295, R202, R260, R261: the second byte of an `Ack` sent in cycle, in every case. `r` is the state once
the ACK is marked as sent: the reception was not re-driven, or ended, or ended and started again. Then the main block's
completion decides. -/
def Obligations.TxInCycleAckCheckByte : Prop :=
  ∀ s r : State, TxReady s → s.tx.state = .ackCtrlByte →
    (let m : State := { s with tx := { s.tx with state := .ackCheck, done := true, ackExpected := false } }
     let ends : List Event := s.events ++ endOfReception s.rx.ackSeen s.rx.blockType
     ¬ RxRedriven s ∧ r = { m with rx := { s.rx with ackTxDone := true } } ∨
     RxRedriven s ∧ s.permits .rxProcess = 0#8 ∧ s.rx.ackExpected = false ∧ r =
      { m with
        rx := { s.rx with state := .transmittedAck, ackTxDone := false, inProgress := false }
        sem := { s.sem with rxProcess := 1#8 }
        irq := { s.irq with rxEn := false }
        events := ends } ∨
     RxRedriven s ∧ s.permits .rxProcess = 0#8 ∧ s.rx.ackExpected = true ∧ r =
      { m with
        rx := { s.rx with state := .init, ackTxDone := false, inProgress := true, expected := 0#24, received := 0#24,
                          ackSeen := false }
        irq := { s.irq with rxEn := true }
        events := ends ++ [.rxIrqEnable] }) →
    let answers (t : State) : Prop := exec .txNext s = .next
      { t with
        irq := { t.irq with txEn := false }
        wireOut := s.wireOut ++ [0x00#8]
        events := t.events ++ [.txIrqDisable]
        responses := s.responses ++ [(s.serving, ⟨.ok, 0#24⟩)] }
    (requiresAck s.tx.blockType = true → s.tx.ackReceived = false → r.permits .rxProcess = 0#8 →
      answers { r with rx := { r.rx with ackExpected := true } }) ∧
    (requiresAck s.tx.blockType = true → s.tx.ackReceived = false → r.permits .rxProcess ≠ 0#8 →
      answers { r with
        rx := { r.rx with ackExpected := true, state := .init, expected := 0#24, received := 0#24, buf := none,
                          inProgress := true, ackSeen := false }
        sem := { r.sem with rxProcess := r.sem.rxProcess - 1#8 }
        irq := { r.irq with rxEn := true }
        events := r.events ++ [.rxIrqEnable] }) ∧
    (requiresAck s.tx.blockType = true → s.tx.ackReceived = true → s.permits .txProcess = 0#8 →
      answers { r with
        tx := { r.tx with state := .rcvdAck, inProgress := false }
        sem := { r.sem with txProcess := 1#8 }
        events := r.events ++ [.blockSent] }) ∧
    (requiresAck s.tx.blockType = false → s.permits .txProcess = 0#8 →
      answers { r with
        tx := { r.tx with inProgress := false }
        sem := { r.sem with txProcess := 1#8 }
        events := r.events ++ [.blockSent] })

/-- R314 in part (with no other operation between the `TX_NEXT`s): a started transmission returns exactly `encode(t, p)`,
one byte per `TX_NEXT`, each with `Ok`; where no ACK was owed, it then stands in `Check`. -/
def Obligations.TransmissionSendsTheFrame : Prop :=
  ∀ (h : Option Handle) (ty : BlockType) (p : List Byte) (s : State),
    RingInv s → s.permits .txProcess ≠ 0#8 → s.permits .txContext ≠ 0#8 → s.tx.fault = false →
    SourceHolds s h p →
    ∃ t u, exec (.txSend h ty) s = .next t ∧ pump (encodeFrame ty p).length t = .next u ∧
      u.wireOut = s.wireOut ++ encodeFrame ty p ∧
      u.responses = t.responses ++ (encodeFrame ty p).map (fun v => (s.serving, ⟨.ok, v.setWidth 24⟩)) ∧
      (s.tx.ackExpected = false → u.tx.state = .check)

/-! ### Wire blocks and the context -/

/-- R315 in part: the block `BLOCK_DATA` in a normal cycle with a destination buffer that it fits. -/
def Obligations.DataBlockReceived : Prop :=
  ∀ (b : Handle) (p : List Byte) (k : Byte) (s : State),
    RingInv s → RxNormalStart s → s.rx.buf = some b → s.rx.received = 0#24 → p.length ≤ s.capacity.toNat →
    ∃ t, exec (.blockData p k) s = .next t ∧
      t.responses = s.responses ++ List.replicate (5 + p.length) (s.serving, ⟨.ok, 0#24⟩) ∧
      t.rx.blockType = .data ∧ t.rx.expected.toNat = p.length ∧ t.rx.received.toNat = p.length ∧
      t.rx.state = .check ∧ t.rx.inProgress = true ∧ t.tx.ackExpected = true ∧
      Holds t b p ∧ (∀ c, c ≠ b → t.buf c = s.buf c)

/-- R191 last row: `BLOCK_COLDRESET` and `BLOCK_WARMRESET` with the transmitter free: an ACK is owed and its
transmission starts. -/
def Obligations.ResetBlockReceived : Prop :=
  ∀ (k : Byte) (i : Instr) (ty : BlockType) (s : State),
    (i = .blockColdReset k ∧ ty = .coldReset ∨ i = .blockWarmReset k ∧ ty = .warmReset) →
    RxNormalStart s → s.permits .txProcess ≠ 0#8 →
    exec i s = .next
      { s with
        rx := { s.rx with state := .check, blockType := ty }
        tx := { s.tx with ackExpected := true, done := false, inProgress := true, buf := none, blockType := .ack,
                          state := .init, ackReceived := false }
        sem := { s.sem with txProcess := s.sem.txProcess - 1#8 }
        irq := { s.irq with txEn := true }
        events := s.events ++ [.txIrqEnable]
        responses := s.responses ++ List.replicate 2 (s.serving, ⟨.ok, 0#24⟩) }

/-- R191 second and third rows, R116: `BLOCK_UNKNOWN`, `BLOCK_BUSY`, `BLOCK_NACK` and an unsolicited `BLOCK_ACK` end
their cycle. -/
def Obligations.BlockWithoutReplyReceived : Prop :=
  ∀ (c k : Byte) (i : Instr) (ty : BlockType) (s : State),
    (i = .blockUnknown c k ∧ WellFormed (.blockUnknown c k) = true ∧ ty = .unknown ∨ i = .blockBusy k ∧ ty = .busy ∨
      i = .blockNack k ∧ ty = .nack ∨ i = .blockAck k ∧ ty = .ack) →
    RxNormalStart s → s.rx.ackExpected = false → s.permits .rxProcess = 0#8 →
    exec i s = .next
      { s with
        rx := { s.rx with state := .check, blockType := ty, inProgress := false }
        sem := { s.sem with rxProcess := 1#8 }
        irq := { s.irq with rxEn := false }
        events := s.events ++ endOfReception s.rx.ackSeen ty
        responses := s.responses ++ List.replicate 2 (s.serving, ⟨.ok, 0#24⟩) }

/-- R299: `BLOCK_ACK` in the dedicated cycle of a waiting transmission. -/
def Obligations.AckBlockCompletesTheSend : Prop :=
  ∀ (k : Byte) (s : State), RxDedicatedStart s → TxWaiting s → s.rx.ackTxDone = false → s.tx.ackExpected = false →
    s.permits .rxProcess = 0#8 → s.permits .txProcess = 0#8 →
    exec (.blockAck k) s = .next
      { s with
        rx := { s.rx with state := .ackCheck, blockType := .ack, ackExpected := false, ackSeen := true,
                          inProgress := false }
        tx := { s.tx with state := .rcvdAck, ackReceived := true, inProgress := false }
        sem := { s.sem with rxProcess := 1#8, txProcess := 1#8 }
        irq := ⟨false, false⟩
        events := s.events ++ [.blockSent, .txIrqDisable, .ackReceivedByPeer, .blockReceived, .rxIrqDisable]
        responses := s.responses ++ List.replicate 2 (s.serving, ⟨.ok, 0#24⟩) }

/-- Log 8: a block instruction is its bytes given to `RX_BYTE` in order; each byte is answered once, in every state. -/
def Obligations.BlockIsItsBytes : Prop :=
  ∀ (i : Instr) (bytes : List Byte) (s : State), encode i = .wire bytes →
    exec i s = feed bytes s ∧
    ∃ t rs, exec i s = .next t ∧ rs.length = bytes.length ∧ t.responses = s.responses ++ rs

/-- R382: `COMM_INIT` (R297) compared with the reset input, which arrives between two operations or, abandoning it without
response, while one is being served (R380). When it arrives is an input; what stays presented, that the input is low
again, and that the output logs start empty, is the model's choice of log 10 (DESIGN CHOICE), after R381 "the output event stream starts empty". -/
def Obligations.CommInitComparedWithReset : Prop :=
  encode .commInit = .command 0x400000#24 ∧
  ∀ s : State,
    (∃ t, exec .commInit s = .next t ∧
      t.rx = State.reset.rx ∧ t.tx = State.reset.tx ∧ t.sem = State.reset.sem ∧ t.irq = State.reset.irq ∧
      t.rb = s.rb ∧ t.events = s.events ++ [.rxIrqDisable, .txIrqDisable] ∧
      t = { s with rx := t.rx, tx := t.tx, sem := t.sem, irq := t.irq, events := t.events,
                   responses := s.responses ++ [(s.serving, ⟨.ok, 0#24⟩)] }) ∧
    (∀ inService, s.resetIn = .arrives 0 inService → ∃ t, step s = .next t ∧
      t.rx = State.reset.rx ∧ t.tx = State.reset.tx ∧ t.sem = State.reset.sem ∧ t.irq = State.reset.irq ∧
      (∀ b, (t.buf b).size = 0#24 ∧ (t.buf b).readIndex = 0#24 ∧ (t.buf b).writeIndex = 0#24) ∧ t.events = [] ∧
      t.responses = [] ∧ t.wireOut = []) ∧
    let kept : State := { State.resetWith s.capacity with
      host := ⟨s.host.queue, none⟩, rxirq := ⟨s.rxirq.queue, none⟩, txirq := ⟨s.txirq.queue, none⟩
      wireIn := s.wireIn, driver := s.driver, served := s.served }
    (s.resetIn = .arrives 0 false → step s = .next kept) ∧
    (s.resetIn = .arrives 0 true →
      (waiting s = [] → step s = .next kept) ∧
      (∀ (a : Agent) (r : Requester),
        (a = .host ∧ r = .host ∨ a = .rxirq ∧ r = .rxirq ∨ a = .txirq ∧ r = .txirq) → waiting s = [r] →
        (∀ w ws, s.port a = ⟨w :: ws, none⟩ → step s = .next { kept.setPort a ⟨ws, none⟩ with served := s.served + 1 }) ∧
        (∀ k, (s.port a).lock = some k → step s = .next { kept with served := s.served + 1 })) ∧
      (∀ v rest, waiting s = [.channel] → s.wireIn = v :: rest →
        step s = .next { kept with wireIn := rest, served := s.served + 1 }))

/-- R47, R381: the reset values. -/
def Obligations.ResetValues : Prop :=
  ∀ c : Len, let s := State.resetWith c
    s.rx = ⟨.init, none, 0#24, 0#24, .unknown, false, false, false, false, false⟩ ∧
    s.tx = ⟨.init, none, .unknown, false, false, false, false, false⟩ ∧
    s.sem = ⟨1#8, 1#8, 1#8, 1#8⟩ ∧ s.irq = ⟨false, false⟩ ∧
    (∀ b, (s.buf b).size = 0#24 ∧ (s.buf b).readIndex = 0#24 ∧ (s.buf b).writeIndex = 0#24 ∧
      ∀ i, Memory.read (s.buf b).store i = none) ∧
    s.events = [] ∧
    (∀ v, exec (.rxByte v) s = .next (s.respond .error 0#24)) ∧ exec .txNext s = .next (s.respond .error 0#24)

/-! ### The step -/

/-- R75, R80, R100: a lone requester's operation is what the step runs. That under a polling driver a complete block at the
head of the channel is one step is log 8's choice (DESIGN CHOICE; R331 presents it as one `RX_BYTE` per byte); where it is
not complete, or the driver is gated (R333), the step is `RX_BYTE` of the oldest byte. The queues and the service counter
are logs 3 and 6. -/
def Obligations.StepRunsTheDecodedInstruction : Prop :=
  ∀ (i : Instr) (s : State), s.resetIn = .low →
    (∀ (a : Agent) (r : Requester) (w : CmdWord) (ws : List CmdWord),
      (a = .host ∧ r = .host ∨ a = .rxirq ∧ r = .rxirq ∨ a = .txirq ∧ r = .txirq) → waiting s = [r] →
      s.port a = ⟨w :: ws, none⟩ → decodeCmd w = .ok i →
      step s = exec i { s.setPort a ⟨ws, none⟩ with serving := a, served := s.served + 1 }) ∧
    (∀ rest, waiting s = [.channel] → s.driver = .polling → decodeBlock s.wireIn = some (i, rest) →
      step s = exec i { s with wireIn := rest, serving := .rxirq, served := s.served + 1 }) ∧
    (∀ v rest, waiting s = [.channel] → s.driver = .gated ∨ decodeBlock s.wireIn = none → s.wireIn = v :: rest →
      step s = exec (.rxByte v) { s with wireIn := rest, serving := .rxirq, served := s.served + 1 })

/-- R75, R80, R104, R333, R380: where reset does not arrive, a step is one service, and counts down to a reset that is on
its way (log 10). Who waits: a pending `SEM_LOCK`, a port's oldest word, or a byte of the channel, but for what a gated
driver holds back, RXIRQ's `RX_BYTE` while `irq.rx_en` is 0 and TXIRQ's `TX_NEXT` while `irq.tx_en` is 0. Something is
served exactly when someone waits: one of those who wait, whichever `Config.arbitration` picks (log 3). Its operation runs,
or its illegal word is answered `Illegal`; with nobody waiting nothing changes (log 11). A port serves its oldest word. The
channel is served byte by byte under a gated driver, while another waits, while a reset is on its way, so that it can fall
between any two bytes, or where no complete block is there (log 8). -/
def Obligations.StepServesAWaitingRequester : Prop :=
  ∀ s : State,
    (s.resetIn = .low → step s = serveNext s) ∧
    (∀ n inService, s.resetIn = .arrives (n + 1) inService →
      step s = serveNext { s with resetIn := .arrives n inService }) ∧
    (∀ (a : Agent) (r : Requester),
      (a = .host ∧ r = .host ∨ a = .rxirq ∧ r = .rxirq ∨ a = .txirq ∧ r = .txirq) →
      (r ∈ waiting s ↔ (s.port a).lock ≠ none ∨ ∃ w ws, s.port a = ⟨w :: ws, none⟩ ∧ (s.driver = .gated →
        (a = .rxirq → (∃ v, decodeCmd w = .ok (.rxByte v)) → s.irq.rxEn = true) ∧
          (a = .txirq → decodeCmd w = .ok .txNext → s.irq.txEn = true)))) ∧
    (Requester.channel ∈ waiting s ↔
      s.wireIn ≠ [] ∧ s.rxirq.lock = none ∧ (s.driver = .gated → s.irq.rxEn = true)) ∧
    (waiting s = [] → serveNext s = .next s) ∧
    (waiting s ≠ [] → ∃ r ∈ waiting s,
      fetch s = (if r = .channel then serveChannel s else servePort r.agent s) ∧ (fetch s).isSome = true) ∧
    (∀ i t, fetch s = some (.ok i, t) → serveNext s = exec i t) ∧
    (∀ e t, fetch s = some (.error e, t) →
      serveNext s = .next { t with responses := t.responses ++ [(t.serving, ⟨.illegal, 0#24⟩)] }) ∧
    (∀ a w ws, s.port a = ⟨w :: ws, none⟩ →
      servePort a s =
        some (decodeCmd w, { s.setPort a ⟨ws, none⟩ with serving := a, served := s.served + 1 })) ∧
    (∀ v rest, s.wireIn = v :: rest →
      (s.driver = .gated ∨ s.resetIn ≠ .low ∨ (∀ r, waiting s ≠ [r]) ∨ decodeBlock s.wireIn = none) →
      serveChannel s =
        some (.ok (.rxByte v), { s with wireIn := rest, serving := .rxirq, served := s.served + 1 }))

/-! ### What every instruction keeps -/

/-- R148, R44, R100: no instruction writes the capacity, the channel, the reset input, the driver's policy or the
bookkeeping, and only `SEM_LOCK` touches a port. -/
def Obligations.InstructionsLeaveInputsAlone : Prop :=
  ∀ (i : Instr) (s t : State), exec i s = .next t →
    t.capacity = s.capacity ∧ t.wireIn = s.wireIn ∧ t.resetIn = s.resetIn ∧ t.driver = s.driver ∧
    t.serving = s.serving ∧ t.served = s.served ∧
    ((∀ k, i ≠ .semLock k) → t.host = s.host ∧ t.rxirq = s.rxirq ∧ t.txirq = s.txirq) ∧
    t.host.queue = s.host.queue ∧ t.rxirq.queue = s.rxirq.queue ∧ t.txirq.queue = s.txirq.queue

/-- R45, R76 (b), (c), (d): the event stream, the responses and the outbound bytes are only appended to. -/
def Obligations.OutputStreamsOnlyGrow : Prop :=
  ∀ (i : Instr) (s t : State), exec i s = .next t → OutputsGrow s t

/-- R43, R189: the one storage byte `RX_BYTE` stores, and that it stores no other. -/
def Obligations.RxByteStorageFrame : Prop :=
  ∀ (v : Byte) (s t : State), exec (.rxByte v) s = .next t →
    (∀ b i, rxByteStores s = some (b, i) →
      Memory.read (t.buf b).store i = some v ∧ SameStorageBut b i s t) ∧
    (rxByteStores s = none → SameStorage s t)

/-- R43: every operation but `RB_ENQ` and `RX_BYTE` leaves every storage byte as it was, and a block stores to the bound
buffer only. -/
def Obligations.StorageFrame : Prop :=
  ∀ (i : Instr) (s t : State), exec i s = .next t →
    (∀ w, encode i = .command w → (∀ b v, i ≠ .rbEnq b v) → (∀ v, i ≠ .rxByte v) → SameStorage s t) ∧
    (∀ bytes, encode i = .wire bytes → ∀ c, s.rx.buf ≠ some c → t.buf c = s.buf c)

/-- R149, R167, R206: the operations outside the engines leave both engines alone. -/
def Obligations.EngineFrame : Prop :=
  ∀ (i : Instr) (s t : State), exec i s = .next t →
    ((∃ b, i = .rbReset b ∨ (∃ v, i = .rbEnq b v) ∨ i = .rbDeq b ∨ i = .rbSize b ∨ i = .rbEmpty b ∨ i = .rbFull b) ∨
      i = .rxAvail ∨ i = .rxFully →
      t.rx = s.rx ∧ t.tx = s.tx ∧ t.sem = s.sem ∧ t.irq = s.irq ∧ t.events = s.events ∧ t.wireOut = s.wireOut) ∧
    (isSemOp i = true → t.rx = s.rx ∧ t.tx = s.tx ∧ t.irq = s.irq ∧ t.rb = s.rb ∧ t.wireOut = s.wireOut) ∧
    (∀ h, i = .rxStart h → t.tx = s.tx ∧ t.rb = s.rb ∧ t.irq.txEn = s.irq.txEn) ∧
    (∀ h ty, i = .txSend h ty → t.rx = s.rx ∧ t.rb = s.rb ∧ t.irq.rxEn = s.irq.rxEn)

/-- R350, R48 (b): a byte step, a re-drive and a cycle start leave the two context locks as they found them. -/
def Obligations.ContextLocksAreGivenBack : Prop :=
  ∀ (i : Instr) (s t : State), isSemOp i = false → i ≠ .commInit → exec i s = .next t →
    t.permits .rxContext = s.permits .rxContext ∧ t.permits .txContext = s.permits .txContext

/-- R342, R32, R39: a fault bit is cleared by `COMM_INIT` only. -/
def Obligations.FaultIsSticky : Prop :=
  ∀ (i : Instr) (s t : State), i ≠ .commInit → exec i s = .next t →
    (s.rx.fault = true → t.rx.fault = true) ∧ (s.tx.fault = true → t.tx.fault = true)

/-- R335: no operation reads the interrupt-enable bits. R333: nor does a step under a polling driver, nor under either
driver a step before which the same requesters wait. -/
def Obligations.IrqBitsAreNeverRead : Prop :=
  (∀ (i : Instr) (s : State) (q : Irq), withoutIrq (exec i { s with irq := q }) = withoutIrq (exec i s)) ∧
  ∀ (s : State) (q : Irq), s.driver = .polling ∨ waiting { s with irq := q } = waiting s →
    withoutIrq (step { s with irq := q }) = withoutIrq (step s)

/-! ### Invariants -/

/-- R42, R43: every step keeps the ring-buffer invariant. -/
def Obligations.RingInvariantIsKept : Prop :=
  ∀ s t : State, RingInv s → step s = .next t → RingInv t

/-- R43: under the invariant no byte without a value is ever read, so no step stops. -/
def Obligations.NoStepStops : Prop :=
  ∀ s : State, RingInv s → ∃ t, step s = .next t

/-- R48 (a), (b), (c), (d), (f): while no agent uses a `SEM_*` operation, every step keeps the engines' invariant. -/
def Obligations.EngineInvariantIsKept : Prop :=
  ∀ s t : State, EngineInv s ∧ NoSemOps s → step s = .next t → EngineInv t ∧ NoSemOps t

/-- The invariants hold at reset, for every capacity R8 allows. -/
def Obligations.InvariantsHoldAtReset : Prop :=
  RingInv State.reset ∧ EngineInv State.reset ∧ NoSemOps State.reset ∧
  ∀ c : Len, 1 ≤ c.toNat →
    RingInv (State.resetWith c) ∧ EngineInv (State.resetWith c) ∧ NoSemOps (State.resetWith c)
end

