-- ==== Sys2Proof/Laws/State.lean ====
section
/-! SUPPORT. What each named update of State leaves in each field. -/

namespace Sys2Proof.Machine

/-! ### `emit` -/

@[simp] theorem State.emit_capacity (s : State) (e : Event) :
    (s.emit e).capacity = s.capacity := rfl

@[simp] theorem State.emit_rx (s : State) (e : Event) :
    (s.emit e).rx = s.rx := rfl

@[simp] theorem State.emit_tx (s : State) (e : Event) :
    (s.emit e).tx = s.tx := rfl

@[simp] theorem State.emit_sem (s : State) (e : Event) :
    (s.emit e).sem = s.sem := rfl

@[simp] theorem State.emit_irq (s : State) (e : Event) :
    (s.emit e).irq = s.irq := rfl

@[simp] theorem State.emit_rb (s : State) (e : Event) :
    (s.emit e).rb = s.rb := rfl

@[simp] theorem State.emit_events (s : State) (e : Event) :
    (s.emit e).events = s.events ++ [e] := rfl

@[simp] theorem State.emit_responses (s : State) (e : Event) :
    (s.emit e).responses = s.responses := rfl

@[simp] theorem State.emit_wireOut (s : State) (e : Event) :
    (s.emit e).wireOut = s.wireOut := rfl

@[simp] theorem State.emit_host (s : State) (e : Event) :
    (s.emit e).host = s.host := rfl

@[simp] theorem State.emit_rxirq (s : State) (e : Event) :
    (s.emit e).rxirq = s.rxirq := rfl

@[simp] theorem State.emit_txirq (s : State) (e : Event) :
    (s.emit e).txirq = s.txirq := rfl

@[simp] theorem State.emit_wireIn (s : State) (e : Event) :
    (s.emit e).wireIn = s.wireIn := rfl

@[simp] theorem State.emit_resetIn (s : State) (e : Event) :
    (s.emit e).resetIn = s.resetIn := rfl

@[simp] theorem State.emit_driver (s : State) (e : Event) :
    (s.emit e).driver = s.driver := rfl

@[simp] theorem State.emit_serving (s : State) (e : Event) :
    (s.emit e).serving = s.serving := rfl

@[simp] theorem State.emit_served (s : State) (e : Event) :
    (s.emit e).served = s.served := rfl

/-! ### `respond` -/

@[simp] theorem State.respond_capacity (s : State) (st : Status) (v : Len) :
    (s.respond st v).capacity = s.capacity := rfl

@[simp] theorem State.respond_rx (s : State) (st : Status) (v : Len) :
    (s.respond st v).rx = s.rx := rfl

@[simp] theorem State.respond_tx (s : State) (st : Status) (v : Len) :
    (s.respond st v).tx = s.tx := rfl

@[simp] theorem State.respond_sem (s : State) (st : Status) (v : Len) :
    (s.respond st v).sem = s.sem := rfl

@[simp] theorem State.respond_irq (s : State) (st : Status) (v : Len) :
    (s.respond st v).irq = s.irq := rfl

@[simp] theorem State.respond_rb (s : State) (st : Status) (v : Len) :
    (s.respond st v).rb = s.rb := rfl

@[simp] theorem State.respond_events (s : State) (st : Status) (v : Len) :
    (s.respond st v).events = s.events := rfl

@[simp] theorem State.respond_responses (s : State) (st : Status) (v : Len) :
    (s.respond st v).responses = s.responses ++ [(s.serving, ⟨st, v⟩)] := rfl

@[simp] theorem State.respond_wireOut (s : State) (st : Status) (v : Len) :
    (s.respond st v).wireOut = s.wireOut := rfl

@[simp] theorem State.respond_host (s : State) (st : Status) (v : Len) :
    (s.respond st v).host = s.host := rfl

@[simp] theorem State.respond_rxirq (s : State) (st : Status) (v : Len) :
    (s.respond st v).rxirq = s.rxirq := rfl

@[simp] theorem State.respond_txirq (s : State) (st : Status) (v : Len) :
    (s.respond st v).txirq = s.txirq := rfl

@[simp] theorem State.respond_wireIn (s : State) (st : Status) (v : Len) :
    (s.respond st v).wireIn = s.wireIn := rfl

@[simp] theorem State.respond_resetIn (s : State) (st : Status) (v : Len) :
    (s.respond st v).resetIn = s.resetIn := rfl

@[simp] theorem State.respond_driver (s : State) (st : Status) (v : Len) :
    (s.respond st v).driver = s.driver := rfl

@[simp] theorem State.respond_serving (s : State) (st : Status) (v : Len) :
    (s.respond st v).serving = s.serving := rfl

@[simp] theorem State.respond_served (s : State) (st : Status) (v : Len) :
    (s.respond st v).served = s.served := rfl

/-! ### `push` -/

@[simp] theorem State.push_capacity (s : State) (v : Byte) :
    (s.push v).capacity = s.capacity := rfl

@[simp] theorem State.push_rx (s : State) (v : Byte) :
    (s.push v).rx = s.rx := rfl

@[simp] theorem State.push_tx (s : State) (v : Byte) :
    (s.push v).tx = s.tx := rfl

@[simp] theorem State.push_sem (s : State) (v : Byte) :
    (s.push v).sem = s.sem := rfl

@[simp] theorem State.push_irq (s : State) (v : Byte) :
    (s.push v).irq = s.irq := rfl

@[simp] theorem State.push_rb (s : State) (v : Byte) :
    (s.push v).rb = s.rb := rfl

@[simp] theorem State.push_events (s : State) (v : Byte) :
    (s.push v).events = s.events := rfl

@[simp] theorem State.push_responses (s : State) (v : Byte) :
    (s.push v).responses = s.responses := rfl

@[simp] theorem State.push_wireOut (s : State) (v : Byte) :
    (s.push v).wireOut = s.wireOut ++ [v] := rfl

@[simp] theorem State.push_host (s : State) (v : Byte) :
    (s.push v).host = s.host := rfl

@[simp] theorem State.push_rxirq (s : State) (v : Byte) :
    (s.push v).rxirq = s.rxirq := rfl

@[simp] theorem State.push_txirq (s : State) (v : Byte) :
    (s.push v).txirq = s.txirq := rfl

@[simp] theorem State.push_wireIn (s : State) (v : Byte) :
    (s.push v).wireIn = s.wireIn := rfl

@[simp] theorem State.push_resetIn (s : State) (v : Byte) :
    (s.push v).resetIn = s.resetIn := rfl

@[simp] theorem State.push_driver (s : State) (v : Byte) :
    (s.push v).driver = s.driver := rfl

@[simp] theorem State.push_serving (s : State) (v : Byte) :
    (s.push v).serving = s.serving := rfl

@[simp] theorem State.push_served (s : State) (v : Byte) :
    (s.push v).served = s.served := rfl

/-! ### `setBuf` -/

@[simp] theorem State.setBuf_capacity (s : State) (b : Handle) (q : RingBuffer) :
    (s.setBuf b q).capacity = s.capacity := rfl

@[simp] theorem State.setBuf_rx (s : State) (b : Handle) (q : RingBuffer) :
    (s.setBuf b q).rx = s.rx := rfl

@[simp] theorem State.setBuf_tx (s : State) (b : Handle) (q : RingBuffer) :
    (s.setBuf b q).tx = s.tx := rfl

@[simp] theorem State.setBuf_sem (s : State) (b : Handle) (q : RingBuffer) :
    (s.setBuf b q).sem = s.sem := rfl

@[simp] theorem State.setBuf_irq (s : State) (b : Handle) (q : RingBuffer) :
    (s.setBuf b q).irq = s.irq := rfl

@[simp] theorem State.setBuf_rb (s : State) (b : Handle) (q : RingBuffer) :
    (s.setBuf b q).rb = s.rb.set b q := rfl

@[simp] theorem State.setBuf_events (s : State) (b : Handle) (q : RingBuffer) :
    (s.setBuf b q).events = s.events := rfl

@[simp] theorem State.setBuf_responses (s : State) (b : Handle) (q : RingBuffer) :
    (s.setBuf b q).responses = s.responses := rfl

@[simp] theorem State.setBuf_wireOut (s : State) (b : Handle) (q : RingBuffer) :
    (s.setBuf b q).wireOut = s.wireOut := rfl

@[simp] theorem State.setBuf_host (s : State) (b : Handle) (q : RingBuffer) :
    (s.setBuf b q).host = s.host := rfl

@[simp] theorem State.setBuf_rxirq (s : State) (b : Handle) (q : RingBuffer) :
    (s.setBuf b q).rxirq = s.rxirq := rfl

@[simp] theorem State.setBuf_txirq (s : State) (b : Handle) (q : RingBuffer) :
    (s.setBuf b q).txirq = s.txirq := rfl

@[simp] theorem State.setBuf_wireIn (s : State) (b : Handle) (q : RingBuffer) :
    (s.setBuf b q).wireIn = s.wireIn := rfl

@[simp] theorem State.setBuf_resetIn (s : State) (b : Handle) (q : RingBuffer) :
    (s.setBuf b q).resetIn = s.resetIn := rfl

@[simp] theorem State.setBuf_driver (s : State) (b : Handle) (q : RingBuffer) :
    (s.setBuf b q).driver = s.driver := rfl

@[simp] theorem State.setBuf_serving (s : State) (b : Handle) (q : RingBuffer) :
    (s.setBuf b q).serving = s.serving := rfl

@[simp] theorem State.setBuf_served (s : State) (b : Handle) (q : RingBuffer) :
    (s.setBuf b q).served = s.served := rfl

/-! ### `setPermits` -/

@[simp] theorem State.setPermits_capacity (s : State) (k : SemId) (n : Byte) :
    (s.setPermits k n).capacity = s.capacity := rfl

@[simp] theorem State.setPermits_rx (s : State) (k : SemId) (n : Byte) :
    (s.setPermits k n).rx = s.rx := rfl

@[simp] theorem State.setPermits_tx (s : State) (k : SemId) (n : Byte) :
    (s.setPermits k n).tx = s.tx := rfl

@[simp] theorem State.setPermits_sem (s : State) (k : SemId) (n : Byte) :
    (s.setPermits k n).sem = s.sem.set k n := rfl

@[simp] theorem State.setPermits_irq (s : State) (k : SemId) (n : Byte) :
    (s.setPermits k n).irq = s.irq := rfl

@[simp] theorem State.setPermits_rb (s : State) (k : SemId) (n : Byte) :
    (s.setPermits k n).rb = s.rb := rfl

@[simp] theorem State.setPermits_events (s : State) (k : SemId) (n : Byte) :
    (s.setPermits k n).events = s.events := rfl

@[simp] theorem State.setPermits_responses (s : State) (k : SemId) (n : Byte) :
    (s.setPermits k n).responses = s.responses := rfl

@[simp] theorem State.setPermits_wireOut (s : State) (k : SemId) (n : Byte) :
    (s.setPermits k n).wireOut = s.wireOut := rfl

@[simp] theorem State.setPermits_host (s : State) (k : SemId) (n : Byte) :
    (s.setPermits k n).host = s.host := rfl

@[simp] theorem State.setPermits_rxirq (s : State) (k : SemId) (n : Byte) :
    (s.setPermits k n).rxirq = s.rxirq := rfl

@[simp] theorem State.setPermits_txirq (s : State) (k : SemId) (n : Byte) :
    (s.setPermits k n).txirq = s.txirq := rfl

@[simp] theorem State.setPermits_wireIn (s : State) (k : SemId) (n : Byte) :
    (s.setPermits k n).wireIn = s.wireIn := rfl

@[simp] theorem State.setPermits_resetIn (s : State) (k : SemId) (n : Byte) :
    (s.setPermits k n).resetIn = s.resetIn := rfl

@[simp] theorem State.setPermits_driver (s : State) (k : SemId) (n : Byte) :
    (s.setPermits k n).driver = s.driver := rfl

@[simp] theorem State.setPermits_serving (s : State) (k : SemId) (n : Byte) :
    (s.setPermits k n).serving = s.serving := rfl

@[simp] theorem State.setPermits_served (s : State) (k : SemId) (n : Byte) :
    (s.setPermits k n).served = s.served := rfl

/-! ### `setRxIrq` -/

@[simp] theorem State.setRxIrq_capacity (s : State) (on : Bool) :
    (s.setRxIrq on).capacity = s.capacity := rfl

@[simp] theorem State.setRxIrq_rx (s : State) (on : Bool) :
    (s.setRxIrq on).rx = s.rx := rfl

@[simp] theorem State.setRxIrq_tx (s : State) (on : Bool) :
    (s.setRxIrq on).tx = s.tx := rfl

@[simp] theorem State.setRxIrq_sem (s : State) (on : Bool) :
    (s.setRxIrq on).sem = s.sem := rfl

@[simp] theorem State.setRxIrq_irq (s : State) (on : Bool) :
    (s.setRxIrq on).irq = { s.irq with rxEn := on } := rfl

@[simp] theorem State.setRxIrq_rb (s : State) (on : Bool) :
    (s.setRxIrq on).rb = s.rb := rfl

@[simp] theorem State.setRxIrq_events (s : State) (on : Bool) :
    (s.setRxIrq on).events = s.events ++ [if on then .rxIrqEnable else .rxIrqDisable] := rfl

@[simp] theorem State.setRxIrq_responses (s : State) (on : Bool) :
    (s.setRxIrq on).responses = s.responses := rfl

@[simp] theorem State.setRxIrq_wireOut (s : State) (on : Bool) :
    (s.setRxIrq on).wireOut = s.wireOut := rfl

@[simp] theorem State.setRxIrq_host (s : State) (on : Bool) :
    (s.setRxIrq on).host = s.host := rfl

@[simp] theorem State.setRxIrq_rxirq (s : State) (on : Bool) :
    (s.setRxIrq on).rxirq = s.rxirq := rfl

@[simp] theorem State.setRxIrq_txirq (s : State) (on : Bool) :
    (s.setRxIrq on).txirq = s.txirq := rfl

@[simp] theorem State.setRxIrq_wireIn (s : State) (on : Bool) :
    (s.setRxIrq on).wireIn = s.wireIn := rfl

@[simp] theorem State.setRxIrq_resetIn (s : State) (on : Bool) :
    (s.setRxIrq on).resetIn = s.resetIn := rfl

@[simp] theorem State.setRxIrq_driver (s : State) (on : Bool) :
    (s.setRxIrq on).driver = s.driver := rfl

@[simp] theorem State.setRxIrq_serving (s : State) (on : Bool) :
    (s.setRxIrq on).serving = s.serving := rfl

@[simp] theorem State.setRxIrq_served (s : State) (on : Bool) :
    (s.setRxIrq on).served = s.served := rfl

/-! ### `setTxIrq` -/

@[simp] theorem State.setTxIrq_capacity (s : State) (on : Bool) :
    (s.setTxIrq on).capacity = s.capacity := rfl

@[simp] theorem State.setTxIrq_rx (s : State) (on : Bool) :
    (s.setTxIrq on).rx = s.rx := rfl

@[simp] theorem State.setTxIrq_tx (s : State) (on : Bool) :
    (s.setTxIrq on).tx = s.tx := rfl

@[simp] theorem State.setTxIrq_sem (s : State) (on : Bool) :
    (s.setTxIrq on).sem = s.sem := rfl

@[simp] theorem State.setTxIrq_irq (s : State) (on : Bool) :
    (s.setTxIrq on).irq = { s.irq with txEn := on } := rfl

@[simp] theorem State.setTxIrq_rb (s : State) (on : Bool) :
    (s.setTxIrq on).rb = s.rb := rfl

@[simp] theorem State.setTxIrq_events (s : State) (on : Bool) :
    (s.setTxIrq on).events = s.events ++ [if on then .txIrqEnable else .txIrqDisable] := rfl

@[simp] theorem State.setTxIrq_responses (s : State) (on : Bool) :
    (s.setTxIrq on).responses = s.responses := rfl

@[simp] theorem State.setTxIrq_wireOut (s : State) (on : Bool) :
    (s.setTxIrq on).wireOut = s.wireOut := rfl

@[simp] theorem State.setTxIrq_host (s : State) (on : Bool) :
    (s.setTxIrq on).host = s.host := rfl

@[simp] theorem State.setTxIrq_rxirq (s : State) (on : Bool) :
    (s.setTxIrq on).rxirq = s.rxirq := rfl

@[simp] theorem State.setTxIrq_txirq (s : State) (on : Bool) :
    (s.setTxIrq on).txirq = s.txirq := rfl

@[simp] theorem State.setTxIrq_wireIn (s : State) (on : Bool) :
    (s.setTxIrq on).wireIn = s.wireIn := rfl

@[simp] theorem State.setTxIrq_resetIn (s : State) (on : Bool) :
    (s.setTxIrq on).resetIn = s.resetIn := rfl

@[simp] theorem State.setTxIrq_driver (s : State) (on : Bool) :
    (s.setTxIrq on).driver = s.driver := rfl

@[simp] theorem State.setTxIrq_serving (s : State) (on : Bool) :
    (s.setTxIrq on).serving = s.serving := rfl

@[simp] theorem State.setTxIrq_served (s : State) (on : Bool) :
    (s.setTxIrq on).served = s.served := rfl

/-! ### `serve` -/

@[simp] theorem State.serve_capacity (s : State) (a : Agent) :
    (s.serve a).capacity = s.capacity := rfl

@[simp] theorem State.serve_rx (s : State) (a : Agent) :
    (s.serve a).rx = s.rx := rfl

@[simp] theorem State.serve_tx (s : State) (a : Agent) :
    (s.serve a).tx = s.tx := rfl

@[simp] theorem State.serve_sem (s : State) (a : Agent) :
    (s.serve a).sem = s.sem := rfl

@[simp] theorem State.serve_irq (s : State) (a : Agent) :
    (s.serve a).irq = s.irq := rfl

@[simp] theorem State.serve_rb (s : State) (a : Agent) :
    (s.serve a).rb = s.rb := rfl

@[simp] theorem State.serve_events (s : State) (a : Agent) :
    (s.serve a).events = s.events := rfl

@[simp] theorem State.serve_responses (s : State) (a : Agent) :
    (s.serve a).responses = s.responses := rfl

@[simp] theorem State.serve_wireOut (s : State) (a : Agent) :
    (s.serve a).wireOut = s.wireOut := rfl

@[simp] theorem State.serve_host (s : State) (a : Agent) :
    (s.serve a).host = s.host := rfl

@[simp] theorem State.serve_rxirq (s : State) (a : Agent) :
    (s.serve a).rxirq = s.rxirq := rfl

@[simp] theorem State.serve_txirq (s : State) (a : Agent) :
    (s.serve a).txirq = s.txirq := rfl

@[simp] theorem State.serve_wireIn (s : State) (a : Agent) :
    (s.serve a).wireIn = s.wireIn := rfl

@[simp] theorem State.serve_resetIn (s : State) (a : Agent) :
    (s.serve a).resetIn = s.resetIn := rfl

@[simp] theorem State.serve_driver (s : State) (a : Agent) :
    (s.serve a).driver = s.driver := rfl

@[simp] theorem State.serve_serving (s : State) (a : Agent) :
    (s.serve a).serving = a := rfl

@[simp] theorem State.serve_served (s : State) (a : Agent) :
    (s.serve a).served = s.served + 1 := rfl

end Sys2Proof.Machine
end

