-- ==== Sys2Proof/Laws/Storage.lean ====
section
/-! SUPPORT. Laws of storage bytes, ring-buffer registers and the ring-buffer primitives. -/

namespace Sys2Proof.Machine

/-! ### Storage bytes -/

theorem Memory.read_write (m : Memory) (a b : Nat) (v : Byte) :
    Memory.read (Memory.write m a v) b = if a = b then some v else Memory.read m b := by
  induction m with
  | nil => simp [Memory.write, Memory.read]
  | cons c m ih =>
    obtain ⟨k, w⟩ := c
    simp only [Memory.write]
    split
    · simp only [Memory.read]
    · split
      · subst_vars
        simp only [Memory.read]
        split <;> rfl
      · simp only [Memory.read, ih]
        split
        · rw [if_neg (by omega)]
        · rfl

theorem Memory.mem_write {m : Memory} {a : Nat} {v : Byte} {x : Host.Cell} (h : x ∈ Memory.write m a v) :
    x = (a, v) ∨ x ∈ m := by
  induction m with
  | nil => simpa [Memory.write] using h
  | cons c m ih =>
    obtain ⟨k, w⟩ := c
    simp only [Memory.write] at h
    split at h
    · simpa using h
    · split at h
      · rcases List.mem_cons.1 h with h | h
        · exact .inl h
        · exact .inr (List.mem_cons_of_mem _ h)
      · rcases List.mem_cons.1 h with h | h
        · exact .inr (h ▸ List.mem_cons_self ..)
        · exact (ih h).imp_right (List.mem_cons_of_mem _)

/-- Every write keeps the canonical form. -/
theorem Memory.wf_write {m : Memory} (h : Memory.wf m) (a : Nat) (v : Byte) : Memory.wf (Memory.write m a v) := by
  induction m with
  | nil => exact List.pairwise_singleton ..
  | cons c m ih =>
    obtain ⟨k, w⟩ := c
    obtain ⟨hk, hm⟩ := List.pairwise_cons.1 h
    simp only [Memory.write]
    split
    · refine List.pairwise_cons.2 ⟨fun x hx => ?_, h⟩
      rcases List.mem_cons.1 hx with rfl | hx
      · assumption
      · exact Nat.lt_trans ‹_› (hk x hx)
    · split
      · subst_vars; exact List.pairwise_cons.2 ⟨hk, hm⟩
      · refine List.pairwise_cons.2 ⟨fun x hx => ?_, ih hm⟩
        rcases Memory.mem_write hx with rfl | hx
        · show k < a; omega
        · exact hk x hx

/-- In canonical form the byte read at an index is the listed one, so equal reads are equal storage. -/
theorem Memory.read_of_mem {m : Memory} (h : Memory.wf m) {k : Nat} {v : Byte} (hm : (k, v) ∈ m) :
    Memory.read m k = some v := by
  induction m with
  | nil => simp at hm
  | cons c m ih =>
    obtain ⟨j, w⟩ := c
    obtain ⟨hj, hw⟩ := List.pairwise_cons.1 h
    rcases List.mem_cons.1 hm with he | hm
    · cases he; simp [Memory.read]
    · have : j < k := hj _ hm
      simp only [Memory.read, if_neg (by omega : ¬ j = k)]
      exact ih hw hm

/-! ### The bank -/

/-- A reset buffer, whatever the capacity. -/
theorem State.resetWith_buf (c : Len) (b : Handle) : (State.resetWith c).buf b = RingBuffer.reset := by
  simp [State.buf, State.resetWith, Vector.get_eq_getElem]

/-- At reset the storage is in canonical form, and lists nothing (R43). -/
theorem State.reset_storage_wf (b : Handle) : Memory.wf (State.reset.buf b).store := by
  rw [State.reset, State.resetWith_buf]; exact List.Pairwise.nil

@[simp] theorem State.buf_setBuf (s : State) (b c : Handle) (q : RingBuffer) :
    (s.setBuf b q).buf c = if c = b then q else s.buf c := by
  simp only [State.buf, State.setBuf, Vector.get_eq_getElem, Vector.getElem_set]
  simp only [Fin.val_inj, eq_comm]

@[simp] theorem State.emit_buf (s : State) (e : Event) (b : Handle) : (s.emit e).buf b = s.buf b := rfl

@[simp] theorem State.respond_buf (s : State) (st : Status) (v : Len) (b : Handle) :
    (s.respond st v).buf b = s.buf b := rfl

@[simp] theorem State.push_buf (s : State) (v : Byte) (b : Handle) : (s.push v).buf b = s.buf b := rfl

@[simp] theorem State.setPermits_buf (s : State) (k : SemId) (n : Byte) (b : Handle) :
    (s.setPermits k n).buf b = s.buf b := rfl

@[simp] theorem State.setRxIrq_buf (s : State) (on : Bool) (b : Handle) : (s.setRxIrq on).buf b = s.buf b := rfl

@[simp] theorem State.setTxIrq_buf (s : State) (on : Bool) (b : Handle) : (s.setTxIrq on).buf b = s.buf b := rfl

/-! ### The primitives -/

/-- `RbEnqueue` that succeeds: there was room, and the buffer is the enqueued one (R142). -/
theorem rbEnqueue_eq_some {b : Handle} {v : Byte} {s t : State} :
    rbEnqueue b v s = some t ↔
      (s.buf b).size ≠ s.capacity ∧ t = s.setBuf b ((s.buf b).enqueue s.capacity v) := by
  unfold rbEnqueue
  split
  · simp [*]
  · exact ⟨fun h => ⟨‹_›, (Option.some.inj h).symm⟩, fun h => h.2 ▸ rfl⟩

theorem rbEnqueue_eq_none {b : Handle} {v : Byte} {s : State} :
    rbEnqueue b v s = none ↔ (s.buf b).size = s.capacity := by
  unfold rbEnqueue
  split <;> simp [*]

/-- Everything `RbDequeue` can answer (R143). -/
theorem rbDequeue_cases (b : Handle) (s : State) :
    ((s.buf b).size = 0#24 ∧ rbDequeue b s = .ok none) ∨
    ((s.buf b).size ≠ 0#24 ∧ Memory.read (s.buf b).store (s.buf b).readIndex.toNat = none ∧
      rbDequeue b s = .error .unwrittenStorage) ∨
    ∃ v, (s.buf b).size ≠ 0#24 ∧ Memory.read (s.buf b).store (s.buf b).readIndex.toNat = some v ∧
      rbDequeue b s = .ok (some (v, s.setBuf b ((s.buf b).dequeue s.capacity))) := by
  unfold rbDequeue
  split
  · exact .inl ⟨‹_›, rfl⟩
  · split
    · exact .inr (.inl ⟨‹_›, ‹_›, rfl⟩)
    · exact .inr (.inr ⟨_, ‹_›, ‹_›, rfl⟩)

/-! ### Semaphores -/

@[simp] theorem Semaphores.get_set (m : Semaphores) (j k : SemId) (n : Byte) :
    (m.set j n).get k = if k = j then n else m.get k := by
  cases j <;> cases k <;> rfl

@[simp] theorem State.permits_setPermits (s : State) (j k : SemId) (n : Byte) :
    (s.setPermits j n).permits k = if k = j then n else s.permits k :=
  Semaphores.get_set ..

/-- `TryLock` that succeeds (R162). -/
theorem tryLock_eq_some {k : SemId} {s t : State} :
    tryLock k s = some t ↔ s.permits k ≠ 0#8 ∧ t = s.setPermits k (s.permits k - 1#8) := by
  unfold tryLock
  split
  · simp [*]
  · exact ⟨fun h => ⟨‹_›, (Option.some.inj h).symm⟩, fun h => h.2 ▸ rfl⟩

theorem tryLock_eq_none {k : SemId} {s : State} : tryLock k s = none ↔ s.permits k = 0#8 := by
  unfold tryLock
  split <;> simp [*]

/-- `Release` raises the semaphore by one up to 255 (R164). -/
theorem permits_release (j k : SemId) (s : State) :
    (release j s).permits k =
      if k = j then (if (s.permits j).toNat < 255 then s.permits j + 1#8 else s.permits j) else s.permits k := by
  unfold release
  split
  · simp
  · split
    · subst_vars; rfl
    · rfl

/-- A lock taken and then released has the count it had. -/
theorem pred_lt_255 {n : Byte} (h : n ≠ 0#8) : (n - 1#8).toNat < 255 := by
  have := n.isLt
  have : n.toNat ≠ 0 := fun e => h (BitVec.eq_of_toNat_eq (by simpa using e))
  rw [BitVec.toNat_sub]
  simp
  omega

end Sys2Proof.Machine
end

