-- ==== Sys2Proof/Laws/Cycle.lean ====
section
/-! SUPPORT. What the cycle procedures and the hand-offs do, said once each. -/

namespace Sys2Proof.Machine

/-! ### `SameInputs`, `EngineOnly` -/

theorem SameInputs.trans {s t u : State} (h : SameInputs s t) (g : SameInputs t u) : SameInputs s u := by
  obtain ⟨a1, a2, a3, a4, a5, a6, a7, a8, a9⟩ := h
  exact ⟨g.1.trans a1, g.2.1.trans a2, g.2.2.1.trans a3, g.2.2.2.1.trans a4, g.2.2.2.2.1.trans a5,
    g.2.2.2.2.2.1.trans a6, g.2.2.2.2.2.2.1.trans a7, g.2.2.2.2.2.2.2.1.trans a8, g.2.2.2.2.2.2.2.2.trans a9⟩

theorem SameInputs.serving {s t : State} (h : SameInputs s t) : t.serving = s.serving := h.2.2.2.2.2.2.2.1

theorem EngineOnly.refl (s : State) : EngineOnly s s :=
  ⟨⟨rfl, rfl, rfl, rfl, rfl, rfl, rfl, rfl, rfl⟩, rfl, rfl, rfl, List.prefix_rfl⟩

theorem EngineOnly.trans {s t u : State} (h : EngineOnly s t) (g : EngineOnly t u) : EngineOnly s u := by
  obtain ⟨a, b, c, d, e⟩ := h
  obtain ⟨a', b', c', d', e'⟩ := g
  exact ⟨a.trans a', b'.trans b, c'.trans c, d'.trans d, e.trans e'⟩

/-- A change of the contexts, the semaphores and the interrupt bits only. -/
theorem EngineOnly.update (s : State) (r : RxContext) (t : TxContext) (m : Semaphores) (q : Irq) :
    EngineOnly s { s with rx := r, tx := t, sem := m, irq := q } :=
  ⟨⟨rfl, rfl, rfl, rfl, rfl, rfl, rfl, rfl, rfl⟩, rfl, rfl, rfl, List.prefix_rfl⟩

theorem emit_engineOnly (e : Event) (s : State) : EngineOnly s (s.emit e) :=
  ⟨⟨rfl, rfl, rfl, rfl, rfl, rfl, rfl, rfl, rfl⟩, rfl, rfl, rfl, List.prefix_append ..⟩

theorem setRxIrq_engineOnly (on : Bool) (s : State) : EngineOnly s (s.setRxIrq on) :=
  ⟨⟨rfl, rfl, rfl, rfl, rfl, rfl, rfl, rfl, rfl⟩, rfl, rfl, rfl, List.prefix_append ..⟩

theorem setTxIrq_engineOnly (on : Bool) (s : State) : EngineOnly s (s.setTxIrq on) :=
  ⟨⟨rfl, rfl, rfl, rfl, rfl, rfl, rfl, rfl, rfl⟩, rfl, rfl, rfl, List.prefix_append ..⟩

theorem release_engineOnly (k : SemId) (s : State) : EngineOnly s (release k s) := by
  unfold release
  split
  · exact ⟨⟨rfl, rfl, rfl, rfl, rfl, rfl, rfl, rfl, rfl⟩, rfl, rfl, rfl, List.prefix_rfl⟩
  · exact .refl s

theorem tryLock_engineOnly {k : SemId} {s t : State} (h : tryLock k s = some t) : EngineOnly s t := by
  obtain ⟨-, rfl⟩ := tryLock_eq_some.1 h
  exact ⟨⟨rfl, rfl, rfl, rfl, rfl, rfl, rfl, rfl, rfl⟩, rfl, rfl, rfl, List.prefix_rfl⟩

/-! ### Cycle starts -/

/-- `start_reception` (R181) in one equation. -/
theorem startReception_eq (h : Option Handle) (s : State) :
    startReception h s =
      if s.permits .rxProcess = 0#8 then none
      else some
        { s with
          sem := s.sem.set .rxProcess (s.permits .rxProcess - 1#8)
          rx := { s.rx with state := .init, expected := 0#24, received := 0#24, buf := h, inProgress := true,
                            ackSeen := false }
          irq := { s.irq with rxEn := true }
          events := s.events ++ [.rxIrqEnable] } := by
  unfold startReception tryLock
  split <;> rename_i heq <;> split at heq <;> simp_all
  subst heq; rfl

/-- `send_block` (R241) in one equation. -/
theorem sendBlock_eq (h : Option Handle) (t : BlockType) (s : State) :
    sendBlock h t s =
      if s.permits .txProcess = 0#8 then none
      else some
        { s with
          sem := s.sem.set .txProcess (s.permits .txProcess - 1#8)
          tx := { s.tx with done := false, inProgress := true, buf := h, blockType := t, state := .init,
                            ackReceived := false }
          irq := { s.irq with txEn := true }
          events := s.events ++ [.txIrqEnable] } := by
  unfold sendBlock tryLock
  split <;> rename_i heq <;> split at heq <;> simp_all
  subst heq; rfl

theorem startReception_engineOnly (h : Option Handle) (s : State) : EngineOnly s ((startReception h s).getD s) := by
  rw [startReception_eq]
  split
  · exact .refl s
  · exact ⟨⟨rfl, rfl, rfl, rfl, rfl, rfl, rfl, rfl, rfl⟩, rfl, rfl, rfl, List.prefix_append ..⟩

theorem sendBlock_engineOnly (h : Option Handle) (t : BlockType) (s : State) :
    EngineOnly s ((sendBlock h t s).getD s) := by
  rw [sendBlock_eq]
  split
  · exact .refl s
  · exact ⟨⟨rfl, rfl, rfl, rfl, rfl, rfl, rfl, rfl, rfl⟩, rfl, rfl, rfl, List.prefix_append ..⟩

/-- `start_reception` leaves the transmission engine alone. -/
@[simp] theorem startReception_tx (h : Option Handle) (s : State) : ((startReception h s).getD s).tx = s.tx := by
  rw [startReception_eq]; split <;> rfl

/-- `send_block` leaves the reception engine alone. -/
@[simp] theorem sendBlock_rx (h : Option Handle) (t : BlockType) (s : State) :
    ((sendBlock h t s).getD s).rx = s.rx := by
  rw [sendBlock_eq]; split <;> rfl

/-- `start_reception` touches no semaphore but `rx.process_lock`. -/
theorem startReception_permits (h : Option Handle) (s : State) {k : SemId} (hk : k ≠ .rxProcess) :
    ((startReception h s).getD s).permits k = s.permits k := by
  rw [startReception_eq]; split
  · rfl
  · simp [State.permits, hk]

/-- `send_block` touches no semaphore but `tx.process_lock`. -/
theorem sendBlock_permits (h : Option Handle) (t : BlockType) (s : State) {k : SemId} (hk : k ≠ .txProcess) :
    ((sendBlock h t s).getD s).permits k = s.permits k := by
  rw [sendBlock_eq]; split
  · rfl
  · simp [State.permits, hk]

/-! ### Cycle ends -/

/-- The events of an ended reception cycle (R201), before a restart's. -/
def endEvents (r : RxContext) : List Event :=
  (if r.ackSeen then [.ackReceivedByPeer] else []) ++ (typeEvent r.blockType).toList ++ [.blockReceived, .rxIrqDisable]

/-- `end_reception_cycle` (R200) up to its restart. -/
def endedReception (s : State) : State :=
  let t := release .rxProcess s
  { t with
    rx := { s.rx with inProgress := false }
    irq := { s.irq with rxEn := false }
    events := s.events ++ endEvents s.rx }

/-- `end_reception_cycle` (R200): the end, and the restart if an ACK is still awaited. -/
theorem endReceptionCycle_eq (s : State) :
    endReceptionCycle s =
      if s.rx.ackExpected then (startReception s.rx.buf (endedReception s)).getD (endedReception s)
      else endedReception s := by
  have hrel : ∀ t : State, release .rxProcess t =
      { t with sem := (release .rxProcess t).sem } := by
    intro t; unfold release; split <;> rfl
  unfold endReceptionCycle endedReception
  generalize hr : release .rxProcess s = u
  have hu := hrel s
  rw [hr] at hu
  subst hr
  rw [hu]
  simp only [endEvents]
  cases hA : s.rx.ackSeen <;> cases hT : s.rx.blockType <;>
    simp [State.emit, State.setRxIrq, typeEvent]

/-- `end_transmission_cycle` (R262) up to the owed `Ack`. -/
def endedTransmission (s : State) : State :=
  let t := release .txProcess s
  { t with tx := { s.tx with inProgress := false, done := true }, events := s.events ++ [.blockSent] }

/-- `end_transmission_cycle` (R262): the end, and the start of an owed `Ack`. -/
theorem endTransmissionCycle_eq (s : State) :
    endTransmissionCycle s =
      if s.tx.ackExpected then (sendBlock none .ack (endedTransmission s)).getD (endedTransmission s)
      else endedTransmission s := by
  have hrel : ∀ t : State, release .txProcess t = { t with sem := (release .txProcess t).sem } := by
    intro t; unfold release; split <;> rfl
  unfold endTransmissionCycle endedTransmission
  rw [hrel s]
  rfl

theorem endedReception_engineOnly (s : State) : EngineOnly s (endedReception s) := by
  obtain ⟨⟨h1, h2, h3, h4, h5, h6, h7, h8⟩, h9, h10, h11, -⟩ := release_engineOnly .rxProcess s
  exact ⟨⟨h1, h2, h3, h4, h5, h6, h7, h8⟩, h9, h10, h11, List.prefix_append ..⟩

theorem endedTransmission_engineOnly (s : State) : EngineOnly s (endedTransmission s) := by
  obtain ⟨⟨h1, h2, h3, h4, h5, h6, h7, h8⟩, h9, h10, h11, -⟩ := release_engineOnly .txProcess s
  exact ⟨⟨h1, h2, h3, h4, h5, h6, h7, h8⟩, h9, h10, h11, List.prefix_append ..⟩

theorem endReceptionCycle_engineOnly (s : State) : EngineOnly s (endReceptionCycle s) := by
  rw [endReceptionCycle_eq]
  split
  · exact (endedReception_engineOnly s).trans (startReception_engineOnly ..)
  · exact endedReception_engineOnly s

theorem endTransmissionCycle_engineOnly (s : State) : EngineOnly s (endTransmissionCycle s) := by
  rw [endTransmissionCycle_eq]
  split
  · exact (endedTransmission_engineOnly s).trans (sendBlock_engineOnly ..)
  · exact endedTransmission_engineOnly s

theorem disableTxIfIdle_engineOnly (s : State) : EngineOnly s (disableTxIfIdle s) := by
  unfold disableTxIfIdle
  split
  · exact setTxIrq_engineOnly ..
  · exact .refl s

/-- The end of a reception cycle leaves the transmission engine alone. -/
@[simp] theorem endReceptionCycle_tx (s : State) : (endReceptionCycle s).tx = s.tx := by
  have h : (endedReception s).tx = s.tx := by
    unfold endedReception release; split <;> rfl
  rw [endReceptionCycle_eq]; split <;> simp [h]

/-- The end of a transmission cycle leaves the reception engine alone. -/
@[simp] theorem endTransmissionCycle_rx (s : State) : (endTransmissionCycle s).rx = s.rx := by
  have h : (endedTransmission s).rx = s.rx := by
    unfold endedTransmission release; split <;> rfl
  rw [endTransmissionCycle_eq]; split <;> simp [h]

@[simp] theorem disableTxIfIdle_rx (s : State) : (disableTxIfIdle s).rx = s.rx := by
  unfold disableTxIfIdle; split <;> rfl

@[simp] theorem disableTxIfIdle_tx (s : State) : (disableTxIfIdle s).tx = s.tx := by
  unfold disableTxIfIdle; split <;> rfl

@[simp] theorem disableTxIfIdle_permits (s : State) (k : SemId) : (disableTxIfIdle s).permits k = s.permits k := by
  unfold disableTxIfIdle; split <;> rfl

theorem endReceptionCycle_permits (s : State) {k : SemId} (hk : k ≠ .rxProcess) :
    (endReceptionCycle s).permits k = s.permits k := by
  have h : (endedReception s).permits k = s.permits k := by
    show (release .rxProcess s).permits k = _
    rw [permits_release, if_neg hk]
  rw [endReceptionCycle_eq]
  split
  · rw [startReception_permits _ _ hk, h]
  · exact h

theorem endTransmissionCycle_permits (s : State) {k : SemId} (hk : k ≠ .txProcess) :
    (endTransmissionCycle s).permits k = s.permits k := by
  have h : (endedTransmission s).permits k = s.permits k := by
    show (release .txProcess s).permits k = _
    rw [permits_release, if_neg hk]
  rw [endTransmissionCycle_eq]
  split
  · rw [sendBlock_permits _ _ _ hk, h]
  · exact h

/-! ### Entry, exit, re-drives and hand-offs -/

/-- Entry (R349) answers the lock taken, `Busy` or `Error`. -/
theorem enterStep_cases (p f : Bool) (k : SemId) (s : State) :
    (p = true ∧ f = false ∧ s.permits k ≠ 0#8 ∧ enterStep p f k s = .ok (s.setPermits k (s.permits k - 1#8))) ∨
    (p = true ∧ f = false ∧ s.permits k = 0#8 ∧ enterStep p f k s = .error .busy) ∨
    ((p = false ∨ f = true) ∧ enterStep p f k s = .error .error) := by
  unfold enterStep tryLock
  cases p <;> cases f <;> simp
  split <;> simp_all

/-- A step that took the context lock and left it alone gives it back as it was (R350). -/
theorem exitStep_permits {k : SemId} {s t : State} (hs : s.permits k ≠ 0#8)
    (ht : t.permits k = s.permits k - 1#8) (j : SemId) :
    (exitStep k t).permits j = if j = k then s.permits k else t.permits j := by
  unfold exitStep
  rw [permits_release]
  split
  · rw [ht, if_pos (pred_lt_255 hs)]; simp
  · rfl

/-- The same, as an equation. -/
theorem exitStep_eq {k : SemId} {s t : State} (hs : s.permits k ≠ 0#8) (ht : t.permits k = s.permits k - 1#8) :
    exitStep k t = t.setPermits k (s.permits k) := by
  simp only [exitStep, release, ht, pred_lt_255 hs, if_true, BitVec.sub_add_cancel]

@[simp] theorem exitStep_rx (k : SemId) (s : State) : (exitStep k s).rx = s.rx := by
  unfold exitStep release; split <;> rfl

@[simp] theorem exitStep_tx (k : SemId) (s : State) : (exitStep k s).tx = s.tx := by
  unfold exitStep release; split <;> rfl

@[simp] theorem exitStep_irq (k : SemId) (s : State) : (exitStep k s).irq = s.irq := by
  unfold exitStep release; split <;> rfl

@[simp] theorem exitStep_events (k : SemId) (s : State) : (exitStep k s).events = s.events := by
  unfold exitStep release; split <;> rfl

theorem exitStep_engineOnly (k : SemId) (s : State) : EngineOnly s (exitStep k s) := release_engineOnly k s

/-- `redrive_tx` (R294): it ends a waiting cycle, or does nothing. -/
theorem redriveTx_engineOnly (s : State) : EngineOnly s (redriveTx s) := by
  unfold redriveTx
  rcases enterStep_cases s.tx.inProgress s.tx.fault .txContext s with ⟨-, -, -, h⟩ | ⟨-, -, -, h⟩ | ⟨-, h⟩ <;>
    rw [h] <;> simp only
  · refine .trans ?_ (exitStep_engineOnly ..)
    split
    · exact .trans (.trans (.trans (.update s s.rx _ _ s.irq) (.update _ s.rx _ _ s.irq))
        (endTransmissionCycle_engineOnly _)) (disableTxIfIdle_engineOnly _)
    · exact .update s s.rx s.tx _ s.irq
  · exact .refl s
  · exact .refl s

theorem transmittedAckAction_engineOnly (s : State) : EngineOnly s (transmittedAckAction s) :=
  .trans (.update s _ s.tx s.sem s.irq) (endReceptionCycle_engineOnly _)

/-- `redrive_rx` (R295): it ends a waiting cycle, or does nothing. -/
theorem redriveRx_engineOnly (s : State) : EngineOnly s (redriveRx s) := by
  unfold redriveRx
  rcases enterStep_cases s.rx.inProgress s.rx.fault .rxContext s with ⟨-, -, -, h⟩ | ⟨-, -, -, h⟩ | ⟨-, h⟩ <;>
    rw [h] <;> simp only
  · refine .trans ?_ (exitStep_engineOnly ..)
    split
    · exact .trans (.trans (.update s s.rx s.tx _ s.irq) (.update _ _ s.tx _ s.irq))
        (transmittedAckAction_engineOnly _)
    · exact .update s s.rx s.tx _ s.irq
  · exact .refl s
  · exact .refl s

theorem ackReceivedHandling_engineOnly (s : State) : EngineOnly s (ackReceivedHandling s) :=
  .trans (.update s _ _ s.sem s.irq) (redriveTx_engineOnly _)

theorem ackSentHandling_engineOnly (s : State) : EngineOnly s (ackSentHandling s) :=
  .trans (.update s _ _ s.sem s.irq) (redriveRx_engineOnly _)

theorem completion_engineOnly (s : State) : EngineOnly s (completion s) := by
  unfold completion
  split
  · split
    · exact .trans (.update s s.rx _ s.sem s.irq) (endTransmissionCycle_engineOnly _)
    · exact .trans (.update s _ _ s.sem s.irq) (startReception_engineOnly ..)
  · exact endTransmissionCycle_engineOnly s

/-- `redrive_tx` leaves the reception engine alone. -/
@[simp] theorem redriveTx_rx (s : State) : (redriveTx s).rx = s.rx := by
  unfold redriveTx
  rcases enterStep_cases s.tx.inProgress s.tx.fault .txContext s with ⟨-, -, -, h⟩ | ⟨-, -, -, h⟩ | ⟨-, h⟩ <;>
    rw [h] <;> simp only
  rw [exitStep_rx]
  split <;> simp

/-- `redrive_rx` leaves the transmission engine alone. -/
@[simp] theorem redriveRx_tx (s : State) : (redriveRx s).tx = s.tx := by
  unfold redriveRx
  rcases enterStep_cases s.rx.inProgress s.rx.fault .rxContext s with ⟨-, -, -, h⟩ | ⟨-, -, -, h⟩ | ⟨-, h⟩ <;>
    rw [h] <;> simp only
  rw [exitStep_tx]
  split <;> simp [transmittedAckAction]

/-- After ACK-received handling the reception engine differs in its two flags only (R292). -/
@[simp] theorem ackReceivedHandling_rx (s : State) :
    (ackReceivedHandling s).rx = { s.rx with ackExpected := false, ackSeen := true } := by
  simp [ackReceivedHandling]

/-- After ACK-sent handling the transmission engine differs in its flag only (R293). -/
@[simp] theorem ackSentHandling_tx (s : State) :
    (ackSentHandling s).tx = { s.tx with ackExpected := false } := by
  simp [ackSentHandling]

/-- A re-drive of transmission touches no semaphore but `tx.process_lock` (R294, R350). -/
theorem redriveTx_permits (s : State) {k : SemId} (hk : k ≠ .txProcess) :
    (redriveTx s).permits k = s.permits k := by
  unfold redriveTx
  rcases enterStep_cases s.tx.inProgress s.tx.fault .txContext s with ⟨-, -, hn, h⟩ | ⟨-, -, -, h⟩ | ⟨-, h⟩ <;>
    rw [h] <;> simp only
  rw [exitStep_permits hn]
  · split
    · subst_vars; rfl
    · split
      · rw [disableTxIfIdle_permits, endTransmissionCycle_permits _ hk]
        simp [State.permits, State.setPermits, *]
      · simp [*]
  · split
    · rw [disableTxIfIdle_permits, endTransmissionCycle_permits _ (by decide)]
      simp [State.permits, State.setPermits]
    · simp

/-- A re-drive of reception touches no semaphore but `rx.process_lock` (R295, R350). -/
theorem redriveRx_permits (s : State) {k : SemId} (hk : k ≠ .rxProcess) :
    (redriveRx s).permits k = s.permits k := by
  unfold redriveRx
  rcases enterStep_cases s.rx.inProgress s.rx.fault .rxContext s with ⟨-, -, hn, h⟩ | ⟨-, -, -, h⟩ | ⟨-, h⟩ <;>
    rw [h] <;> simp only
  rw [exitStep_permits hn]
  · split
    · subst_vars; rfl
    · split
      · rw [transmittedAckAction, endReceptionCycle_permits _ hk]
        simp [State.permits, State.setPermits, *]
      · simp [*]
  · split
    · rw [transmittedAckAction, endReceptionCycle_permits _ (by decide)]
      simp [State.permits, State.setPermits]
    · simp

theorem ackReceivedHandling_permits (s : State) {k : SemId} (hk : k ≠ .txProcess) :
    (ackReceivedHandling s).permits k = s.permits k := by
  rw [ackReceivedHandling, redriveTx_permits _ hk]; rfl

theorem ackSentHandling_permits (s : State) {k : SemId} (hk : k ≠ .rxProcess) :
    (ackSentHandling s).permits k = s.permits k := by
  rw [ackSentHandling, redriveRx_permits _ hk]; rfl

/-- The completion procedure touches the two process locks only (R260). -/
theorem completion_permits (s : State) {k : SemId} (h1 : k ≠ .rxProcess) (h2 : k ≠ .txProcess) :
    (completion s).permits k = s.permits k := by
  unfold completion
  split
  · split
    · rw [endTransmissionCycle_permits _ h2]; rfl
    · rw [startReception_permits _ _ h1]; rfl
  · rw [endTransmissionCycle_permits _ h2]

/-! ### Re-drives in one equation -/

/-- R246 wait rows and R258: with `tx.ack_received` set, `RcvdAck` comes next in the two wait states only. -/
theorem txNext_ackReceived {t : TxContext} (h : t.ackReceived = true) (occ : Len) :
    txNext t occ = .goto .rcvdAck ↔ t.state = .check ∨ t.state = .ackCheck := by
  cases hs : t.state <;> simp [txNext, txWaitNext, hs, h] <;> split <;> simp

/-- R186 wait rows: with `rx.ack_tx_done` set, `TransmittedAck` comes next in the two wait states only. -/
theorem rxNext_ackTxDone {r : RxContext} (h : r.ackTxDone = true) :
    rxNext r = some .transmittedAck ↔ r.state = .check ∨ r.state = .ackCheck := by
  cases hs : r.state <;> simp [rxNext, hs, h] <;> split <;> simp

@[simp] theorem Semaphores.set_get (m : Semaphores) (k : SemId) : m.set k (m.get k) = m := by cases k <;> rfl

@[simp] theorem Semaphores.set_set (m : Semaphores) (k : SemId) (n n' : Byte) :
    (m.set k n).set k n' = m.set k n' := by cases k <;> rfl

theorem Semaphores.set_comm (m : Semaphores) {j k : SemId} (h : j ≠ k) (n n' : Byte) :
    (m.set j n).set k n' = (m.set k n').set j n := by cases j <;> cases k <;> first | exact absurd rfl h | rfl

/-- A step that does nothing under the context lock leaves the state as it was (R350). -/
theorem exitStep_setPermits {k : SemId} {s : State} (h : s.permits k ≠ 0#8) (n : Byte)
    (hn : n = s.permits k - 1#8) : exitStep k (s.setPermits k n) = s := by
  subst hn
  rw [exitStep_eq h (by simp)]
  simp [State.setPermits, State.permits]

/-- The end of a reception cycle does not look at a semaphore but `rx.process_lock`. -/
theorem endReceptionCycle_setPermits (s : State) {k : SemId} (hk : k ≠ .rxProcess) (n : Byte) :
    endReceptionCycle (s.setPermits k n) = (endReceptionCycle s).setPermits k n := by
  have hp : ∀ t : State, (t.setPermits k n).permits .rxProcess = t.permits .rxProcess := fun t => by
    simp [State.permits, State.setPermits, hk.symm]
  have he : endedReception (s.setPermits k n) = (endedReception s).setPermits k n := by
    unfold endedReception release
    rw [hp]; split <;> simp [State.setPermits, Semaphores.set_comm _ hk]
  rw [endReceptionCycle_eq, endReceptionCycle_eq, he]
  simp only [startReception_eq, hp, State.setPermits_rx]
  split
  · split
    · rfl
    · simp [State.setPermits, Semaphores.set_comm _ hk]
  · rfl

/-- The end of a transmission cycle does not look at a semaphore but `tx.process_lock`. -/
theorem endTransmissionCycle_setPermits (s : State) {k : SemId} (hk : k ≠ .txProcess) (n : Byte) :
    endTransmissionCycle (s.setPermits k n) = (endTransmissionCycle s).setPermits k n := by
  have hp : ∀ t : State, (t.setPermits k n).permits .txProcess = t.permits .txProcess := fun t => by
    simp [State.permits, State.setPermits, hk.symm]
  have he : endedTransmission (s.setPermits k n) = (endedTransmission s).setPermits k n := by
    unfold endedTransmission release
    rw [hp]; split <;> simp [State.setPermits, Semaphores.set_comm _ hk]
  rw [endTransmissionCycle_eq, endTransmissionCycle_eq, he]
  simp only [sendBlock_eq, hp, State.setPermits_tx]
  split
  · split
    · rfl
    · simp [State.setPermits, Semaphores.set_comm _ hk]
  · rfl

/-- `redrive_rx` with its flag set (R295): the wait state ends its cycle, or nothing happens. -/
theorem redriveRx_eq {s : State} (hd : s.rx.ackTxDone = true) :
    redriveRx s =
      if RxRedriven s then
        endReceptionCycle { s with rx := { s.rx with state := .transmittedAck, ackTxDone := false } }
      else s := by
  unfold redriveRx
  rcases enterStep_cases s.rx.inProgress s.rx.fault .rxContext s with ⟨h1, h2, hn, e⟩ | ⟨-, -, h0, e⟩ | ⟨hr, e⟩ <;>
    rw [e] <;> simp only
  · simp only [State.setPermits_rx, rxNext_ackTxDone hd]
    split <;> rename_i hs
    · rw [if_pos ⟨⟨h1, h2, hn⟩, hs⟩]
      have := endReceptionCycle_setPermits
        { s with rx := { s.rx with state := .transmittedAck, ackTxDone := false } } (k := .rxContext) (by decide)
        (s.permits .rxContext - 1#8)
      refine (congrArg (exitStep .rxContext) this).trans (exitStep_setPermits ?_ _ ?_) <;>
        rw [endReceptionCycle_permits _ (by decide)]
      · exact hn
      · rfl
    · rw [if_neg fun h => hs h.2, exitStep_setPermits hn _ rfl]
  · rw [if_neg fun h => h.1.2.2 h0]
  · rw [if_neg]
    rintro ⟨⟨h1, h2, -⟩, -⟩
    simp [h1, h2] at hr

/-- `redrive_tx` with its flag set (R294): the wait state ends its cycle, or nothing happens. -/
theorem redriveTx_eq {s : State} (hd : s.tx.ackReceived = true) :
    redriveTx s =
      if TxRedriven s then disableTxIfIdle (endTransmissionCycle { s with tx := { s.tx with state := .rcvdAck } })
      else s := by
  have hdis : ∀ (t : State) (n : Byte),
      disableTxIfIdle (t.setPermits .txContext n) = (disableTxIfIdle t).setPermits .txContext n := fun t n => by
    by_cases h : t.tx.done = true ∨ t.tx.inProgress = false
    · rw [show disableTxIfIdle t = t.setTxIrq false from if_pos h]; exact if_pos h
    · rw [show disableTxIfIdle t = t from if_neg h]; exact if_neg h
  unfold redriveTx
  rcases enterStep_cases s.tx.inProgress s.tx.fault .txContext s with ⟨h1, h2, hn, e⟩ | ⟨-, -, h0, e⟩ | ⟨hr, e⟩ <;>
    rw [e] <;> simp only
  · simp only [State.setPermits_tx, txNext_ackReceived hd]
    split <;> rename_i hs
    · rw [if_pos ⟨⟨h1, h2, hn⟩, hs⟩]
      have := endTransmissionCycle_setPermits { s with tx := { s.tx with state := .rcvdAck } } (k := .txContext)
        (by decide) (s.permits .txContext - 1#8)
      have hx := (congrArg disableTxIfIdle this).trans (hdis _ _)
      refine (congrArg (exitStep .txContext) hx).trans (exitStep_setPermits ?_ _ ?_) <;>
        rw [disableTxIfIdle_permits, endTransmissionCycle_permits _ (by decide)]
      · exact hn
      · rfl
    · rw [if_neg fun h => hs h.2, exitStep_setPermits hn _ rfl]
  · rw [if_neg fun h => h.1.2.2 h0]
  · rw [if_neg]
    rintro ⟨⟨h1, h2, -⟩, -⟩
    simp [h1, h2] at hr

end Sys2Proof.Machine
end

