-- ==== Sys2Proof/Laws/Decode.lean ====
section
/-! SUPPORT. Laws of the encoding tables, of the fields of a command word and of the length bytes. -/

namespace Sys2Proof

/-! ### Tables -/

@[simp] theorem opOfCode_code (o : Op) : opOfCode o.code = some o := by cases o <;> rfl

@[simp] theorem semOfSel_number (k : SemId) : semOfSel k.number = some k := by cases k <;> rfl

@[simp] theorem handleOfSel_selOfHandle (b : Handle) : handleOfSel (selOfHandle b) = some b := by revert b; decide

@[simp] theorem bindingOfSel_selOfBinding (h : Option Handle) : bindingOfSel (selOfBinding h) = some h := by
  revert h; decide

@[simp] theorem typeOfCode_tag (t : BlockType) : typeOfCode t.tag = some t := by cases t <;> rfl

@[simp] theorem typeOfControl_tag (t : BlockType) : typeOfControl t.tag = t := by cases t <;> rfl

theorem operand_some {α : Type} (a : α) (why : Illegal) (mk : α → Instr) :
    operand (some a) why mk = .ok (mk a) := rfl

theorem operand_none {α : Type} (why : Illegal) (mk : α → Instr) : operand none why mk = .error why := rfl

/-- R101: a code with an operation is that operation's. -/
theorem opOfCode_eq_some {c : Byte} {o : Op} (h : opOfCode c = some o) : o.code = c := by
  simpa using List.find?_some h

/-- R110: a code with a type is that type's control byte. -/
theorem typeOfCode_eq_some {c : Byte} {t : BlockType} (h : typeOfCode c = some t) : t.tag = c := by
  simpa using List.find?_some h

/-- R110: the codes without a type. -/
theorem typeOfCode_eq_none {c : Byte} : typeOfCode c = none ↔ 0x07 ≤ c.toNat := by
  revert c; decide

/-- R116: a control byte from 0x07 on is `Unknown`. -/
theorem typeOfControl_of_ge {c : Byte} (h : 0x07 ≤ c.toNat) : typeOfControl c = .unknown := by
  rw [typeOfControl, typeOfCode_eq_none.2 h]; rfl

/-- R110, R116: what a classified control byte is. -/
theorem typeOfControl_eq {c : Byte} {t : BlockType} (h : typeOfControl c = t) :
    c = t.tag ∨ (0x07 ≤ c.toNat ∧ t = .unknown) := by
  unfold typeOfControl at h
  cases hc : typeOfCode c with
  | none => rw [hc] at h; exact .inr ⟨typeOfCode_eq_none.1 hc, h.symm⟩
  | some u => rw [hc] at h; cases h; exact .inl (typeOfCode_eq_some hc).symm

/-! ### Fields of a command word (R100) -/

theorem cmdWord_toNat (o : Op) (x y : Byte) :
    (cmdWord o x y).toNat = o.code.toNat * 2 ^ 16 + x.toNat * 2 ^ 8 + y.toNat := by
  have hx := x.isLt
  have hy := y.isLt
  show ((o.code ++ x) ++ y : BitVec (8 + 8 + 8)).toNat = _
  rw [BitVec.toNat_append, BitVec.toNat_append, ← Nat.shiftLeft_add_eq_or_of_lt (by omega),
    ← Nat.shiftLeft_add_eq_or_of_lt (by omega)]
  simp only [Nat.shiftLeft_eq]; omega

@[simp] theorem op_cmdWord (o : Op) (x y : Byte) : CmdWord.op (cmdWord o x y) = o.code := by
  have := x.isLt; have := y.isLt; have := o.code.isLt
  apply BitVec.eq_of_toNat_eq
  simp only [CmdWord.op, BitVec.extractLsb'_toNat, Nat.shiftRight_eq_div_pow, cmdWord_toNat]; omega

@[simp] theorem sel_cmdWord (o : Op) (x y : Byte) : CmdWord.sel (cmdWord o x y) = x := by
  have := x.isLt; have := y.isLt; have := o.code.isLt
  apply BitVec.eq_of_toNat_eq
  simp only [CmdWord.sel, BitVec.extractLsb'_toNat, Nat.shiftRight_eq_div_pow, cmdWord_toNat]; omega

@[simp] theorem imm_cmdWord (o : Op) (x y : Byte) : CmdWord.imm (cmdWord o x y) = y := by
  have := x.isLt; have := y.isLt; have := o.code.isLt
  apply BitVec.eq_of_toNat_eq
  simp only [CmdWord.imm, BitVec.extractLsb'_toNat, Nat.shiftRight_eq_div_pow, cmdWord_toNat]; omega

/-! ### Length bytes (R92) -/

theorem lenOfBytes_toNat (a b c : Byte) :
    (lenOfBytes a b c).toNat = a.toNat * 2 ^ 16 + b.toNat * 2 ^ 8 + c.toNat := by
  have ha := a.isLt; have hb := b.isLt; have hc := c.isLt
  unfold lenOfBytes
  simp only [BitVec.toNat_or, BitVec.toNat_shiftLeft, BitVec.toNat_setWidth, Nat.mod_eq_of_lt (a := a.toNat) (b := 2 ^ 24) (by omega),
    Nat.mod_eq_of_lt (a := b.toNat) (b := 2 ^ 24) (by omega), Nat.mod_eq_of_lt (a := c.toNat) (b := 2 ^ 24) (by omega)]
  have h1 : a.toNat <<< 16 % 2 ^ 24 = (a.toNat <<< 8) <<< 8 := by simp only [Nat.shiftLeft_eq]; omega
  have h2 : b.toNat <<< 8 % 2 ^ 24 = b.toNat <<< 8 := by simp only [Nat.shiftLeft_eq]; omega
  rw [h1, h2, ← Nat.shiftLeft_or_distrib, ← Nat.shiftLeft_add_eq_or_of_lt (by omega),
    ← Nat.shiftLeft_add_eq_or_of_lt (by omega)]
  simp only [Nat.shiftLeft_eq]; omega

@[simp] theorem lenOfBytes_len (n : Len) : lenOfBytes (len1 n) (len2 n) (len3 n) = n := by
  apply BitVec.eq_of_toNat_eq
  rw [lenOfBytes_toNat]
  simp only [len1, len2, len3, BitVec.extractLsb'_toNat, Nat.shiftRight_eq_div_pow]
  have := n.isLt; omega

end Sys2Proof
end

