-- ==== Sys2Proof/Laws/Ring.lean ====
section
/-! SUPPORT. The ring-buffer invariant (R42, R43) and the queue a buffer holds (R147). -/

namespace Sys2Proof.Machine

theorem mod_of_lt_two_mul {x c : Nat} (h : x < 2 * c) : x % c = if x < c then x else x - c := by
  split
  · exact Nat.mod_eq_of_lt ‹_›
  · rw [Nat.mod_eq_sub_mod (by omega)]; exact Nat.mod_eq_of_lt (by omega)

theorem toNat_ne_zero_iff {n : Len} : n ≠ 0#24 ↔ 0 < n.toNat := by
  rw [← BitVec.toNat_ne_iff_ne]; simp [Nat.pos_iff_ne_zero]

/-- R91 as numbers. -/
theorem nextIndex_toNat {c : Len} (i : Len) (hc : 0 < c.toNat) : (nextIndex c i).toNat = (i.toNat + 1) % c.toNat := by
  have h1 := Nat.mod_lt (i.toNat + 1) hc
  have h2 := c.isLt
  simp only [nextIndex, BitVec.toNat_ofNat]
  exact Nat.mod_eq_of_lt (by omega)

/-- One buffer's part of `RingInv`. -/
abbrev RingBuffer.Ok (c : Len) (q : RingBuffer) : Prop := q.InRange c ∧ q.Occupancy c ∧ q.Stored c

/-- R42's invariant says where the next byte goes: `size` places after the oldest. -/
theorem RingBuffer.occupancy_iff {c : Len} {q : RingBuffer} (h : q.InRange c) :
    q.Occupancy c ↔ q.writeIndex.toNat = (q.readIndex.toNat + q.size.toNat) % c.toNat := by
  obtain ⟨h1, h2, h3⟩ := h
  rw [mod_of_lt_two_mul (by omega)]
  unfold RingBuffer.Occupancy
  by_cases hs : q.size = c
  · have : q.size.toNat = c.toNat := by rw [hs]
    rw [if_pos hs, ← BitVec.toNat_inj]
    split <;> omega
  · have hs' : q.size.toNat ≠ c.toNat := fun e => hs (BitVec.eq_of_toNat_eq e)
    rw [if_neg hs, mod_of_lt_two_mul (by omega)]
    split <;> split <;> omega

theorem RingBuffer.size_succ {c : Len} {q : RingBuffer} (h : q.size.toNat ≤ c.toNat) (hs : q.size ≠ c) :
    (q.size + 1#24).toNat = q.size.toNat + 1 := by
  have h1 : q.size.toNat ≠ c.toNat := fun e => hs (BitVec.eq_of_toNat_eq e)
  have h2 := c.isLt
  rw [BitVec.toNat_add]
  simp
  omega

theorem RingBuffer.size_pred {q : RingBuffer} (hs : q.size ≠ 0#24) :
    (q.size - 1#24).toNat = q.size.toNat - 1 := by
  have h1 := toNat_ne_zero_iff.1 hs
  have h2 := q.size.isLt
  rw [BitVec.toNat_sub]
  simp
  omega

/-- The index `k` places after `i`. -/
theorem add_one_mod_add (i k c : Nat) : ((i + 1) % c + k) % c = (i + (k + 1)) % c := by
  rw [Nat.mod_add_mod]; congr 1; omega

/-- Places of an occupied run are distinct. -/
theorem place_ne {r k n c : Nat} (hr : r < c) (hk : k < n) (hn : n < c) : (r + k) % c ≠ (r + n) % c := by
  rw [mod_of_lt_two_mul (by omega), mod_of_lt_two_mul (by omega)]
  split <;> split <;> omega

/-- An enqueue that succeeds keeps the invariant. -/
theorem RingBuffer.ok_enqueue {c : Len} {q : RingBuffer} (h : q.Ok c) (hs : q.size ≠ c) (v : Byte) :
    (q.enqueue c v).Ok c := by
  obtain ⟨hr, ho, hw, hb, hv⟩ := h
  have hocc := (occupancy_iff hr).1 ho
  obtain ⟨h1, h2, h3⟩ := hr
  have hc : 0 < c.toNat := by omega
  have hlt : q.size.toNat < c.toNat := Nat.lt_of_le_of_ne h3 fun e => hs (BitVec.eq_of_toNat_eq e)
  have hsz := size_succ h3 hs
  have hrange : (q.enqueue c v).InRange c := by
    refine ⟨h1, ?_, ?_⟩
    · show (nextIndex c q.writeIndex).toNat < _
      rw [nextIndex_toNat _ hc]; exact Nat.mod_lt _ hc
    · show (q.size + 1#24).toNat ≤ _
      omega
  refine ⟨hrange, (occupancy_iff hrange).2 ?_, Memory.wf_write hw .., ?_, ?_⟩
  · show (nextIndex c q.writeIndex).toNat = (q.readIndex.toNat + (q.size + 1#24).toNat) % c.toNat
    rw [nextIndex_toNat _ hc, hocc, hsz, Nat.mod_add_mod, Nat.add_assoc]
  · intro x hx
    rcases Memory.mem_write hx with rfl | hx
    · exact h2
    · exact hb x hx
  · intro k hk
    replace hk : k < (q.size + 1#24).toNat := hk
    show (Memory.read (Memory.write q.store q.writeIndex.toNat v) ((q.readIndex.toNat + k) % c.toNat)).isSome = true
    rw [Memory.read_write]
    split
    · rfl
    · rename_i hne
      by_cases hkn : k = q.size.toNat
      · rw [hkn] at hne; exact absurd hocc hne
      · exact hv k (by omega)

/-- A dequeue that succeeds keeps the invariant. -/
theorem RingBuffer.ok_dequeue {c : Len} {q : RingBuffer} (h : q.Ok c) (hs : q.size ≠ 0#24) : (q.dequeue c).Ok c := by
  obtain ⟨hr, ho, hw, hb, hv⟩ := h
  have hocc := (occupancy_iff hr).1 ho
  obtain ⟨h1, h2, h3⟩ := hr
  have hc : 0 < c.toNat := by omega
  have hsz := size_pred hs
  have hpos := toNat_ne_zero_iff.1 hs
  have hrange : (q.dequeue c).InRange c := by
    refine ⟨?_, h2, ?_⟩
    · show (nextIndex c q.readIndex).toNat < _
      rw [nextIndex_toNat _ hc]; exact Nat.mod_lt _ hc
    · show (q.size - 1#24).toNat ≤ _
      omega
  refine ⟨hrange, (occupancy_iff hrange).2 ?_, hw, hb, ?_⟩
  · show q.writeIndex.toNat = ((nextIndex c q.readIndex).toNat + (q.size - 1#24).toNat) % c.toNat
    rw [nextIndex_toNat _ hc, hsz, add_one_mod_add, hocc]
    congr 2; omega
  · intro k hk
    replace hk : k < (q.size - 1#24).toNat := hk
    show (Memory.read q.store (((nextIndex c q.readIndex).toNat + k) % c.toNat)).isSome = true
    rw [nextIndex_toNat _ hc, add_one_mod_add]
    exact hv (k + 1) (by omega)

/-- A reset buffer meets the invariant whatever its storage holds within `0 .. C-1`. -/
theorem RingBuffer.ok_reset {c : Len} {m : Memory} (hc : 0 < c.toNat) (hw : Memory.wf m)
    (hb : ∀ x ∈ m, x.1 < c.toNat) : (⟨0#24, 0#24, 0#24, m⟩ : RingBuffer).Ok c := by
  have hr : (⟨0#24, 0#24, 0#24, m⟩ : RingBuffer).InRange c := ⟨hc, hc, Nat.zero_le _⟩
  refine ⟨hr, (occupancy_iff hr).2 ?_, hw, hb, ?_⟩
  · show 0 = (0 + 0) % c.toNat
    simp
  · intro k hk
    exact absurd hk (Nat.not_lt_zero _)

/-! ### The queue a buffer holds -/

/-- A reset buffer holds nothing. -/
theorem RingBuffer.contents_empty {c : Len} {q : RingBuffer} (h : q.size = 0#24) : q.contents c = [] := by
  simp [contents, h]

@[simp] theorem RingBuffer.contents_length (c : Len) (q : RingBuffer) : (q.contents c).length = q.size.toNat := by
  simp [contents]

/-- An enqueue that succeeds appends its byte. -/
theorem RingBuffer.contents_enqueue {c : Len} {q : RingBuffer} (h : q.Ok c) (hs : q.size ≠ c) (v : Byte) :
    (q.enqueue c v).contents c = q.contents c ++ [some v] := by
  obtain ⟨hr, ho, -⟩ := h
  have hocc := (occupancy_iff hr).1 ho
  obtain ⟨h1, h2, h3⟩ := hr
  have hlt : q.size.toNat < c.toNat := Nat.lt_of_le_of_ne h3 fun e => hs (BitVec.eq_of_toNat_eq e)
  have hsz := size_succ h3 hs
  unfold contents enqueue
  simp only [hsz, List.range_succ, List.map_append, List.map_cons, List.map_nil, Memory.read_write]
  congr 1
  · refine List.map_congr_left fun k hk => ?_
    rw [if_neg]
    rw [hocc]
    exact fun e => place_ne h1 (List.mem_range.1 hk) hlt e.symm
  · rw [if_pos hocc]

/-- A dequeue that succeeds takes the oldest byte. -/
theorem RingBuffer.contents_dequeue {c : Len} {q : RingBuffer} (h : q.Ok c) (hs : q.size ≠ 0#24) :
    q.contents c = Memory.read q.store q.readIndex.toNat :: (q.dequeue c).contents c := by
  obtain ⟨⟨h1, h2, h3⟩, -⟩ := h
  have hpos := toNat_ne_zero_iff.1 hs
  have hsz := size_pred hs
  have hn : q.size.toNat = (q.size - 1#24).toNat + 1 := by omega
  unfold contents dequeue
  simp only
  rw [hn, List.range_succ_eq_map, List.map_cons, List.map_map]
  congr 1
  · rw [Nat.add_zero, Nat.mod_eq_of_lt h1]
  · refine List.map_congr_left fun k _ => ?_
    simp only [Function.comp_apply, nextIndex_toNat _ (by omega : 0 < c.toNat), add_one_mod_add, Nat.succ_eq_add_one]

/-- Under the invariant a buffer that is not empty has an oldest byte (R43). -/
theorem RingBuffer.oldest_isSome {c : Len} {q : RingBuffer} (h : q.Ok c) (hs : q.size ≠ 0#24) :
    ∃ v, Memory.read q.store q.readIndex.toNat = some v := by
  obtain ⟨⟨h1, -⟩, -, -, -, hv⟩ := h
  have := hv 0 (toNat_ne_zero_iff.1 hs)
  rw [Nat.add_zero, Nat.mod_eq_of_lt h1] at this
  exact Option.isSome_iff_exists.1 this

/-! ### The bank -/

/-- A change of one buffer keeps the invariant if the new buffer meets it. -/
theorem RingInv.setBuf {s : State} (h : RingInv s) (b : Handle) {q : RingBuffer} (hq : q.Ok s.capacity) :
    RingInv (s.setBuf b q) := by
  intro c
  rw [State.buf_setBuf]
  split
  · exact hq
  · exact h c

/-- The invariant is about the bank and the capacity only. -/
theorem RingInv.congr {s t : State} (h : RingInv s) (hc : t.capacity = s.capacity) (hr : t.rb = s.rb) : RingInv t := by
  intro b
  have : t.buf b = s.buf b := by simp only [State.buf, hr]
  rw [this, hc]
  exact h b

theorem RingInv.capacity_pos {s : State} (h : RingInv s) : 0 < s.capacity.toNat :=
  Nat.lt_of_le_of_lt (Nat.zero_le _) (h 0).1.1

theorem RingInv.rbReset {s : State} (h : RingInv s) (b : Handle) : RingInv (rbReset b s) :=
  h.setBuf b (RingBuffer.ok_reset h.capacity_pos (h b).2.2.1 (h b).2.2.2.1)

theorem RingInv.rbEnqueue {s t : State} (h : RingInv s) {b : Handle} {v : Byte} (ht : rbEnqueue b v s = some t) :
    RingInv t := by
  obtain ⟨hs, rfl⟩ := rbEnqueue_eq_some.1 ht
  exact h.setBuf b (RingBuffer.ok_enqueue (h b) hs v)

/-- Under the invariant `RbDequeue` never stops: `Empty`, or the oldest byte and the invariant (R43, R143). -/
theorem RingInv.rbDequeue {s : State} (h : RingInv s) (b : Handle) :
    ((s.buf b).size = 0#24 ∧ rbDequeue b s = .ok none) ∨
    ∃ v t, (s.buf b).size ≠ 0#24 ∧ Memory.read (s.buf b).store (s.buf b).readIndex.toNat = some v ∧
      t = s.setBuf b ((s.buf b).dequeue s.capacity) ∧ rbDequeue b s = .ok (some (v, t)) ∧ RingInv t := by
  rcases rbDequeue_cases b s with h' | ⟨hs, hn, -⟩ | ⟨v, hs, hv, he⟩
  · exact .inl h'
  · obtain ⟨v, hv⟩ := RingBuffer.oldest_isSome (h b) hs
    rw [hv] at hn; cases hn
  · exact .inr ⟨v, _, hs, hv, rfl, he, h.setBuf b (RingBuffer.ok_dequeue (h b) hs)⟩

end Sys2Proof.Machine
end

