-- ==== Sys2Proof/Laws/Engine.lean ====
section
/-! SUPPORT. What the byte steps of the two engines do, said once each. -/

namespace Sys2Proof.Machine

/-! ### Changes that answer nothing and push nothing -/

/-- The part of `EngineOnly` that also holds of the payload steps, which touch the bank. -/
abbrev Quiet (s t : State) : Prop :=
  SameInputs s t ∧ t.responses = s.responses ∧ t.wireOut = s.wireOut ∧ s.events <+: t.events

theorem EngineOnly.quiet {s t : State} (h : EngineOnly s t) : Quiet s t := ⟨h.1, h.2.2.1, h.2.2.2.1, h.2.2.2.2⟩

theorem Quiet.refl (s : State) : Quiet s s := (EngineOnly.refl s).quiet

theorem Quiet.trans {s t u : State} (h : Quiet s t) (g : Quiet t u) : Quiet s u := by
  obtain ⟨a, c, d, e⟩ := h
  obtain ⟨a', c', d', e'⟩ := g
  exact ⟨a.trans a', c'.trans c, d'.trans d, e.trans e'⟩

theorem setBuf_quiet (s : State) (b : Handle) (q : RingBuffer) : Quiet s (s.setBuf b q) :=
  ⟨⟨rfl, rfl, rfl, rfl, rfl, rfl, rfl, rfl, rfl⟩, rfl, rfl, List.prefix_rfl⟩

/-! ### Reception -/

/-- The context locks are no business of an entry action. -/
abbrev ContextLock (k : SemId) : Prop := k = .rxContext ∨ k = .txContext

theorem ContextLock.ne_rxProcess {k : SemId} (h : ContextLock k) : k ≠ .rxProcess := by
  rcases h with rfl | rfl <;> decide

theorem ContextLock.ne_txProcess {k : SemId} (h : ContextLock k) : k ≠ .txProcess := by
  rcases h with rfl | rfl <;> decide

/-- What the `CtrlByte` action can do (R187): a bound buffer is reset for a `Data` block only. -/
theorem rxCtrlByteAction_cases (v : Byte) (s : State) :
    (∃ b, typeOfControl v = .data ∧ s.rx.buf = some b ∧
      rxCtrlByteAction v s = rbReset b { s with rx := { s.rx with blockType := .data } }) ∨
    ((typeOfControl v ≠ .data ∨ s.rx.buf = none) ∧
      rxCtrlByteAction v s = { s with rx := { s.rx with blockType := typeOfControl v } }) := by
  unfold rxCtrlByteAction
  by_cases ht : typeOfControl v = .data
  · cases hb : s.rx.buf with
    | none => exact .inr ⟨.inr rfl, by simp [ht, hb]⟩
    | some b => exact .inl ⟨b, ht, rfl, by simp [ht, hb]⟩
  · exact .inr ⟨.inl ht, by simp [ht]⟩

/-- The `Check` action (R190) inside the engines. -/
theorem rxCheckAction_engineOnly (s : State) : EngineOnly s (rxCheckAction s) := by
  unfold rxCheckAction
  split
  · exact (ackReceivedHandling_engineOnly s).trans (endReceptionCycle_engineOnly _)
  · split
    · exact endReceptionCycle_engineOnly s
    · exact .trans (.update s s.rx _ s.sem s.irq) (sendBlock_engineOnly ..)

theorem rxAckCheckAction_engineOnly (s : State) : EngineOnly s (rxAckCheckAction s) := by
  unfold rxAckCheckAction
  refine .trans (ackReceivedHandling_engineOnly s) ?_
  simp only
  split
  · exact transmittedAckAction_engineOnly _
  · split
    · exact .refl _
    · exact endReceptionCycle_engineOnly _

theorem raiseRx_engineOnly (s : State) : EngineOnly s (raiseRx s).1 := .update s _ s.tx s.sem s.irq

theorem rxAckCtrlByteAction_engineOnly (p : RxState) (v : Byte) (s : State) :
    EngineOnly s (rxAckCtrlByteAction p v s).1 := by
  unfold rxAckCtrlByteAction
  split
  · exact raiseRx_engineOnly s
  · split
    · exact .update s _ s.tx s.sem s.irq
    · exact .refl s

/-- What the `Data` action can do (R189). -/
theorem rxDataAction_cases (v : Byte) (s : State) :
    (s.rx.buf = none ∧ rxDataAction v s = (countReceived s, .ok)) ∨
    (∃ b, s.rx.buf = some b ∧ (s.buf b).size = s.capacity ∧ rxDataAction v s = raiseRx s) ∨
    ∃ b, s.rx.buf = some b ∧ (s.buf b).size ≠ s.capacity ∧
      rxDataAction v s = (countReceived (s.setBuf b ((s.buf b).enqueue s.capacity v)), .ok) := by
  unfold rxDataAction
  cases hb : s.rx.buf with
  | none => exact .inl ⟨rfl, rfl⟩
  | some b =>
    refine .inr ?_
    by_cases hs : (s.buf b).size = s.capacity
    · refine .inl ⟨b, rfl, hs, ?_⟩
      simp only [rbEnqueue_eq_none.2 hs]
    · refine .inr ⟨b, rfl, hs, ?_⟩
      simp only [rbEnqueue_eq_some.2 ⟨hs, rfl⟩]

/-- Every entry action of reception but `CtrlByte` and `Data` leaves the bank alone. -/
theorem rxAction_engineOnly {n : RxState} (h1 : n ≠ .ctrlByte) (h2 : n ≠ .data) (p : RxState) (v : Byte) (s : State) :
    EngineOnly s (rxAction n p v s).1 := by
  cases n <;> first
    | exact absurd rfl h1
    | exact absurd rfl h2
    | exact .update s _ s.tx s.sem s.irq
    | exact rxCheckAction_engineOnly s
    | exact rxAckCtrlByteAction_engineOnly p v s
    | exact rxAckCheckAction_engineOnly s
    | exact transmittedAckAction_engineOnly s

theorem rxAction_quiet (n p : RxState) (v : Byte) (s : State) : Quiet s (rxAction n p v s).1 := by
  by_cases h1 : n = .ctrlByte
  · subst h1
    show Quiet s (rxCtrlByteAction v s)
    rcases rxCtrlByteAction_cases v s with ⟨b, -, -, h⟩ | ⟨-, h⟩ <;> rw [h]
    · exact .trans (EngineOnly.update s _ s.tx s.sem s.irq).quiet (setBuf_quiet ..)
    · exact (EngineOnly.update s _ s.tx s.sem s.irq).quiet
  · by_cases h2 : n = .data
    · subst h2
      show Quiet s (rxDataAction v s).1
      rcases rxDataAction_cases v s with ⟨-, h⟩ | ⟨b, -, -, h⟩ | ⟨b, -, -, h⟩ <;> rw [h]
      · exact (EngineOnly.update s _ s.tx s.sem s.irq).quiet
      · exact (raiseRx_engineOnly s).quiet
      · exact .trans (setBuf_quiet ..) (EngineOnly.update _ _ s.tx s.sem s.irq).quiet
    · exact (rxAction_engineOnly h1 h2 p v s).quiet

theorem RingInv.rxAction {s : State} (h : RingInv s) (n p : RxState) (v : Byte) : RingInv (Machine.rxAction n p v s).1 := by
  by_cases h1 : n = .ctrlByte
  · subst h1
    show RingInv (rxCtrlByteAction v s)
    rcases rxCtrlByteAction_cases v s with ⟨b, -, -, e⟩ | ⟨-, e⟩ <;> rw [e]
    · exact RingInv.rbReset (h.congr rfl rfl) _
    · exact h.congr rfl rfl
  · by_cases h2 : n = .data
    · subst h2
      show RingInv (rxDataAction v s).1
      rcases rxDataAction_cases v s with ⟨-, e⟩ | ⟨b, -, -, e⟩ | ⟨b, -, hs, e⟩ <;> rw [e]
      · exact h.congr rfl rfl
      · exact h.congr rfl rfl
      · exact RingInv.congr (h.rbEnqueue (rbEnqueue_eq_some.2 ⟨hs, rfl⟩)) rfl rfl
    · obtain ⟨hi, hr, -⟩ := rxAction_engineOnly h1 h2 p v s
      exact h.congr hi.1 hr

theorem rxAction_permits {k : SemId} (hk : ContextLock k) (n p : RxState) (v : Byte) (s : State) :
    (rxAction n p v s).1.permits k = s.permits k := by
  have h1 := hk.ne_rxProcess
  have h2 := hk.ne_txProcess
  cases n with
  | ctrlByte =>
    show (rxCtrlByteAction v s).permits k = _
    rcases rxCtrlByteAction_cases v s with ⟨b, -, -, e⟩ | ⟨-, e⟩ <;> rw [e] <;> rfl
  | data =>
    show (rxDataAction v s).1.permits k = _
    rcases rxDataAction_cases v s with ⟨-, e⟩ | ⟨b, -, -, e⟩ | ⟨b, -, -, e⟩ <;> rw [e] <;> rfl
  | check =>
    show (rxCheckAction s).permits k = _
    unfold rxCheckAction
    split
    · rw [endReceptionCycle_permits _ h1, ackReceivedHandling_permits _ h2]
    · split
      · rw [endReceptionCycle_permits _ h1]
      · rw [sendBlock_permits _ _ _ h2]; rfl
  | ackCtrlByte =>
    show (rxAckCtrlByteAction p v s).1.permits k = _
    unfold rxAckCtrlByteAction
    split
    · rfl
    · split <;> rfl
  | ackCheck =>
    show (rxAckCheckAction s).permits k = _
    unfold rxAckCheckAction
    simp only
    split
    · rw [transmittedAckAction, endReceptionCycle_permits _ h1]
      exact ackReceivedHandling_permits _ h2
    · split
      · exact ackReceivedHandling_permits _ h2
      · rw [endReceptionCycle_permits _ h1]; exact ackReceivedHandling_permits _ h2
  | transmittedAck =>
    show (transmittedAckAction s).permits k = _
    rw [transmittedAckAction, endReceptionCycle_permits _ h1]; rfl
  | _ => rfl

/-- The three ways `on_byte_received` goes (R185). -/
theorem onByteReceived_cases (v : Byte) (s : State) :
    (RxReady s ∧ onByteReceived v s =
      (exitStep .rxContext (rxTransition v (s.setPermits .rxContext (s.permits .rxContext - 1#8))).1,
        (rxTransition v (s.setPermits .rxContext (s.permits .rxContext - 1#8))).2)) ∨
    (¬ RxReady s ∧ onByteReceived v s = (s, .busy)) ∨
    (¬ RxReady s ∧ onByteReceived v s = (s, .error)) := by
  unfold onByteReceived
  rcases enterStep_cases s.rx.inProgress s.rx.fault .rxContext s with ⟨h1, h2, h3, h⟩ | ⟨h1, h2, h3, h⟩ | ⟨h1, h⟩ <;>
    rw [h]
  · exact .inl ⟨⟨h1, h2, h3⟩, rfl⟩
  · exact .inr (.inl ⟨fun r => r.2.2 h3, rfl⟩)
  · refine .inr (.inr ⟨fun r => ?_, rfl⟩)
    rcases h1 with h1 | h1
    · exact absurd r.1 (by simp [h1])
    · exact absurd r.2.1 (by simp [h1])

/-- A byte step that gets past its entry and has a next state (R185): the transition, the entry action, and the context
lock as it was. -/
theorem onByteReceived_goto {v : Byte} {s : State} {n : RxState} (h : RxReady s) (hn : rxNext s.rx = some n) :
    let a := rxAction n s.rx.state v
      { s.setPermits .rxContext (s.permits .rxContext - 1#8) with rx := { s.rx with state := n } }
    onByteReceived v s = (a.1.setPermits .rxContext (s.permits .rxContext), a.2) := by
  rcases onByteReceived_cases v s with ⟨-, e⟩ | ⟨h', -⟩ | ⟨h', -⟩
  · have ht : rxTransition v (s.setPermits .rxContext (s.permits .rxContext - 1#8)) = rxAction n s.rx.state v
        { s.setPermits .rxContext (s.permits .rxContext - 1#8) with rx := { s.rx with state := n } } := by
      unfold rxTransition
      have : (s.setPermits .rxContext (s.permits .rxContext - 1#8)).rx = s.rx := rfl
      simp only [this, hn]
    rw [e, ht, exitStep_eq h.2.2]
    rw [rxAction_permits (.inl rfl)]
    simp [State.permits]
  · exact absurd h h'
  · exact absurd h h'

theorem rxTransition_quiet (v : Byte) (s : State) : Quiet s (rxTransition v s).1 := by
  unfold rxTransition
  split
  · exact (raiseRx_engineOnly s).quiet
  · exact .trans (EngineOnly.update s _ s.tx s.sem s.irq).quiet (rxAction_quiet ..)

theorem RingInv.rxTransition {s : State} (h : RingInv s) (v : Byte) : RingInv (Machine.rxTransition v s).1 := by
  unfold Machine.rxTransition
  split
  · exact h.congr rfl rfl
  · have h' : RingInv { s with rx := { s.rx with state := ‹RxState› } } := RingInv.congr h rfl rfl
    exact RingInv.rxAction h' _ _ _

theorem rxTransition_permits {k : SemId} (hk : ContextLock k) (v : Byte) (s : State) :
    (rxTransition v s).1.permits k = s.permits k := by
  unfold rxTransition
  split
  · rfl
  · exact rxAction_permits hk ..

theorem onByteReceived_quiet (v : Byte) (s : State) : Quiet s (onByteReceived v s).1 := by
  rcases onByteReceived_cases v s with ⟨-, h⟩ | ⟨-, h⟩ | ⟨-, h⟩ <;> rw [h]
  · exact .trans (.trans (EngineOnly.update s s.rx s.tx _ s.irq).quiet (rxTransition_quiet ..))
      (exitStep_engineOnly ..).quiet
  · exact .refl s
  · exact .refl s

theorem RingInv.onByteReceived {s : State} (h : RingInv s) (v : Byte) : RingInv (Machine.onByteReceived v s).1 := by
  rcases onByteReceived_cases v s with ⟨-, e⟩ | ⟨-, e⟩ | ⟨-, e⟩ <;> rw [e]
  · have := RingInv.rxTransition (s := s.setPermits .rxContext (s.permits .rxContext - 1#8)) (h.congr rfl rfl) v
    obtain ⟨hi, hr, -⟩ := exitStep_engineOnly .rxContext
      (Machine.rxTransition v (s.setPermits .rxContext (s.permits .rxContext - 1#8))).1
    exact this.congr hi.1 hr
  · exact h
  · exact h

/-- A reception step gives both context locks back as it found them (R350). -/
theorem onByteReceived_permits {k : SemId} (hk : ContextLock k) (v : Byte) (s : State) :
    (onByteReceived v s).1.permits k = s.permits k := by
  rcases onByteReceived_cases v s with ⟨hr, h⟩ | ⟨-, h⟩ | ⟨-, h⟩ <;> rw [h]
  rw [exitStep_permits hr.2.2]
  · split
    · subst_vars; rfl
    · rw [rxTransition_permits hk]; simp [*]
  · rw [rxTransition_permits (.inl rfl)]; simp

/-- A received byte is answered once, and nothing is pushed. -/
theorem receiveByte_outputs (v : Byte) (s : State) :
    SameInputs s (receiveByte v s) ∧ s.events <+: (receiveByte v s).events ∧
      (receiveByte v s).wireOut = s.wireOut ∧
      ∃ st, (receiveByte v s).responses = s.responses ++ [(s.serving, ⟨st, 0#24⟩)] := by
  obtain ⟨hi, hr, hw, he⟩ := onByteReceived_quiet v s
  refine ⟨hi, he, hw, (onByteReceived v s).2, ?_⟩
  show (onByteReceived v s).1.responses ++ [((onByteReceived v s).1.serving, _)] = _
  rw [hr, hi.serving]

theorem receiveByte_permits {k : SemId} (hk : ContextLock k) (v : Byte) (s : State) :
    (receiveByte v s).permits k = s.permits k := onByteReceived_permits hk v s

theorem RingInv.receiveByte {s : State} (h : RingInv s) (v : Byte) : RingInv (receiveByte v s) :=
  RingInv.congr (h.onByteReceived v) rfl rfl

/-- What every received byte keeps, every sequence of received bytes keeps. -/
theorem receiveBytes_induction {P : State → State → Prop} (hrefl : ∀ s, P s s)
    (htrans : ∀ s t u, P s t → P t u → P s u) (hbyte : ∀ v s, P s (receiveByte v s)) (l : List Byte) (s : State) :
    P s (receiveBytes l s) := by
  induction l generalizing s with
  | nil => exact hrefl s
  | cons v l ih => exact htrans _ _ _ (hbyte v s) (ih _)

@[simp] theorem receiveBytes_nil (s : State) : receiveBytes [] s = s := rfl

@[simp] theorem receiveBytes_cons (v : Byte) (l : List Byte) (s : State) :
    receiveBytes (v :: l) s = receiveBytes l (receiveByte v s) := rfl

theorem receiveBytes_append (l m : List Byte) (s : State) :
    receiveBytes (l ++ m) s = receiveBytes m (receiveBytes l s) := List.foldl_append

/-! ### Transmission -/

theorem txCheckAction_engineOnly (s : State) : EngineOnly s (txCheckAction s) := by
  unfold txCheckAction
  split
  · exact (ackSentHandling_engineOnly s).trans (completion_engineOnly _)
  · exact completion_engineOnly s

theorem txAckCheckAction_engineOnly (s : State) : EngineOnly s (txAckCheckAction s) :=
  .trans (.trans (.update s s.rx _ s.sem s.irq) (ackSentHandling_engineOnly _)) (completion_engineOnly _)

/-- What the `Data` action can answer (R254). -/
theorem txDataAction_cases (s : State) :
    txDataAction s = .ok (none, s) ∨ txDataAction s = .error .unwrittenStorage ∨
    ∃ b v, s.tx.buf = some b ∧ (s.buf b).size ≠ 0#24 ∧
      Memory.read (s.buf b).store (s.buf b).readIndex.toNat = some v ∧
      txDataAction s = .ok (some v, s.setBuf b ((s.buf b).dequeue s.capacity)) := by
  unfold txDataAction
  cases hb : s.tx.buf with
  | none => exact .inl rfl
  | some b =>
    rcases rbDequeue_cases b s with ⟨-, h⟩ | ⟨-, -, h⟩ | ⟨v, hs, hv, h⟩
    · exact .inl (by simp only [h])
    · exact .inr (.inl (by simp only [h]))
    · exact .inr (.inr ⟨b, v, rfl, hs, hv, by simp only [h]⟩)

/-- Every entry action of transmission but `Data` answers, and leaves the bank alone. -/
theorem txAction_engineOnly {n : TxState} (hn : n ≠ .data) (s : State) :
    ∃ byte t, txAction n s = .ok (byte, t) ∧ EngineOnly s t := by
  cases n <;> first
    | exact absurd rfl hn
    | exact ⟨_, _, rfl, .update s s.rx _ s.sem s.irq⟩
    | exact ⟨_, _, rfl, txCheckAction_engineOnly s⟩
    | exact ⟨_, _, rfl, txAckCheckAction_engineOnly s⟩
    | exact ⟨_, _, rfl, endTransmissionCycle_engineOnly s⟩

/-- An entry action that answers is quiet and stores nothing. -/
theorem txAction_quiet {n : TxState} {s t : State} {byte : Option Byte} (h : txAction n s = .ok (byte, t)) :
    Quiet s t ∧ SameStorage s t := by
  by_cases hn : n = .data
  · subst hn
    replace h : txDataAction s = .ok (byte, t) := h
    rcases txDataAction_cases s with h' | h' | ⟨b, v, -, -, -, h'⟩ <;> rw [h'] at h <;> cases h
    · exact ⟨.refl s, fun _ _ => rfl⟩
    · refine ⟨setBuf_quiet .., fun c i => ?_⟩
      rw [State.buf_setBuf]
      split
      · subst_vars; rfl
      · rfl
  · obtain ⟨_, _, h', he⟩ := txAction_engineOnly hn s
    rw [h'] at h; cases h
    refine ⟨he.quiet, fun c i => ?_⟩
    simp only [State.buf, he.2.1]

theorem RingInv.txAction {n : TxState} {s t : State} {byte : Option Byte} (hs : RingInv s)
    (h : txAction n s = .ok (byte, t)) : RingInv t := by
  by_cases hn : n = .data
  · subst hn
    replace h : txDataAction s = .ok (byte, t) := h
    rcases txDataAction_cases s with h' | h' | ⟨b, v, -, hz, -, h'⟩ <;> rw [h'] at h <;> cases h
    · exact hs
    · exact hs.setBuf b (RingBuffer.ok_dequeue (hs b) hz)
  · obtain ⟨_, _, h', hi, hr, -⟩ := txAction_engineOnly hn s
    rw [h'] at h; cases h
    exact hs.congr hi.1 hr

/-- Under the invariant every entry action answers (R43, R254). -/
theorem RingInv.txAction_answers {s : State} (hs : RingInv s) (n : TxState) :
    ∃ byte t, Machine.txAction n s = .ok (byte, t) := by
  by_cases hn : n = .data
  · subst hn
    show ∃ byte t, txDataAction s = _
    unfold txDataAction
    cases s.tx.buf with
    | none => exact ⟨_, _, rfl⟩
    | some b =>
      rcases hs.rbDequeue b with ⟨-, h⟩ | ⟨v, t, -, -, -, h, -⟩ <;> simp only [h] <;> exact ⟨_, _, rfl⟩
  · obtain ⟨_, _, h, -⟩ := txAction_engineOnly hn s
    exact ⟨_, _, h⟩

theorem txAction_permits {k : SemId} (hk : ContextLock k) {n : TxState} {s t : State} {byte : Option Byte}
    (h : txAction n s = .ok (byte, t)) : t.permits k = s.permits k := by
  have h1 := hk.ne_rxProcess
  have h2 := hk.ne_txProcess
  cases n with
  | data =>
    replace h : txDataAction s = .ok (byte, t) := h
    rcases txDataAction_cases s with h' | h' | ⟨b, v, -, -, -, h'⟩ <;> rw [h'] at h <;> cases h <;> rfl
  | check =>
    cases h
    unfold txCheckAction
    rw [completion_permits _ h1 h2]
    split
    · rw [ackSentHandling_permits _ h1]
    · rfl
  | ackCheck =>
    cases h
    unfold txAckCheckAction
    rw [completion_permits _ h1 h2, ackSentHandling_permits _ h1]; rfl
  | rcvdAck => cases h; exact endTransmissionCycle_permits _ h2
  | _ => cases h; rfl

/-- The end of a transmission step (R245): its response, and the byte on the channel. -/
theorem finishTx_outputs (byte : Option Byte) (s : State) :
    SameInputs s (finishTx byte s) ∧ s.events <+: (finishTx byte s).events ∧ (finishTx byte s).rb = s.rb ∧
      (finishTx byte s).wireOut = s.wireOut ++ byte.toList ∧
      (finishTx byte s).responses = s.responses ++
        [(s.serving, match byte with | none => ⟨.empty, 0#24⟩ | some v => ⟨.ok, byteValue v⟩)] := by
  obtain ⟨hi, hb, hr, hw, he⟩ := (disableTxIfIdle_engineOnly s).trans (exitStep_engineOnly .txContext _)
  cases byte
  · refine ⟨hi, he, hb, ?_, ?_⟩
    · show (exitStep .txContext (disableTxIfIdle s)).wireOut = _
      rw [hw]; simp
    · show (exitStep .txContext (disableTxIfIdle s)).responses ++ [(_, _)] = _
      rw [hr, hi.serving]
  · refine ⟨hi, he, hb, ?_, ?_⟩
    · show (exitStep .txContext (disableTxIfIdle s)).wireOut ++ [_] = _
      rw [hw]; rfl
    · show (exitStep .txContext (disableTxIfIdle s)).responses ++ [((exitStep .txContext (disableTxIfIdle s)).serving, _)] = _
      rw [hr, hi.serving]

/-- What `TX_NEXT` can do (R245): turned away, no next state, stay, or an entry action. -/
theorem execTxNext_cases (s : State) :
    (∃ st, ¬ TxReady s ∧ execTxNext s = .next (s.respond st 0#24)) ∨
    (TxReady s ∧
      let s' := s.setPermits .txContext (s.permits .txContext - 1#8)
      ((txNext s.tx (rbSize s.tx.buf s) = .none ∧
          execTxNext s = .next ((exitStep .txContext (raiseTx s')).respond .error 0#24)) ∨
        (txNext s.tx (rbSize s.tx.buf s) = .stay ∧ execTxNext s = .next (finishTx none s')) ∨
        (∃ n, txNext s.tx (rbSize s.tx.buf s) = .goto n ∧
          ((∃ byte t, txAction n { s' with tx := { s.tx with state := n } } = .ok (byte, t) ∧
            execTxNext s = .next (finishTx byte t)) ∨
          (∃ e, txAction n { s' with tx := { s.tx with state := n } } = .error e ∧ execTxNext s = .fault e))))) := by
  unfold execTxNext
  rcases enterStep_cases s.tx.inProgress s.tx.fault .txContext s with ⟨h1, h2, h3, h⟩ | ⟨h1, h2, h3, h⟩ | ⟨h1, h⟩ <;>
    rw [h]
  · refine .inr ⟨⟨h1, h2, h3⟩, ?_⟩
    simp only
    have hb : rbSize (s.setPermits .txContext (s.permits .txContext - 1#8)).tx.buf
        (s.setPermits .txContext (s.permits .txContext - 1#8)) = rbSize s.tx.buf s := rfl
    rw [hb]
    have ht : (s.setPermits .txContext (s.permits .txContext - 1#8)).tx = s.tx := rfl
    rw [ht]
    cases txNext s.tx (rbSize s.tx.buf s) with
    | none => exact .inl ⟨rfl, rfl⟩
    | stay => exact .inr (.inl ⟨rfl, rfl⟩)
    | goto n =>
      refine .inr (.inr ⟨n, rfl, ?_⟩)
      simp only
      cases txAction n { s.setPermits .txContext (s.permits .txContext - 1#8) with tx := { s.tx with state := n } } with
      | error e => exact .inr ⟨e, rfl, rfl⟩
      | ok r => exact .inl ⟨r.1, r.2, rfl, rfl⟩
  · exact .inl ⟨_, fun r => r.2.2 h3, rfl⟩
  · refine .inl ⟨_, fun r => ?_, rfl⟩
    rcases h1 with h1 | h1
    · exact absurd r.1 (by simp [h1])
    · exact absurd r.2.1 (by simp [h1])

theorem finishTx_permits {k : SemId} {s t : State} (hk : ContextLock k) (hs : s.permits .txContext ≠ 0#8)
    (ht : t.permits .txContext = s.permits .txContext - 1#8) (hr : t.permits .rxContext = s.permits .rxContext)
    (byte : Option Byte) : (finishTx byte t).permits k = s.permits k := by
  have h := exitStep_permits (t := disableTxIfIdle t) hs (by rw [disableTxIfIdle_permits, ht]) k
  have h' : (finishTx byte t).permits k = (exitStep .txContext (disableTxIfIdle t)).permits k := by
    cases byte <;> rfl
  rw [h', h, disableTxIfIdle_permits]
  rcases hk with rfl | rfl
  · simp [hr]
  · simp

/-! ### Every instruction -/

/-- A port change that keeps the queue. -/
theorem setPort_ports (s : State) (a : Agent) (l : Option SemId) :
    let t := s.setPort a { s.port a with lock := l }
    t.host.queue = s.host.queue ∧ t.rxirq.queue = s.rxirq.queue ∧ t.txirq.queue = s.txirq.queue ∧
      t = { s with host := t.host, rxirq := t.rxirq, txirq := t.txirq } := by
  cases a <;> exact ⟨rfl, rfl, rfl, rfl⟩

/-- The port change of `SEM_LOCK` (R163) changes a port's `lock` only. -/
theorem setPending_ports (s : State) (l : Option SemId) :
    (s.setPending l).host.queue = s.host.queue ∧ (s.setPending l).rxirq.queue = s.rxirq.queue ∧
      (s.setPending l).txirq.queue = s.txirq.queue ∧
      s.setPending l = { s with host := (s.setPending l).host, rxirq := (s.setPending l).rxirq,
                                txirq := (s.setPending l).txirq } :=
  setPort_ports s s.serving l

theorem feed_eq (l : List Byte) (s : State) : feed l s = .next (receiveBytes l s) := by
  induction l generalizing s with
  | nil => rfl
  | cons v l ih => exact ih _

end Sys2Proof.Machine
end

