-- ==== Sys2Proof/Laws/PerInstr.lean ====
section
/-! SUPPORT. Facts about every instruction as syntax, one lemma per constructor. -/

namespace Sys2Proof.Laws.EncodedLength

open Sys2Proof

/-- The bytes a payload adds to a block (R111): three length bytes and the payload, for `Data` only. -/
def extra : Instr → Nat
  | .blockData p _ => 3 + p.length
  | _ => 0

/-- R80, R100, R111: an instruction is one command word, or the bytes of one block: control byte, what a payload adds,
check byte. -/
def Statement (i : Instr) : Prop :=
  match encode i with
  | .command _ => extra i = 0
  | .wire bytes => bytes.length = 2 + extra i

theorem rbReset (b : Handle) : Statement (.rbReset b) := rfl

theorem rbEnq (b : Handle) (v : Byte) : Statement (.rbEnq b v) := rfl

theorem rbDeq (b : Handle) : Statement (.rbDeq b) := rfl

theorem rbSize (b : Handle) : Statement (.rbSize b) := rfl

theorem rbEmpty (b : Handle) : Statement (.rbEmpty b) := rfl

theorem rbFull (b : Handle) : Statement (.rbFull b) := rfl

theorem semInit (k : SemId) (n : Byte) : Statement (.semInit k n) := rfl

theorem semTry (k : SemId) : Statement (.semTry k) := rfl

theorem semLock (k : SemId) : Statement (.semLock k) := rfl

theorem semRel (k : SemId) : Statement (.semRel k) := rfl

theorem rxStart (h : Option Handle) : Statement (.rxStart h) := rfl

theorem rxByte (v : Byte) : Statement (.rxByte v) := rfl

theorem rxAvail : Statement (.rxAvail) := rfl

theorem rxFully : Statement (.rxFully) := rfl

theorem txSend (h : Option Handle) (t : BlockType) : Statement (.txSend h t) := rfl

theorem txNext : Statement (.txNext) := rfl

theorem commInit : Statement (.commInit) := rfl

theorem blockData (payload : List Byte) (check : Byte) : Statement (.blockData payload check) := by
  simp [Statement, encode, dataBytes, lenBytes, extra]; omega

theorem blockUnknown (control : Byte) (check : Byte) : Statement (.blockUnknown control check) := rfl

theorem blockColdReset (check : Byte) : Statement (.blockColdReset check) := rfl

theorem blockWarmReset (check : Byte) : Statement (.blockWarmReset check) := rfl

theorem blockBusy (check : Byte) : Statement (.blockBusy check) := rfl

theorem blockAck (check : Byte) : Statement (.blockAck check) := rfl

theorem blockNack (check : Byte) : Statement (.blockNack check) := rfl

end Sys2Proof.Laws.EncodedLength
end

