-- ==== Sys2Proof/Laws/Step.lean ====
section
/-! SUPPORT. What a step can do: a service, or the arrival of reset (R75, R380); who waits (R333); what a service
takes. -/

namespace Sys2Proof.Machine

/-- R380: the four ways of a step, one per form of the reset input. -/
theorem step_cases (s : State) :
    (s.resetIn = .low ∧ step s = serveNext s) ∨
    (∃ n inService, s.resetIn = .arrives (n + 1) inService ∧
      step s = serveNext { s with resetIn := .arrives n inService }) ∨
    (s.resetIn = .arrives 0 false ∧ step s = .next (applyReset s)) ∨
    (s.resetIn = .arrives 0 true ∧ step s = .next (abandonService s)) := by
  unfold step
  split
  · exact .inl ⟨‹_›, rfl⟩
  · exact .inr (.inl ⟨_, _, ‹_›, rfl⟩)
  · exact .inr (.inr (.inl ⟨‹_›, rfl⟩))
  · exact .inr (.inr (.inr ⟨‹_›, rfl⟩))

/-- R75: the three ways of a service. -/
theorem serveNext_cases (s : State) :
    (fetch s = none ∧ serveNext s = .next s) ∨
    (∃ i t, fetch s = some (.ok i, t) ∧ serveNext s = exec i t) ∨
    ∃ e t, fetch s = some (.error e, t) ∧ serveNext s = .next (answerIllegal t) := by
  unfold serveNext
  split
  · exact .inl ⟨‹_›, rfl⟩
  · exact .inr (.inl ⟨_, _, ‹_›, rfl⟩)
  · exact .inr (.inr ⟨_, _, ‹_›, rfl⟩)

/-- R75: who waits. -/
@[simp] theorem mem_waiting {s : State} {r : Requester} : r ∈ waiting s ↔ isWaiting s r = true := by
  cases r <;> simp [waiting]

/-- R333: a polling driver presents whatever is there. -/
theorem wordPresented_polling {s : State} (h : s.driver = .polling) (a : Agent) (w : CmdWord) :
    wordPresented s a w = true := by
  unfold wordPresented
  rw [h]
  split <;> rfl

/-- R333: what a gated driver may hold back is RXIRQ's `RX_BYTE` and TXIRQ's `TX_NEXT`. -/
theorem wordPresented_gated {s : State} (h : s.driver = .gated) (a : Agent) (w : CmdWord) :
    wordPresented s a w = true ↔
      ((∃ v, a = .rxirq ∧ decodeCmd w = .ok (.rxByte v)) → s.irq.rxEn = true) ∧
        (a = .txirq ∧ decodeCmd w = .ok .txNext → s.irq.txEn = true) := by
  unfold wordPresented
  rw [h]
  split <;> simp_all [Driver.presents]

/-- R380: reset inside an operation is reset after the operation was taken. -/
theorem abandonService_cases (s : State) :
    (fetch s = none ∧ abandonService s = applyReset s) ∨
    ∃ x t, fetch s = some (x, t) ∧ abandonService s = applyReset t := by
  unfold abandonService
  split
  · exact .inl ⟨‹_›, rfl⟩
  · exact .inr ⟨_, _, ‹_›, rfl⟩

/-- What is taken when an operation is served: nothing of the block changes, and the ports keep their pending locks. -/
abbrev TakenFrom (s t : State) : Prop :=
  t = { s with host := t.host, rxirq := t.rxirq, txirq := t.txirq, wireIn := t.wireIn, serving := t.serving
               served := s.served + 1 } ∧
    (t.host.lock = s.host.lock ∧ t.rxirq.lock = s.rxirq.lock ∧ t.txirq.lock = s.txirq.lock) ∧
    (t.host.queue <:+ s.host.queue ∧ t.rxirq.queue <:+ s.rxirq.queue ∧ t.txirq.queue <:+ s.txirq.queue)

theorem servePort_takes {a : Agent} {s t : State} {x : Except Illegal Instr} (h : servePort a s = some (x, t)) :
    TakenFrom s t := by
  unfold servePort at h
  split at h
  · cases h
    exact ⟨rfl, ⟨rfl, rfl, rfl⟩, List.suffix_rfl, List.suffix_rfl, List.suffix_rfl⟩
  · rename_i hl
    split at h
    · cases h
    · rename_i w ws hq
      cases h
      cases a
      · exact ⟨rfl, ⟨hl.symm, rfl, rfl⟩, ⟨[w], hq.symm⟩, List.suffix_rfl, List.suffix_rfl⟩
      · exact ⟨rfl, ⟨rfl, hl.symm, rfl⟩, List.suffix_rfl, ⟨[w], hq.symm⟩, List.suffix_rfl⟩
      · exact ⟨rfl, ⟨rfl, rfl, hl.symm⟩, List.suffix_rfl, List.suffix_rfl, ⟨[w], hq.symm⟩⟩
      · cases hq

theorem serveChannel_takes {s t : State} {x : Except Illegal Instr} (h : serveChannel s = some (x, t)) :
    TakenFrom s t := by
  have hb : ∀ {t x}, serveChannelByte s = some (x, t) → TakenFrom s t := fun {t x} h => by
    unfold serveChannelByte at h
    split at h <;> cases h
    exact ⟨rfl, ⟨rfl, rfl, rfl⟩, List.suffix_rfl, List.suffix_rfl, List.suffix_rfl⟩
  unfold serveChannel at h
  split at h
  · split at h
    · cases h
      exact ⟨rfl, ⟨rfl, rfl, rfl⟩, List.suffix_rfl, List.suffix_rfl, List.suffix_rfl⟩
    · exact hb h
  · exact hb h

/-- R75, R80: whatever is served, only what was presented is taken. -/
theorem fetch_takes {s t : State} {x : Except Illegal Instr} (h : fetch s = some (x, t)) : TakenFrom s t := by
  unfold fetch at h
  split at h
  · cases h
  · exact serveChannel_takes h
  · exact servePort_takes h

end Sys2Proof.Machine
end

