-- ==== Sys2Proof/Tests/Slice0.lean ====
section
/-! SUPPORT. Tests: ill-formed terms, words written out from the spec's encodings, single steps with the answers of
95_test_vectors.md, and for every statement with hypotheses a state that meets them. -/

namespace Sys2Proof.Tests

open Sys2Proof Sys2Proof.Machine

/-! ### WellFormed refuses (R110, R111, R116) -/

theorem test_wellFormed_refuses_assigned_control : WellFormed (.blockUnknown 0x05 0x00) = false := by decide

theorem test_wellFormed_refuses_control_six : WellFormed (.blockUnknown 0x06 0x00) = false := by decide

theorem test_wellFormed_takes_control_seven : WellFormed (.blockUnknown 0x07 0x00) = true := by decide

theorem test_wellFormed_refuses_long_payload (p : List Byte) (h : p.length = 2 ^ 24) :
    WellFormed (.blockData p 0x00) = false := by
  simp [WellFormed, h]

/-! ### Words written out from R100, R101, R104 -/

theorem test_decode_rbReset : decodeTableWord 24 0b00000001_00000001_00000000 = some (.rbReset 1) := by decide
theorem test_decode_rbEnq : decodeTableWord 24 0b00000010_00000000_10101011 = some (.rbEnq 0 0xAB) := by decide
theorem test_decode_rbDeq : decodeTableWord 24 0b00000011_00000001_00000000 = some (.rbDeq 1) := by decide
theorem test_decode_rbSize : decodeTableWord 24 0b00000100_00000000_00000000 = some (.rbSize 0) := by decide
theorem test_decode_rbEmpty : decodeTableWord 24 0b00000101_00000001_00000000 = some (.rbEmpty 1) := by decide
theorem test_decode_rbFull : decodeTableWord 24 0b00000110_00000001_00000000 = some (.rbFull 1) := by decide
theorem test_decode_semInit : decodeTableWord 24 0b00010000_00000010_11111111 = some (.semInit .txContext 0xFF) := by
  decide
theorem test_decode_semTry : decodeTableWord 24 0b00010001_00000000_00000000 = some (.semTry .rxContext) := by decide
theorem test_decode_semLock : decodeTableWord 24 0b00010010_00000001_00000000 = some (.semLock .rxProcess) := by decide
theorem test_decode_semRel : decodeTableWord 24 0b00010011_00000011_00000000 = some (.semRel .txProcess) := by decide
theorem test_decode_rxStart : decodeTableWord 24 0b00100000_11111111_00000000 = some (.rxStart none) := by decide
theorem test_decode_rxByte : decodeTableWord 24 0b00100001_00000000_10100001 = some (.rxByte 0xA1) := by decide
theorem test_decode_rxAvail : decodeTableWord 24 0b00100010_00000000_00000000 = some .rxAvail := by decide
theorem test_decode_rxFully : decodeTableWord 24 0b00100011_00000000_00000000 = some .rxFully := by decide
theorem test_decode_txSend : decodeTableWord 24 0b00110000_00000001_00000110 = some (.txSend (some 1) .nack) := by decide
theorem test_decode_txNext : decodeTableWord 24 0b00110001_00000000_00000000 = some .txNext := by decide
theorem test_decode_commInit : decodeTableWord 24 0b01000000_00000000_00000000 = some .commInit := by decide

/-- Boundary values of R104's clauses, illegal and legal. -/
theorem test_decode_illegal :
    [0x000000#24, 0x010200#24, 0x0601FF#24, 0x130400#24, 0x130300#24, 0x20FE00#24, 0x300007#24, 0x300006#24].map decodeCmd =
      [.error .reservedOp, .error .noSuchBuffer, .ok (.rbFull 1), .error .noSuchSemaphore, .ok (.semRel .txProcess),
        .error .noSuchBuffer, .error .noSuchType, .ok (.txSend (some 0) .nack)] := by decide

/-- R125's codes, in the order of its table. -/
theorem test_event_codes :
    [Event.rxIrqEnable, .rxIrqDisable, .txIrqEnable, .txIrqDisable, .dataReceived, .coldResetReceived,
      .warmResetReceived, .unknownReceived, .blockReceived, .blockSent, .ackReceivedByPeer, .waitHook].map Event.code =
      [0x01, 0x02, 0x03, 0x04, 0x10, 0x11, 0x12, 0x13, 0x14, 0x15, 0x16, 0x20] := by decide

/-! ### Bytes written out from R110, R111, R115, R116 -/

theorem test_decode_blockData :
    decodeBlock [0x00, 0x00, 0x00, 0x02, 0xAB, 0xCD, 0x77, 0x04] = some (.blockData [0xAB, 0xCD] 0x77, [0x04]) := by
  decide
theorem test_decode_blockUnknown : decodeBlock [0x5A, 0x77] = some (.blockUnknown 0x5A 0x77, []) := by decide
theorem test_decode_blockUnknown_row : decodeTableWord 8 0b00000001 = some (.blockUnknown 0x01 0x00) := by decide
theorem test_decode_blockColdReset : decodeTableWord 8 0b00000010 = some (.blockColdReset 0x00) := by decide
theorem test_decode_blockWarmReset : decodeTableWord 8 0b00000011 = some (.blockWarmReset 0x00) := by decide
theorem test_decode_blockBusy : decodeTableWord 8 0b00000100 = some (.blockBusy 0x00) := by decide
theorem test_decode_blockAck : decodeBlock [0x05, 0xFF] = some (.blockAck 0xFF, []) := by decide
theorem test_decode_blockNack : decodeTableWord 8 0b00000110 = some (.blockNack 0x00) := by decide
theorem test_decode_incomplete : decodeBlock [0x00, 0x00, 0x00, 0x01, 0x7E] = none := by decide

/-! ### Small states -/

/-- A reset block whose receiver is in a cycle, in state `st`, with main block type `ty` and buffer `h`. -/
def rxAt (st : RxState) (ty : BlockType) (h : Option Handle) : State :=
  { State.reset with
    rx := { RxContext.reset with state := st, blockType := ty, buf := h, inProgress := true }
    sem := ⟨1#8, 0#8, 1#8, 1#8⟩ }

/-- `s` with its transmitter in a cycle, in state `st`, with block type `ty` and buffer `h`. -/
def withTx (s : State) (st : TxState) (ty : BlockType) (h : Option Handle) (done : Bool) : State :=
  { s with
    tx := { TxContext.reset with state := st, blockType := ty, buf := h, inProgress := true, done := done }
    sem := { s.sem with txProcess := 0#8 } }

/-- A transmission of a `Data` block that waits for its ACK, which is awaited. -/
def awaiting (s : State) : State :=
  withTx { s with rx := { s.rx with ackExpected := true } } .check .data none true

/-- `s` with buffer `b` holding `p`. -/
def holding (b : Handle) (p : List Byte) (s : State) : State :=
  p.foldl (fun t v => (rbEnqueue b v t).getD t) s

/-- `s` with buffer 0 full. -/
def full (s : State) : State := { holding 0 [1, 2] { s with capacity := 2#24 } with host := s.host }

/-- What a served command word answers: the last response word and the events. -/
def answer (w : Nat) (s : State) : Option (Option RespWord × List Event) :=
  match step (s.withFetchWord 24 w) with
  | .next t => some (t.responses.getLast?.map fun r => r.2.word, t.events.drop s.events.length)
  | _ => none

/-- What the bytes of a block of the opcode table's row answer: the last response word and the events. -/
def blockAnswer (i : Instr) (s : State) : Option (Option RespWord × List Event) :=
  match exec i s with
  | .next t => some (t.responses.getLast?.map fun r => r.2.word, t.events.drop s.events.length)
  | _ => none

/-! ### Single steps, with the answers of 95_test_vectors.md -/

/-- Section 2.1. -/
theorem test_rbEnq_full : answer 0x020070 (full State.reset) = some (some 0x04000000, []) := by decide
theorem test_rbDeq_oldest : answer 0x030000 (holding 0 [0x10, 0x20, 0x30] State.reset) = some (some 0x00000010, []) := by
  decide
theorem test_rbDeq_empty : answer 0x030000 State.reset = some (some 0x05000000, []) := by decide
theorem test_rbSize : answer 0x040000 (holding 0 [0x10, 0x20] State.reset) = some (some 0x00000002, []) := by decide
theorem test_rbEmpty : answer 0x050000 State.reset = some (some 0x00000001, []) := by decide
theorem test_rbFull : answer 0x060000 (full State.reset) = some (some 0x00000001, []) := by decide
theorem test_rbReset : (rbReset 0 (full State.reset)).buf 0 = { (full State.reset).buf 0 with
    size := 0#24, readIndex := 0#24, writeIndex := 0#24 } := by decide
theorem test_rbEnq_wraps : ((full State.reset).buf 0).writeIndex = 0#24 := by decide

/-- Section 2.2. -/
theorem test_semTry_was_locked :
    answer 0x110300 (State.reset.setPermits .txProcess 0#8) = some (some 0x00000001, []) := by decide
theorem test_semLock_waits :
    answer 0x120100 (State.reset.setPermits .rxProcess 0#8) = some (none, [.waitHook]) := by decide
theorem test_semInit : exec (.semInit .rxProcess 0xFF) State.reset =
    .next ((State.reset.setPermits .rxProcess 0xFF).respond .ok 0#24) := rfl
theorem test_semRel_saturates :
    (release .rxProcess (State.reset.setPermits .rxProcess 0xFF)).permits .rxProcess = 0xFF := by decide

/-- Sections 1.4 and 2.3. -/
theorem test_rxStart_started : answer 0x20FF00 State.reset = some (some 0x01000000, [.rxIrqEnable]) := by decide
theorem test_rxStart_busy : answer 0x200000 (rxAt .ctrlByte .busy none) = some (some 0x02000000, []) := by decide
theorem test_rxByte_idle : answer 0x210000 State.reset = some (some 0x03000000, []) := by decide
theorem test_rxByte_ends_busy_block :
    answer 0x210000 (rxAt .ctrlByte .busy none) = some (some 0x00000000, [.blockReceived, .rxIrqDisable]) := by decide
theorem test_rxAvail : answer 0x220000 (holding 0 [0x01] (rxAt .data .data (some 0))) = some (some 0x00000001, []) := by
  decide
theorem test_rxFully_in_progress : answer 0x230000 (rxAt .check .data none) = some (some 0x00000000, []) := by decide

/-- Sections 2.4 and 1.1. -/
theorem test_txSend_started : answer 0x30FF04 State.reset = some (some 0x01000000, [.txIrqEnable]) := by decide
theorem test_txSend_busy :
    answer 0x300003 (withTx State.reset .check .data none true) = some (some 0x02000000, []) := by decide
/-- R340 E8. -/
theorem test_txNext_no_next_state :
    answer 0x310000 (withTx State.reset .rcvdAck .data none true) = some (some 0x03000000, []) := by decide
theorem test_txNext_control_byte :
    answer 0x310000 (withTx State.reset .init .nack none false) = some (some 0x00000006, []) := by decide
/-- 95_test_vectors.md 1.5b row 22: the owed `Ack`'s check byte, sent in cycle. -/
theorem test_txNext_inCycleAck :
    let w := withTx (rxAt .check .data (some 1)) .ackCtrlByte .data (some 0) true
    answer 0x310000 { w with rx := { w.rx with ackExpected := true }, tx := { w.tx with ackExpected := true } } =
      some (some 0x00000000, [.dataReceived, .blockReceived, .rxIrqDisable, .rxIrqEnable, .txIrqDisable]) := by decide

/-- Section 2.5, and program 4. -/
theorem test_commInit : answer 0x400000 (rxAt .data .data none) =
    some (some 0x00000000, [.rxIrqDisable, .txIrqDisable]) := by decide

/-- R104. -/
theorem test_illegal_word : answer 0x070000 State.reset = some (some 0x06000000, []) := by decide

/-- Section 1.3. -/
theorem test_blockData : blockAnswer (.blockData [0x7E] 0x00) (rxAt .init .unknown (some 0)) =
    some (some 0x00000000, [.txIrqEnable]) := by decide
theorem test_blockUnknown : blockAnswer (.blockUnknown 0x5A 0x77) (rxAt .init .unknown (some 0)) =
    some (some 0x00000000, [.unknownReceived, .blockReceived, .rxIrqDisable]) := by decide
theorem test_blockColdReset : blockAnswer (.blockColdReset 0x00) (rxAt .init .unknown (some 0)) =
    some (some 0x00000000, [.txIrqEnable]) := by decide
theorem test_blockWarmReset : blockAnswer (.blockWarmReset 0x00) (rxAt .init .unknown (some 0)) =
    some (some 0x00000000, [.txIrqEnable]) := by decide
theorem test_blockBusy : blockAnswer (.blockBusy 0x00) (rxAt .init .unknown (some 0)) =
    some (some 0x00000000, [.blockReceived, .rxIrqDisable]) := by decide
theorem test_blockAck : blockAnswer (.blockAck 0x00) (awaiting (rxAt .init .unknown none)) =
    some (some 0x00000000, [.blockSent, .txIrqDisable, .ackReceivedByPeer, .blockReceived, .rxIrqDisable]) := by decide
theorem test_blockNack : blockAnswer (.blockNack 0x00) (rxAt .init .unknown (some 0)) =
    some (some 0x00000000, [.blockReceived, .rxIrqDisable]) := by decide

/-! ### Witnesses: states that meet a statement's hypotheses -/

theorem witness_DecodeEncodeRoundTrip :
    WellFormed (.blockData [] 0x00) = true ∧ WellFormed (.blockUnknown 0x01 0x00) = true ∧
      WellFormed (.blockUnknown 0xFF 0x00) = true := by decide

/-- Both sides of the equivalence are met, unused fields set. -/
theorem witness_CommandWordFields : decodeCmd 0x31ABCD#24 = .ok .txNext ∧ Presents 0x31ABCD#24 .txNext :=
  ⟨by decide, by unfold Presents; decide⟩

theorem witness_IllegalCommandWords :
    let s : State := { State.reset with host := ⟨[0x010200#24], none⟩ }
    (∃ e, decodeCmd 0x010200#24 = .error e) ∧ s.resetIn = .low ∧ waiting s = [.host] ∧
      s.port .host = ⟨[0x010200#24], none⟩ := ⟨⟨.noSuchBuffer, by decide⟩, by decide⟩

theorem witness_FramingRoundTrip :
    ([] : List Byte).length ≤ 2 ^ 24 - 1 ∧ decodeFrame [0x07, 0xFF] = some (⟨0x07, [], 0xFF⟩, []) ∧
      decodeFrame [0x00, 0x00, 0x00, 0x01, 0x7E, 0x00] = some (⟨0x00, [0x7E], 0x00⟩, []) := by decide

theorem witness_RbEnqEffect :
    0 < (full State.reset).capacity.toNat ∧ ((full State.reset).buf 0).size = (full State.reset).capacity ∧
      ((full State.reset).buf 1).size ≠ (full State.reset).capacity := by decide

theorem witness_RbDeqEffect :
    let s := holding 0 [0x10] State.reset
    0 < s.capacity.toNat ∧ (s.buf 1).size = 0#24 ∧ (s.buf 0).size ≠ 0#24 ∧
      Memory.read (s.buf 0).store (s.buf 0).readIndex.toNat = some 0x10 := by decide

/-- The stop of log 4, in a state no run reaches. -/
theorem witness_DequeueOfUnwrittenByteStops :
    exec (.rbDeq 0) (State.reset.setBuf 0 ⟨1#24, 0#24, 1#24, []⟩) = .fault .unwrittenStorage := rfl

theorem reset_ringInv : RingInv State.reset := by decide

theorem held_ringInv : RingInv (holding 0 [0xAB, 0xCD] State.reset) := by decide

theorem witness_FifoLaw : RingInv State.reset ∧ (State.reset.buf 0).size = 0#24 := ⟨reset_ringInv, rfl⟩

theorem witness_SemaphoreEffects :
    (State.reset.setPermits .rxContext 0#8).permits .rxContext = 0#8 ∧ State.reset.permits .rxContext ≠ 0#8 ∧
      ((State.reset.setPermits .rxContext 254#8).permits .rxContext).toNat < 255 ∧
      (State.reset.setPermits .rxContext 255#8).permits .rxContext = 255#8 := by decide

theorem witness_SemLockAttempts :
    State.reset.permits .rxContext ≠ 0#8 ∧ (State.reset.setPermits .rxContext 0#8).permits .rxContext = 0#8 ∧
      ((State.reset.setPort .rxirq ⟨[], some .rxContext⟩).port .rxirq).lock = some .rxContext := by decide

/-- Every clause of the tables has a context in its state. -/
theorem witness_EngineTables :
    (∀ st, ∃ r : RxContext, r.state = st) ∧ (∀ st, ∃ t : TxContext, t.state = st) :=
  ⟨fun st => ⟨{ RxContext.reset with state := st }, rfl⟩, fun st => ⟨{ TxContext.reset with state := st }, rfl⟩⟩

theorem witness_RxStartEffect :
    (rxAt .init .unknown none).permits .rxProcess = 0#8 ∧ State.reset.permits .rxProcess ≠ 0#8 := by decide

theorem witness_TxSendEffect :
    (withTx State.reset .init .data none false).permits .txProcess = 0#8 ∧ State.reset.permits .txProcess ≠ 0#8 := by
  decide

theorem witness_ByteStepEntryPriority :
    let r := rxAt .init .unknown none; let t := withTx State.reset .init .data none false
    State.reset.rx.inProgress = false ∧ State.reset.tx.inProgress = false ∧
      (raiseRx r).1.rx.inProgress = true ∧ (raiseRx r).1.rx.fault = true ∧
      (raiseTx t).tx.inProgress = true ∧ (raiseTx t).tx.fault = true ∧
      (r.setPermits .rxContext 0#8).rx.inProgress = true ∧ (r.setPermits .rxContext 0#8).rx.fault = false ∧
      (r.setPermits .rxContext 0#8).permits .rxContext = 0#8 ∧
      (t.setPermits .txContext 0#8).tx.inProgress = true ∧ (t.setPermits .txContext 0#8).tx.fault = false ∧
      (t.setPermits .txContext 0#8).permits .txContext = 0#8 := by decide

theorem witness_RxControlByteEffect :
    RxNormalStart (rxAt .init .unknown (some 0)) ∧ (rxAt .init .unknown (some 0)).rx.buf = some 0 ∧
      ((0x06#8).toNat ≤ 0x06 ∧ 0x06#8 = BlockType.nack.tag) ∧ 0x07 ≤ (0x07#8).toNat ∧
      ((0x00#8).toNat ≤ 0x06 ∧ 0x00#8 = BlockType.data.tag) := by decide

theorem witness_RxLengthBytesEffect :
    let s := rxAt .ctrlByte .data none
    (RxReady s ∧ s.rx.state = .ctrlByte ∧ s.rx.blockType = .data) ∧
      (RxReady (rxAt .lenByte1 .data none) ∧ (rxAt .lenByte1 .data none).rx.state = .lenByte1) ∧
      (RxReady (rxAt .lenByte2 .data none) ∧ (rxAt .lenByte2 .data none).rx.state = .lenByte2) := by decide

/-- A reception that expects one payload byte into buffer 0. -/
def expecting (s : State) : State :=
  { s with rx := { s.rx with state := .lenByte3, blockType := .data, expected := 1#24 } }

theorem witness_RxDataByteEffect :
    let n := expecting (rxAt .lenByte3 .data none)
    let b := expecting (rxAt .lenByte3 .data (some 0))
    let f := full b
    (RxReady n ∧ rxNext n.rx = some .data ∧ n.rx.buf = none) ∧
      (RxReady b ∧ rxNext b.rx = some .data ∧ b.rx.buf = some 0 ∧ (b.buf 0).size ≠ b.capacity) ∧
      (RxReady f ∧ rxNext f.rx = some .data ∧ f.rx.buf = some 0 ∧ (f.buf 0).size = f.capacity) := by decide

theorem witness_RxAckControlByteEffect :
    (RxReady (awaiting (rxAt .init .unknown none)) ∧
        rxNext (awaiting (rxAt .init .unknown none)).rx = some .ackCtrlByte) ∧
      (RxReady (awaiting (rxAt .check .data none)) ∧
        rxNext (awaiting (rxAt .check .data none)).rx = some .ackCtrlByte) := by decide

theorem witness_RxNoNextStateIsFatal :
    let t := withTx State.reset .rcvdAck .data none true
    (RxReady (rxAt .check .data none) ∧ rxNext (rxAt .check .data none).rx = none) ∧
      (TxReady t ∧ txNext t.tx (rbSize t.tx.buf t) = .none) := by decide

theorem witness_RxCheckEndsCycle :
    let s := rxAt .ctrlByte .busy none
    RxReady s ∧ rxNext s.rx = some .check ∧ requiresAck s.rx.blockType = false ∧ s.rx.ackExpected = false ∧
      s.permits .rxProcess = 0#8 := by decide

/-- A reception whose owed `Ack` has been sent. -/
def replied (s : State) : State := { s with rx := { s.rx with ackTxDone := true } }

theorem witness_RxEndRestartsWhileAckAwaited :
    let s := awaiting (rxAt .ctrlByte .nack (some 0))
    let d := replied (awaiting (rxAt .check .data (some 1)))
    (RxReady s ∧ s.rx.ackExpected = true ∧ s.permits .rxProcess = 0#8 ∧ rxNext s.rx = some .check ∧
        requiresAck s.rx.blockType = false ∧ s.rx.blockType ≠ .ack) ∧
      (RxReady d ∧ d.rx.ackExpected = true ∧ d.permits .rxProcess = 0#8 ∧ rxNext d.rx = some .transmittedAck) := by
  decide

theorem witness_RxCheckOwesAck :
    let s := rxAt .ctrlByte .coldReset none
    let u := withTx s .init .data none false
    (RxReady s ∧ rxNext s.rx = some .check ∧ requiresAck s.rx.blockType = true ∧ s.permits .txProcess ≠ 0#8) ∧
      (RxReady u ∧ rxNext u.rx = some .check ∧ requiresAck u.rx.blockType = true ∧ u.permits .txProcess = 0#8) := by
  decide

/-- A waiting transmission that owes an ACK. -/
def owing (s : State) : State := { s with tx := { s.tx with ackExpected := true } }

/-- Every clause: a main block and a dedicated cycle; an ACK owed; the re-drive lost while HOST holds semaphore 2. -/
theorem witness_AwaitedAckEndsBothCycles :
    let m := awaiting (rxAt .ctrlByte .ack (some 0))
    let d := awaiting (rxAt .ackCtrlByte .ack none)
    let l := m.setPermits .txContext 0#8
    (∀ x ∈ [m, d, owing m, l], RxReady x ∧ x.rx.ackExpected = true ∧ x.rx.blockType = .ack ∧
        x.permits .rxProcess = 0#8 ∧ x.permits .txProcess = 0#8) ∧
      (∀ x ∈ [m, owing m, l], rxNext x.rx = some .check) ∧
      (rxNext d.rx = some .ackCheck ∧ d.rx.ackTxDone = false) ∧ (∀ x ∈ [m, d, owing m], TxRedriven x) ∧
      ¬ TxRedriven l ∧ m.tx.ackExpected = false ∧ d.tx.ackExpected = false ∧ (owing m).tx.ackExpected = true := by decide

/-- Every clause: re-driven or not (here the transmission is itself half-way through an `Ack`), waiting or ending. -/
theorem witness_InCycleAckFlushesOwedAck :
    let s := awaiting (rxAt .ackCtrlByte .data (some 1))
    let u := withTx s .ackCtrlByte .data none true
    (∀ x ∈ [s, u, owing s, owing u, replied s, replied u, replied (owing s)],
        RxReady x ∧ x.rx.state = .ackCtrlByte ∧ x.permits .rxProcess = 0#8 ∧ x.permits .txProcess = 0#8) ∧
      (∀ x ∈ [s, owing s, replied s, replied (owing s)], TxRedriven x) ∧
      (∀ x ∈ [u, owing u, replied u], ¬ TxRedriven x) ∧
      (∀ x ∈ [owing s, owing u], x.rx.ackTxDone = false ∧ requiresAck x.rx.blockType = true ∧ x.tx.ackExpected = true) ∧
      (∀ x ∈ [replied s, replied u, replied (owing s)], x.rx.ackTxDone = true) ∧
      (replied s).tx.ackExpected = false ∧ (replied (owing s)).tx.ackExpected = true := by decide

theorem witness_TransmittedAckEndsCycle :
    let r := rxAt .check .data none
    let s : State := { r with rx := { r.rx with ackTxDone := true } }
    RxReady s ∧ rxNext s.rx = some .transmittedAck ∧ s.rx.ackExpected = false ∧ s.permits .rxProcess = 0#8 := by
  decide

theorem witness_CheckByteIsNotExamined :
    rxNext (rxAt .ctrlByte .busy none).rx = some .check ∧
      rxNext (rxAt .ackCtrlByte .ack none).rx = some .ackCheck := by decide

theorem witness_TxHeaderBytesEffect :
    let s := withTx State.reset
    TxReady (s .init .data none false) ∧
      (TxReady (s .ctrlByte .data none false) ∧ (s .ctrlByte .data none false).tx.blockType = .data) ∧
      TxReady (s .lenByte1 .data none false) ∧ TxReady (s .lenByte2 .data none false) := by decide

theorem witness_TxDataByteEffect :
    let s := withTx (holding 0 [0xAB] State.reset) .lenByte3 .data (some 0) false
    TxReady s ∧ s.tx.buf = some 0 ∧ s.tx.state = .lenByte3 ∧ (s.buf 0).size ≠ 0#24 ∧
      Memory.read (s.buf 0).store (s.buf 0).readIndex.toNat = some 0xAB := by decide

theorem witness_TxCheckEndsCycle :
    let s := withTx State.reset .ctrlByte .busy none false
    (∀ x ∈ [s, owing s], TxReady x ∧ txNext x.tx (rbSize x.tx.buf x) = .goto .check ∧
        requiresAck x.tx.blockType = false ∧ x.permits .txProcess = 0#8) ∧
      s.tx.ackExpected = false ∧ (owing s).tx.ackExpected = true ∧ (owing s).tx.blockType ≠ .ack := by decide

theorem witness_TxCheckWaitsForAck :
    let s := withTx State.reset .data .data (some 0) false
    let u := withTx (rxAt .init .unknown none) .ctrlByte .warmReset none false
    (TxReady s ∧ txNext s.tx (rbSize s.tx.buf s) = .goto .check ∧ requiresAck s.tx.blockType = true ∧
        s.tx.ackReceived = false ∧ s.permits .rxProcess ≠ 0#8) ∧
      (TxReady u ∧ txNext u.tx (rbSize u.tx.buf u) = .goto .check ∧ requiresAck u.tx.blockType = true ∧
        u.tx.ackReceived = false ∧ u.permits .rxProcess = 0#8) := by decide

theorem witness_OwedAckEndsBothCycles :
    let s := owing (withTx (rxAt .check .data (some 0)) .ctrlByte .ack none false)
    let a : State := { s with rx := { s.rx with ackExpected := true } }
    let n := owing (withTx State.reset .ctrlByte .ack none false)
    (∀ x ∈ [s, a, n], TxReady x ∧ x.tx.state = .ctrlByte ∧ x.tx.blockType = .ack ∧ x.tx.ackExpected = true ∧
        x.permits .txProcess = 0#8) ∧
      (∀ x ∈ [s, a], RxRedriven x ∧ x.permits .rxProcess = 0#8) ∧ s.rx.ackExpected = false ∧
      a.rx.ackExpected = true ∧ ¬ RxRedriven n := by decide

/-- A waiting transmission whose ACK has arrived. -/
def answered (s : State) : State := { s with tx := { s.tx with ackReceived := true } }

theorem witness_TxWaitStateStep :
    let s := awaiting (rxAt .init .unknown none)
    (∀ x ∈ [s, owing s, answered s, answered (owing s)], TxWaiting x ∧ x.permits .txProcess = 0#8) ∧
      s.tx.ackReceived = false ∧ s.tx.ackExpected = false ∧
      (owing s).tx.ackReceived = false ∧ (owing s).tx.ackExpected = true ∧
      (answered s).tx.ackReceived = true ∧ (answered s).tx.ackExpected = false ∧
      (answered (owing s)).tx.ackReceived = true ∧ (answered (owing s)).tx.ackExpected = true := by decide

/-- The three forms of the intermediate state, and each of the completion's four cases. -/
theorem witness_TxInCycleAckCheckByte :
    let i := owing (withTx State.reset .ackCtrlByte .data none true)
    let w := owing (withTx (rxAt .check .data (some 1)) .ackCtrlByte .data none true)
    let a : State := { w with rx := { w.rx with ackExpected := true } }
    let b := owing (withTx (rxAt .data .data (some 1)) .ackCtrlByte .busy none true)
    (∀ x ∈ [i, w, a, b, answered i], TxReady x ∧ x.tx.state = .ackCtrlByte ∧ x.permits .txProcess = 0#8) ∧
      (∀ x ∈ [i, b, answered i], ¬ RxRedriven x) ∧
      (∀ x ∈ [w, a], RxRedriven x ∧ x.permits .rxProcess = 0#8) ∧ w.rx.ackExpected = false ∧
      a.rx.ackExpected = true ∧
      (requiresAck a.tx.blockType = true ∧ a.tx.ackReceived = false) ∧
      (requiresAck i.tx.blockType = true ∧ i.tx.ackReceived = false ∧ i.permits .rxProcess ≠ 0#8) ∧
      (requiresAck i.tx.blockType = true ∧ (answered i).tx.ackReceived = true) ∧
      requiresAck b.tx.blockType = false := by decide

theorem witness_TransmissionSendsTheFrame :
    let s := holding 0 [0xAB, 0xCD] State.reset
    RingInv s ∧ s.permits .txProcess ≠ 0#8 ∧ s.permits .txContext ≠ 0#8 ∧ s.tx.fault = false ∧
      SourceHolds s (some 0) [0xAB, 0xCD] ∧ SourceHolds s none [] := by
  refine ⟨held_ringInv, ?_⟩; decide

theorem witness_DataBlockReceived :
    let s := rxAt .init .unknown (some 0)
    RingInv s ∧ RxNormalStart s ∧ s.rx.buf = some 0 ∧ s.rx.received = 0#24 ∧
      ([1, 2, 3, 4, 5, 6, 7, 8] : List Byte).length ≤ s.capacity.toNat := by decide

theorem witness_ResetBlockReceived :
    RxNormalStart (rxAt .init .unknown (some 0)) ∧ (rxAt .init .unknown (some 0)).permits .txProcess ≠ 0#8 := by decide

theorem witness_BlockWithoutReplyReceived :
    let s := rxAt .init .unknown (some 0)
    RxNormalStart s ∧ s.rx.ackExpected = false ∧ s.permits .rxProcess = 0#8 ∧
      WellFormed (.blockUnknown 0x07 0x00) = true ∧ WellFormed (.blockUnknown 0x01 0x00) = true := by decide

theorem witness_AckBlockCompletesTheSend :
    let s := awaiting (rxAt .init .unknown none)
    RxDedicatedStart s ∧ TxWaiting s ∧ s.rx.ackTxDone = false ∧ s.tx.ackExpected = false ∧
      s.permits .rxProcess = 0#8 ∧ s.permits .txProcess = 0#8 := by decide

theorem witness_BlockIsItsBytes : encode (.blockAck 0x7F) = .wire [0x05, 0x7F] := rfl

/-- A state into which reset arrives, inside a service or not. -/
def resetArriving (inService : Bool) (s : State) : State := { s with resetIn := .arrives 0 inService }

/-- Every clause: nobody waiting, a word, a pending `SEM_LOCK`, a byte of a block. -/
theorem witness_CommInitComparedWithReset :
    let w : State := resetArriving true { State.reset with host := ⟨[0x310000#24], none⟩ }
    let l : State := resetArriving true { State.reset with txirq := ⟨[], some .txProcess⟩ }
    let c : State := resetArriving true { State.reset with wireIn := [0x04, 0x00] }
    (resetArriving false State.reset).resetIn = .arrives 0 false ∧
      (∀ x ∈ [w, l, c, resetArriving true State.reset], x.resetIn = .arrives 0 true) ∧
      waiting (resetArriving true State.reset) = [] ∧
      (waiting w = [.host] ∧ w.port .host = ⟨[0x310000#24], none⟩) ∧
      (waiting l = [.txirq] ∧ (l.port .txirq).lock = some .txProcess) ∧
      (waiting c = [.channel] ∧ c.wireIn = 0x04 :: [0x00]) := by decide

/-- R380: reset inside the second byte of a block; both bytes are gone and nothing is answered. -/
theorem test_reset_inside_a_block :
    let s : State := { State.reset with wireIn := [0x04, 0x00], resetIn := .arrives 1 true }
    (match step s with
      | .next t => match step t with
        | .next u => decide (t.wireIn = [0x00] ∧ u.wireIn = [] ∧ u.responses = [] ∧ u.rx = RxContext.reset)
        | _ => false
      | _ => false) = true := by decide

/-- R393: both engines in their wait state, an `Ack` owed, `irq.tx_en` 0 and TXIRQ's next `TX_NEXT` at its port. -/
def ackOwedBothWait (d : Driver) : State :=
  { owing (awaiting (rxAt .check .data (some 1))) with driver := d, txirq := ⟨[0x310000#24], none⟩ }

/-- R393: a gated driver never presents it; a polling one does, and the owed `Ack`'s first byte goes out (R302). -/
theorem test_gated_deadlock :
    step (ackOwedBothWait .gated) = .next (ackOwedBothWait .gated) ∧
      (match step (ackOwedBothWait .polling) with
        | .next t => decide (t.wireOut = [0x05] ∧ t.tx.state = .ackCtrlByte)
        | _ => false) = true := ⟨rfl, by decide⟩

/-- HOST alone waits with a word; the channel alone waits with a block, with a part of one, and under a gated driver. -/
theorem witness_StepRunsTheDecodedInstruction :
    let h : State := { State.reset with host := ⟨[0x310000#24], none⟩ }
    let c : State := { State.reset with wireIn := [0x04, 0x00] }
    let g : State := { c with driver := .gated, irq := ⟨true, false⟩ }
    (h.resetIn = .low ∧ waiting h = [.host] ∧ h.port .host = ⟨[0x310000#24], none⟩ ∧
        decodeCmd 0x310000#24 = .ok .txNext) ∧
      (c.resetIn = .low ∧ waiting c = [.channel] ∧ c.driver = .polling ∧
        decodeBlock c.wireIn = some (.blockBusy 0x00, [])) ∧
      (waiting { c with wireIn := [0x04] } = [.channel] ∧ decodeBlock [0x04] = none) ∧
      (waiting g = [.channel] ∧ g.driver = .gated ∧ g.wireIn = 0x04 :: [0x00]) := by
  decide

/-- HOST and TXIRQ both wait with the word `w`. -/
def twoWait (w : CmdWord) : State := { State.reset with host := ⟨[w], none⟩, txirq := ⟨[w], none⟩ }

/-- Whichever of the two is picked, its word is what is served. -/
theorem fetch_twoWait (w : CmdWord) : ∃ t, fetch (twoWait w) = some (decodeCmd w, t) := by
  have hp : ∀ a, wordPresented (twoWait w) a w = true := fun a => wordPresented_polling rfl a w
  have hh : isWaiting (twoWait w) .host = true := hp .host
  have ht : isWaiting (twoWait w) .txirq = true := hp .txirq
  have hr : isWaiting (twoWait w) .rxirq = false := rfl
  have hc : isWaiting (twoWait w) .channel = false := rfl
  have hw : waiting (twoWait w) = [.host, .txirq] := by simp [waiting, hh, ht, hr, hc]
  rcases Nat.mod_two_eq_zero_or_one (Config.arbitration (twoWait w).served) with h | h <;>
    exact ⟨_, by simp only [fetch, hw, arbitrate, List.length_cons, List.length_nil, Nat.zero_add, h]; rfl⟩

/-- Two wait: a legal and an illegal word; and no lone requester, an incomplete block. -/
theorem witness_StepServesAWaitingRequester_two :
    (∃ t, fetch (twoWait 0x310000#24) = some (.ok .txNext, t)) ∧
      (∃ t, fetch (twoWait 0x070000#24) = some (.error .reservedOp, t)) ∧
      (∀ r, waiting (twoWait 0x310000#24) ≠ [r]) ∧ (twoWait 0x310000#24).port .txirq = ⟨0x310000#24 :: [], none⟩ ∧
      decodeBlock [0x04] = none :=
  ⟨fetch_twoWait _, fetch_twoWait _, fun _ => (nomatch ·), rfl, by decide⟩

/-- A gated driver: what each bit holds back, and what it lets through. -/
theorem witness_StepServesAWaitingRequester_gated :
    let g : Irq → State := fun q =>
      { State.reset with
        driver := .gated, irq := q, rxirq := ⟨[0x210005#24], none⟩, txirq := ⟨[0x310000#24], none⟩, wireIn := [0x05] }
    (g ⟨false, false⟩).driver = .gated ∧ waiting (g ⟨false, false⟩) = [] ∧
      waiting (g ⟨true, false⟩) = [.rxirq, .channel] ∧ waiting (g ⟨false, true⟩) = [.txirq] := by
  decide

theorem witness_StepServesAWaitingRequester :
    let c : State := { State.reset with wireIn := [0x04], resetIn := .arrives 3 true }
    State.reset.resetIn = .low ∧ waiting State.reset = [] ∧ c.resetIn = .arrives (2 + 1) true ∧ c.resetIn ≠ .low ∧
      c.wireIn = 0x04 :: [] ∧ waiting { State.reset with host := ⟨[0x310000#24], none⟩, wireIn := [0x04] } ≠ [] := by
  decide

/-- For the statements about every instruction that answers a next state. -/
theorem witness_exec_next :
    (∃ t, exec (.semLock .rxContext) State.reset = .next t) ∧ (∃ t, exec (.rbEnq 0 0xAB) State.reset = .next t) ∧
      (∃ t, exec .rxAvail State.reset = .next t) ∧ (∃ t, exec (.semTry .rxContext) State.reset = .next t) ∧
      (∃ t, exec (.rxStart none) State.reset = .next t) ∧ (∃ t, exec (.txSend none .busy) State.reset = .next t) ∧
      (∃ t, exec (.rbReset 1) State.reset = .next t) :=
  ⟨⟨_, rfl⟩, ⟨_, rfl⟩, ⟨_, rfl⟩, ⟨_, rfl⟩, ⟨_, rfl⟩, ⟨_, rfl⟩, ⟨_, rfl⟩⟩

theorem witness_RxByteStorageFrame :
    (∃ t, exec (.rxByte 0x01) (expecting (rxAt .lenByte3 .data (some 0))) = .next t) ∧
      rxByteStores (expecting (rxAt .lenByte3 .data (some 0))) = some (0, 0) ∧
      (∃ t, exec (.rxByte 0x01) (rxAt .init .data (some 0)) = .next t) ∧
      rxByteStores (rxAt .init .data (some 0)) = none :=
  ⟨⟨_, rfl⟩, by decide, ⟨_, rfl⟩, by decide⟩

theorem witness_StorageFrame :
    (∃ t, exec .txNext (withTx State.reset .init .data none false) = .next t) ∧ encode .txNext = .command 0x310000#24 ∧
      (∃ t, exec (.blockData [0x01] 0x00) (rxAt .init .unknown (some 0)) = .next t) ∧
      (rxAt .init .unknown (some 0)).rx.buf ≠ some 1 :=
  ⟨⟨_, rfl⟩, by decide, ⟨_, rfl⟩, by decide⟩

theorem witness_ContextLocksAreGivenBack :
    isSemOp .txNext = false ∧ Instr.txNext ≠ .commInit ∧
      ∃ t, exec .txNext (withTx State.reset .init .data none false) = .next t :=
  ⟨rfl, by decide, ⟨_, rfl⟩⟩

theorem witness_FaultIsSticky :
    (raiseRx (rxAt .init .data none)).1.rx.fault = true ∧ (raiseTx State.reset).tx.fault = true ∧
      ∃ t, exec (.rxByte 0x05) (raiseRx (rxAt .init .data none)).1 = .next t :=
  ⟨rfl, rfl, ⟨_, rfl⟩⟩

/-- A polling driver; and a gated one where only HOST waits, whatever the bits are. -/
theorem witness_IrqBitsAreNeverRead :
    let g : State := { State.reset with driver := .gated, host := ⟨[0x310000#24], none⟩ }
    State.reset.driver = .polling ∧ g.driver ≠ .polling ∧ waiting { g with irq := ⟨true, true⟩ } = waiting g := by
  decide

theorem witness_RingInvariantIsKept :
    RingInv (State.reset.withFetchWord 24 0x0200AB) ∧ ∃ t, step (State.reset.withFetchWord 24 0x0200AB) = .next t :=
  ⟨by decide, ⟨_, rfl⟩⟩

theorem witness_EngineInvariantIsKept :
    EngineInv (State.reset.withFetchWord 24 0x20FF00) ∧ NoSemOps (State.reset.withFetchWord 24 0x20FF00) ∧
      ∃ t, step (State.reset.withFetchWord 24 0x20FF00) = .next t :=
  ⟨by decide, ⟨⟨rfl, rfl, rfl⟩, List.forall_mem_singleton.2 (by rfl), List.forall_mem_nil _, List.forall_mem_nil _⟩,
    ⟨_, rfl⟩⟩

theorem witness_InvariantsHoldAtReset : 1 ≤ (1#24 : Len).toNat := by decide

end Sys2Proof.Tests
end

/-! ### What an instruction can do: one inversion for the statements about every instruction -/

namespace Sys2Proof.Machine

/-- The state a reception step acts on once it is past its entry (R349). -/
abbrev rxLocked (s : State) : State := s.setPermits .rxContext (s.permits .rxContext - 1#8)

/-- The state a transmission step acts on once it is past its entry (R349). -/
abbrev txLocked (s : State) : State := s.setPermits .txContext (s.permits .txContext - 1#8)

/-- What an instruction that answers a next state has done, one constructor per effect. -/
inductive Ran : Instr → State → State → Prop where
  /-- A query, or an operation that is turned away: a response only. -/
  | answered (i : Instr) (s : State) (st : Status) (v : Len) : Ran i s (s.respond st v)
  /-- R141. -/
  | ringReset (b : Handle) (s : State) : Ran (.rbReset b) s ((rbReset b s).respond .ok 0#24)
  /-- R142. -/
  | enqueued {b : Handle} {s : State} (v : Byte) (hs : (s.buf b).size ≠ s.capacity) :
      Ran (.rbEnq b v) s ((s.setBuf b ((s.buf b).enqueue s.capacity v)).respond .ok 0#24)
  /-- R143. -/
  | dequeued {b : Handle} {s : State} (v : Byte) (hs : (s.buf b).size ≠ 0#24) :
      Ran (.rbDeq b) s ((s.setBuf b ((s.buf b).dequeue s.capacity)).respond .ok (byteValue v))
  /-- R161, R162, R164. -/
  | semSet {i : Instr} (hi : isSemOp i = true) (s : State) (k : SemId) (n : Byte) :
      Ran i s ((s.setPermits k n).respond .ok 0#24)
  /-- R163: the attempt completes. -/
  | semTaken (k : SemId) (s : State) (n : Byte) :
      Ran (.semLock k) s (((s.setPermits k n).setPending none).respond .ok 0#24)
  /-- R163: the attempt fails. -/
  | semWaits (k : SemId) (s : State) : Ran (.semLock k) s ((s.setPending (some k)).emit .waitHook)
  /-- R181. -/
  | rxStarted (h : Option Handle) (s : State) :
      Ran (.rxStart h) s (((startReception h s).getD s).respond .started 0#24)
  /-- R241. -/
  | txStarted (h : Option Handle) (ty : BlockType) (s : State) :
      Ran (.txSend h ty) s (((sendBlock h ty s).getD s).respond .started 0#24)
  /-- R297. -/
  | initialised (s : State) :
      Ran .commInit s ((((initContexts s).emit .rxIrqDisable).emit .txIrqDisable).respond .ok 0#24)
  /-- R185. -/
  | receivedByte (v : Byte) (s : State) : Ran (.rxByte v) s (receiveByte v s)
  /-- R331 (log 8). -/
  | received {i : Instr} {bytes : List Byte} (hi : encode i = .wire bytes) (s : State) : Ran i s (receiveBytes bytes s)
  /-- R245, R246: no next state. -/
  | txFailed {s : State} (hr : TxReady s) (hn : txNext s.tx (rbSize s.tx.buf s) = .none) :
      Ran .txNext s ((exitStep .txContext (raiseTx (txLocked s))).respond .error 0#24)
  /-- R245, R246: a wait state stays. -/
  | txStayed {s : State} (hr : TxReady s) (hn : txNext s.tx (rbSize s.tx.buf s) = .stay) :
      Ran .txNext s (finishTx none (txLocked s))
  /-- R245, R246: a state is entered. -/
  | txEntered {s u : State} {n : TxState} {byte : Option Byte} (hr : TxReady s)
      (hn : txNext s.tx (rbSize s.tx.buf s) = .goto n)
      (ha : txAction n { txLocked s with tx := { s.tx with state := n } } = .ok (byte, u)) :
      Ran .txNext s (finishTx byte u)

/-- A block is its bytes, received in order (log 8). -/
theorem exec_of_encode_wire {i : Instr} {bytes : List Byte} (h : encode i = .wire bytes) (s : State) :
    exec i s = .next (receiveBytes bytes s) := by
  cases i <;> cases h <;> rfl

theorem execTxNext_ran {s t : State} (h : execTxNext s = .next t) : Ran .txNext s t := by
  rcases execTxNext_cases s with ⟨st, -, e⟩ | ⟨hr, ⟨hn, e⟩ | ⟨hn, e⟩ | ⟨n, hn, ⟨byte, u, ha, e⟩ | ⟨r, -, e⟩⟩⟩ <;>
    rw [e] at h <;> cases h
  · exact .answered ..
  · exact .txFailed hr hn
  · exact .txStayed hr hn
  · exact .txEntered hr hn ha

/-- Everything an instruction can do when it answers a next state. -/
theorem exec_ran {i : Instr} {s t : State} (h : exec i s = .next t) : Ran i s t := by
  have wire : ∀ {bytes}, encode i = .wire bytes → Ran i s t := fun hi => by
    rw [exec_of_encode_wire hi] at h
    cases h
    exact .received hi s
  cases i with
  | rbReset b => cases h; exact .ringReset b s
  | rbEnq b v =>
    replace h : execRbEnq b v s = .next t := h
    unfold execRbEnq at h
    split at h <;> cases h
    · exact .answered ..
    · obtain ⟨hs, rfl⟩ := rbEnqueue_eq_some.1 ‹_›
      exact .enqueued v hs
  | rbDeq b =>
    replace h : execRbDeq b s = .next t := h
    unfold execRbDeq at h
    rcases rbDequeue_cases b s with ⟨-, e⟩ | ⟨-, -, e⟩ | ⟨v, hs, -, e⟩ <;> rw [e] at h <;> cases h
    · exact .answered ..
    · exact .dequeued v hs
  | rbSize | rbEmpty | rbFull | rxAvail | rxFully => cases h; exact .answered ..
  | semInit k n => cases h; exact .semSet rfl ..
  | semTry k =>
    replace h : execSemTry k s = .next t := h
    unfold execSemTry at h
    split at h <;> cases h
    · exact .answered ..
    · obtain ⟨-, rfl⟩ := tryLock_eq_some.1 ‹_›
      exact .semSet rfl ..
  | semLock k =>
    replace h : execSemLock k s = .next t := h
    unfold execSemLock at h
    split at h <;> cases h
    · obtain ⟨-, rfl⟩ := tryLock_eq_some.1 ‹_›
      exact .semTaken ..
    · exact .semWaits ..
  | semRel k =>
    cases h
    unfold release
    split
    · exact .semSet rfl ..
    · exact .answered ..
  | rxStart b =>
    replace h : execRxStart b s = .next t := h
    unfold execRxStart at h
    split at h <;> cases h
    · exact .answered ..
    · have := Ran.rxStarted b s
      rwa [‹startReception b s = _›] at this
  | txSend b ty =>
    replace h : execTxSend b ty s = .next t := h
    unfold execTxSend at h
    split at h <;> cases h
    · exact .answered ..
    · have := Ran.txStarted b ty s
      rwa [‹sendBlock b ty s = _›] at this
  | commInit => cases h; exact .initialised s
  | rxByte v => cases h; exact .receivedByte v s
  | txNext => exact execTxNext_ran h
  | blockData | blockUnknown | blockColdReset | blockWarmReset | blockBusy | blockAck | blockNack => exact wire rfl

end Sys2Proof.Machine

/-! ### The port change of `SEM_LOCK` leaves the block alone -/

namespace Sys2Proof.Machine

@[simp] theorem State.setPending_capacity (s : State) (l : Option SemId) : (s.setPending l).capacity = s.capacity := by
  rw [(setPending_ports s l).2.2.2]

@[simp] theorem State.setPending_rx (s : State) (l : Option SemId) : (s.setPending l).rx = s.rx := by
  rw [(setPending_ports s l).2.2.2]

@[simp] theorem State.setPending_tx (s : State) (l : Option SemId) : (s.setPending l).tx = s.tx := by
  rw [(setPending_ports s l).2.2.2]

@[simp] theorem State.setPending_rb (s : State) (l : Option SemId) : (s.setPending l).rb = s.rb := by
  rw [(setPending_ports s l).2.2.2]

@[simp] theorem State.setPending_events (s : State) (l : Option SemId) : (s.setPending l).events = s.events := by
  rw [(setPending_ports s l).2.2.2]

@[simp] theorem State.setPending_responses (s : State) (l : Option SemId) :
    (s.setPending l).responses = s.responses := by
  rw [(setPending_ports s l).2.2.2]

@[simp] theorem State.setPending_wireOut (s : State) (l : Option SemId) : (s.setPending l).wireOut = s.wireOut := by
  rw [(setPending_ports s l).2.2.2]

end Sys2Proof.Machine

/-! ### The ring-buffer invariant (R42, R43) -/

namespace Sys2Proof.Machine

/-- A change inside the engines keeps the invariant. -/
theorem RingInv.engineOnly {s t : State} (hs : RingInv s) (h : EngineOnly s t) : RingInv t := by
  obtain ⟨hi, hr, -⟩ := h
  exact hs.congr hi.1 hr

theorem RingInv.finishTx {s : State} (hs : RingInv s) (byte : Option Byte) : RingInv (finishTx byte s) := by
  obtain ⟨hi, -, hr, -⟩ := finishTx_outputs byte s
  exact hs.congr hi.1 hr

theorem RingInv.receiveBytes {s : State} (hs : RingInv s) (l : List Byte) : RingInv (receiveBytes l s) :=
  receiveBytes_induction (P := fun s t => RingInv s → RingInv t) (fun _ h => h) (fun _ _ _ f g h => g (f h))
    (fun v _ h => h.receiveByte v) l s hs

/-- Every instruction keeps the ring-buffer invariant. -/
theorem Ran.ringInv {i : Instr} {s t : State} (h : Ran i s t) (hs : RingInv s) : RingInv t := by
  cases h with
  | answered | semSet | initialised => exact hs.congr rfl rfl
  | ringReset b => exact RingInv.congr (hs.rbReset b) rfl rfl
  | enqueued v hz => exact RingInv.congr (hs.rbEnqueue (rbEnqueue_eq_some.2 ⟨hz, rfl⟩)) rfl rfl
  | dequeued v hz => exact RingInv.congr (hs.setBuf _ (RingBuffer.ok_dequeue (hs _) hz)) rfl rfl
  | semTaken | semWaits => exact hs.congr (by simp) (by simp)
  | rxStarted b => exact RingInv.congr (hs.engineOnly (startReception_engineOnly b s)) rfl rfl
  | txStarted b ty => exact RingInv.congr (hs.engineOnly (sendBlock_engineOnly b ty s)) rfl rfl
  | receivedByte v => exact hs.receiveByte v
  | received => exact hs.receiveBytes _
  | txFailed => exact RingInv.congr (hs.engineOnly (.trans (.update s s.rx _ _ s.irq) (exitStep_engineOnly ..))) rfl rfl
  | txStayed => exact RingInv.finishTx (hs.congr (t := txLocked s) rfl rfl) none
  | txEntered _ _ ha =>
    refine RingInv.finishTx (RingInv.txAction ?_ ha) _
    exact hs.congr rfl rfl

/-- Taking what is served touches no buffer. -/
theorem RingInv.taken {s t : State} (hs : RingInv s) (h : TakenFrom s t) : RingInv t := by
  obtain ⟨e, -⟩ := h
  rw [e]
  exact hs.congr rfl rfl

/-- Every capacity above 0 has the invariant at reset. -/
theorem RingInv.resetWith {c : Len} (hc : 0 < c.toNat) : RingInv (State.resetWith c) := fun b => by
  rw [State.resetWith_buf]
  exact RingBuffer.ok_reset hc List.Pairwise.nil (by simp)

theorem RingInv.applyReset {s : State} (hs : RingInv s) : RingInv (applyReset s) :=
  RingInv.congr (RingInv.resetWith hs.capacity_pos) rfl rfl

theorem RingInv.abandonService {s : State} (hs : RingInv s) : RingInv (abandonService s) := by
  rcases abandonService_cases s with ⟨-, e⟩ | ⟨x, u, hf, e⟩ <;> rw [e]
  · exact hs.applyReset
  · exact (hs.taken (fetch_takes hf)).applyReset

theorem RingInv.serveNext {s t : State} (hs : RingInv s) (h : serveNext s = .next t) : RingInv t := by
  rcases serveNext_cases s with ⟨-, e⟩ | ⟨i, u, hf, e⟩ | ⟨r, u, hf, e⟩ <;> rw [e] at h
  · cases h; exact hs
  · exact (exec_ran h).ringInv (hs.taken (fetch_takes hf))
  · cases h; exact RingInv.congr (hs.taken (fetch_takes hf)) rfl rfl

/-- Settles O56: a service runs one instruction, which keeps the invariant, and reset establishes it. -/
theorem ringInvariantIsKept : Obligations.RingInvariantIsKept := by
  intro s t hs h
  rcases step_cases s with ⟨-, e⟩ | ⟨n, inService, -, e⟩ | ⟨-, e⟩ | ⟨-, e⟩ <;> rw [e] at h
  · exact hs.serveNext h
  · refine RingInv.serveNext ?_ h
    exact hs.congr rfl rfl
  · cases h; exact hs.applyReset
  · cases h; exact hs.abandonService

/-! ### No step stops -/

theorem RingInv.execTxNext_answers {s : State} (hs : RingInv s) : ∃ t, execTxNext s = .next t := by
  rcases execTxNext_cases s with ⟨_, -, e⟩ | ⟨-, ⟨-, e⟩ | ⟨-, e⟩ | ⟨n, -, ⟨_, _, -, e⟩ | ⟨_, ha, -⟩⟩⟩
  iterate 4 exact ⟨_, e⟩
  obtain ⟨_, _, ha'⟩ := RingInv.txAction_answers (s := { txLocked s with tx := { s.tx with state := n } })
    (hs.congr rfl rfl) n
  rw [ha'] at ha; cases ha

theorem RingInv.execRbDeq_answers {s : State} (hs : RingInv s) (b : Handle) : ∃ t, execRbDeq b s = .next t := by
  unfold execRbDeq
  rcases hs.rbDequeue b with ⟨-, e⟩ | ⟨v, t, -, -, -, e, -⟩ <;> rw [e] <;> exact ⟨_, rfl⟩

/-- Under the ring-buffer invariant every instruction answers a next state. -/
theorem RingInv.exec_answers {s : State} (hs : RingInv s) (i : Instr) : ∃ t, exec i s = .next t := by
  cases i with
  | rbDeq b => exact hs.execRbDeq_answers b
  | txNext => exact hs.execTxNext_answers
  | rbEnq b v => show ∃ t, execRbEnq b v s = _; unfold execRbEnq; split <;> exact ⟨_, rfl⟩
  | semTry k => show ∃ t, execSemTry k s = _; unfold execSemTry; split <;> exact ⟨_, rfl⟩
  | semLock k => show ∃ t, execSemLock k s = _; unfold execSemLock; split <;> exact ⟨_, rfl⟩
  | rxStart b => show ∃ t, execRxStart b s = _; unfold execRxStart; split <;> exact ⟨_, rfl⟩
  | txSend b ty => show ∃ t, execTxSend b ty s = _; unfold execTxSend; split <;> exact ⟨_, rfl⟩
  | _ => exact ⟨_, rfl⟩

theorem RingInv.serveNext_answers {s : State} (hs : RingInv s) : ∃ t, Machine.serveNext s = .next t := by
  rcases serveNext_cases s with ⟨-, e⟩ | ⟨i, u, hf, e⟩ | ⟨r, u, -, e⟩
  · exact ⟨_, e⟩
  · rw [e]; exact (hs.taken (fetch_takes hf)).exec_answers i
  · exact ⟨_, e⟩

/-- Settles O57: the two dequeues find a byte, by R43's part of the invariant, and nothing else can stop. -/
theorem noStepStops : Obligations.NoStepStops := by
  intro s hs
  rcases step_cases s with ⟨-, e⟩ | ⟨n, inService, -, e⟩ | ⟨-, e⟩ | ⟨-, e⟩
  · rw [e]; exact hs.serveNext_answers
  · rw [e]; exact RingInv.serveNext_answers (hs.congr rfl rfl)
  · exact ⟨_, e⟩
  · exact ⟨_, e⟩

/-- Settles O10: the fault is one of the three answers of `RbDequeue`, and no other answer is a fault. -/
theorem dequeueOfUnwrittenByteStops : Obligations.DequeueOfUnwrittenByteStops := by
  intro b s
  show execRbDeq b s = _ ↔ _
  unfold execRbDeq
  rcases rbDequeue_cases b s with ⟨hs, e⟩ | ⟨hs, hn, e⟩ | ⟨v, hs, hv, e⟩ <;> rw [e]
  · simp [hs]
  · simp [hs, hn]
  · simp [hv]

end Sys2Proof.Machine

/-! ### What the logs and the inputs look like after an instruction (R45, R76) -/

namespace Sys2Proof.Machine

/-- What every instruction but `SEM_LOCK` does outside the block: it leaves the inputs alone and appends to the logs. -/
abbrev Outward (s t : State) : Prop := SameInputs s t ∧ OutputsGrow s t

theorem OutputsGrow.trans {s t u : State} (h : OutputsGrow s t) (g : OutputsGrow t u) : OutputsGrow s u := by
  obtain ⟨he, hr, hw⟩ := h
  obtain ⟨ge, gr, gw⟩ := g
  exact ⟨he.trans ge, hr.trans gr, hw.trans gw⟩

theorem Outward.trans {s t u : State} (h : Outward s t) (g : Outward t u) : Outward s u :=
  ⟨h.1.trans g.1, h.2.trans g.2⟩

theorem Quiet.outward {s t : State} (h : Quiet s t) : Outward s t := by
  obtain ⟨hi, hr, hw, he⟩ := h
  exact ⟨hi, he, hr ▸ List.prefix_rfl, hw ▸ List.prefix_rfl⟩

theorem EngineOnly.outward {s t : State} (h : EngineOnly s t) : Outward s t := h.quiet.outward

theorem respond_outward (s : State) (st : Status) (v : Len) : Outward s (s.respond st v) :=
  ⟨⟨rfl, rfl, rfl, rfl, rfl, rfl, rfl, rfl, rfl⟩, List.prefix_rfl, List.prefix_append .., List.prefix_rfl⟩

theorem finishTx_outward (byte : Option Byte) (s : State) : Outward s (finishTx byte s) := by
  obtain ⟨hi, he, -, hw, hr⟩ := finishTx_outputs byte s
  exact ⟨hi, he, hr ▸ List.prefix_append .., hw ▸ List.prefix_append ..⟩

theorem receiveByte_outward (v : Byte) (s : State) : Outward s (receiveByte v s) := by
  obtain ⟨hi, he, hw, st, hr⟩ := receiveByte_outputs v s
  exact ⟨hi, he, hr ▸ List.prefix_append .., hw ▸ List.prefix_rfl⟩

theorem receiveBytes_outward (l : List Byte) (s : State) : Outward s (receiveBytes l s) :=
  receiveBytes_induction (P := Outward) (fun s => (EngineOnly.refl s).outward) (fun _ _ _ => Outward.trans)
    receiveByte_outward l s

theorem initContexts_engineOnly (s : State) : EngineOnly s (initContexts s) := .update ..

/-- Every instruction but `SEM_LOCK` leaves the inputs alone and appends to the logs. -/
theorem Ran.outward {i : Instr} {s t : State} (h : Ran i s t) (hi : ∀ k, i ≠ .semLock k) : Outward s t := by
  cases h with
  | answered => exact respond_outward ..
  | ringReset | enqueued | dequeued => exact (setBuf_quiet ..).outward.trans (respond_outward ..)
  | semSet => exact (EngineOnly.update s s.rx s.tx _ s.irq).outward.trans (respond_outward ..)
  | semTaken k | semWaits k => exact absurd rfl (hi k)
  | rxStarted => exact (startReception_engineOnly ..).outward.trans (respond_outward ..)
  | txStarted => exact (sendBlock_engineOnly ..).outward.trans (respond_outward ..)
  | initialised =>
    exact (((initContexts_engineOnly s).trans (emit_engineOnly ..)).trans (emit_engineOnly ..)).outward.trans
      (respond_outward ..)
  | receivedByte => exact receiveByte_outward ..
  | received => exact receiveBytes_outward ..
  | txFailed =>
    exact ((EngineOnly.update s s.rx _ _ s.irq).trans (exitStep_engineOnly ..)).outward.trans (respond_outward ..)
  | txStayed => exact (EngineOnly.update s s.rx s.tx _ s.irq).outward.trans (finishTx_outward ..)
  | txEntered _ _ ha =>
    exact (EngineOnly.update s s.rx _ _ s.irq).outward.trans
      ((txAction_quiet ha).1.outward.trans (finishTx_outward ..))

theorem Ran.outputsGrow {i : Instr} {s t : State} (h : Ran i s t) : OutputsGrow s t := by
  by_cases hi : ∀ k, i ≠ .semLock k
  · exact (h.outward hi).2
  · obtain ⟨k, rfl⟩ := not_forall_not.1 hi
    cases h with
    | answered => exact (respond_outward ..).2
    | semSet => exact (respond_outward ..).2
    | semTaken | semWaits => simp [OutputsGrow]
    | received hi => cases hi

/-- Settles O49: whatever an instruction does, it only appends to the logs. -/
theorem outputStreamsOnlyGrow : Obligations.OutputStreamsOnlyGrow := fun _ _ _ h => (exec_ran h).outputsGrow

end Sys2Proof.Machine

/-! ### What the ends of a cycle leave in their engine's context (R200, R262) -/

namespace Sys2Proof.Machine

@[simp] theorem startReception_rx_fault (h : Option Handle) (s : State) :
    ((startReception h s).getD s).rx.fault = s.rx.fault := by
  rw [startReception_eq]; split <;> rfl

@[simp] theorem startReception_rx_ackExpected (h : Option Handle) (s : State) :
    ((startReception h s).getD s).rx.ackExpected = s.rx.ackExpected := by
  rw [startReception_eq]; split <;> rfl

@[simp] theorem sendBlock_tx_fault (h : Option Handle) (ty : BlockType) (s : State) :
    ((sendBlock h ty s).getD s).tx.fault = s.tx.fault := by
  rw [sendBlock_eq]; split <;> rfl

/-- An ended reception is over, or has started again with its buffer. -/
theorem endReceptionCycle_rx_cases (s : State) :
    (endReceptionCycle s).rx = { s.rx with inProgress := false } ∨
    (endReceptionCycle s).rx =
      { s.rx with state := .init, expected := 0#24, received := 0#24, inProgress := true, ackSeen := false } := by
  rw [endReceptionCycle_eq]
  split
  · rw [startReception_eq]
    split
    · exact .inl rfl
    · exact .inr rfl
  · exact .inl rfl

@[simp] theorem endReceptionCycle_rx_fault (s : State) : (endReceptionCycle s).rx.fault = s.rx.fault := by
  rcases endReceptionCycle_rx_cases s with h | h <;> rw [h]

@[simp] theorem endReceptionCycle_rx_buf (s : State) : (endReceptionCycle s).rx.buf = s.rx.buf := by
  rcases endReceptionCycle_rx_cases s with h | h <;> rw [h]

@[simp] theorem endReceptionCycle_rx_ackExpected (s : State) :
    (endReceptionCycle s).rx.ackExpected = s.rx.ackExpected := by
  rcases endReceptionCycle_rx_cases s with h | h <;> rw [h]

@[simp] theorem endTransmissionCycle_tx_fault (s : State) : (endTransmissionCycle s).tx.fault = s.tx.fault := by
  rw [endTransmissionCycle_eq]
  split
  · rw [sendBlock_tx_fault]; rfl
  · rfl

@[simp] theorem ackReceivedHandling_tx_fault (s : State) : (ackReceivedHandling s).tx.fault = s.tx.fault := by
  rw [ackReceivedHandling, redriveTx_eq rfl]
  split <;> simp

/-- After ACK-sent handling the reception engine has its flag set, or has ended its cycle with the flag consumed
(R293). -/
theorem ackSentHandling_cases (s : State) :
    ackSentHandling s =
        { s with tx := { s.tx with ackExpected := false }, rx := { s.rx with ackTxDone := true } } ∨
    RxReady s ∧ ackSentHandling s = endReceptionCycle
      { s with tx := { s.tx with ackExpected := false }
               rx := { s.rx with state := .transmittedAck, ackTxDone := false } } := by
  rw [ackSentHandling, redriveRx_eq rfl]
  split
  · exact .inr ⟨(‹RxRedriven _› : _).1, rfl⟩
  · exact .inl rfl

@[simp] theorem ackSentHandling_rx_fault (s : State) : (ackSentHandling s).rx.fault = s.rx.fault := by
  rcases ackSentHandling_cases s with h | ⟨-, h⟩ <;> simp [h]

@[simp] theorem ackSentHandling_rx_ackExpected (s : State) :
    (ackSentHandling s).rx.ackExpected = s.rx.ackExpected := by
  rcases ackSentHandling_cases s with h | ⟨-, h⟩ <;> simp [h]

/-- The completion procedure leaves both fault bits alone. -/
theorem completion_faults (s : State) :
    (completion s).rx.fault = s.rx.fault ∧ (completion s).tx.fault = s.tx.fault := by
  unfold completion
  split
  · split <;> simp
  · simp

end Sys2Proof.Machine

/-! ### Fault bits (R32, R39, R342) -/

namespace Sys2Proof.Machine

/-- No fault bit is cleared. -/
abbrev FaultsStay (s t : State) : Prop :=
  (s.rx.fault = true → t.rx.fault = true) ∧ (s.tx.fault = true → t.tx.fault = true)

theorem FaultsStay.refl (s : State) : FaultsStay s s := ⟨id, id⟩

theorem FaultsStay.trans {s t u : State} (h : FaultsStay s t) (g : FaultsStay t u) : FaultsStay s u :=
  ⟨g.1 ∘ h.1, g.2 ∘ h.2⟩

theorem FaultsStay.of_eq {s t : State} (hr : t.rx.fault = s.rx.fault) (ht : t.tx.fault = s.tx.fault) :
    FaultsStay s t := ⟨hr.trans, ht.trans⟩

theorem raiseRx_faultsStay (s : State) : FaultsStay s (raiseRx s).1 := ⟨fun _ => rfl, id⟩

theorem rxCheckAction_faultsStay (s : State) : FaultsStay s (rxCheckAction s) := by
  unfold rxCheckAction
  split
  · exact .of_eq (by simp) (by simp)
  · split <;> exact .of_eq (by simp) (by simp)

theorem rxAckCheckAction_faultsStay (s : State) : FaultsStay s (rxAckCheckAction s) := by
  simp only [rxAckCheckAction, transmittedAckAction]
  split
  · exact .of_eq (by simp) (by simp)
  · split <;> exact .of_eq (by simp) (by simp)

theorem rxAction_faultsStay (n p : RxState) (v : Byte) (s : State) : FaultsStay s (rxAction n p v s).1 := by
  cases n with
  | ctrlByte =>
    show FaultsStay s (rxCtrlByteAction v s)
    rcases rxCtrlByteAction_cases v s with ⟨b, -, -, e⟩ | ⟨-, e⟩ <;> rw [e] <;> exact .refl s
  | data =>
    show FaultsStay s (rxDataAction v s).1
    rcases rxDataAction_cases v s with ⟨-, e⟩ | ⟨b, -, -, e⟩ | ⟨b, -, -, e⟩ <;> rw [e]
    · exact .refl s
    · exact raiseRx_faultsStay s
    · exact .refl s
  | check => exact rxCheckAction_faultsStay s
  | ackCtrlByte =>
    show FaultsStay s (rxAckCtrlByteAction p v s).1
    unfold rxAckCtrlByteAction
    split
    · exact raiseRx_faultsStay s
    · split <;> exact .refl s
  | ackCheck => exact rxAckCheckAction_faultsStay s
  | transmittedAck => exact .of_eq (by simp [rxAction, transmittedAckAction]) (by simp [rxAction, transmittedAckAction])
  | init | lenByte1 | lenByte2 | lenByte3 =>
    simp [FaultsStay, rxAction, rxInitAction, rxLenByte1Action, rxLenByte2Action, rxLenByte3Action]

theorem rxTransition_faultsStay (v : Byte) (s : State) : FaultsStay s (rxTransition v s).1 := by
  unfold rxTransition
  split
  · exact raiseRx_faultsStay s
  · rename_i n _
    exact rxAction_faultsStay n _ v { s with rx := { s.rx with state := n } }

theorem receiveByte_faultsStay (v : Byte) (s : State) : FaultsStay s (receiveByte v s) := by
  show FaultsStay s (onByteReceived v s).1
  rcases onByteReceived_cases v s with ⟨-, e⟩ | ⟨-, e⟩ | ⟨-, e⟩ <;> rw [e]
  · exact (rxTransition_faultsStay v (rxLocked s)).trans (.of_eq (by simp) (by simp))
  · exact .refl s
  · exact .refl s

theorem receiveBytes_faultsStay (l : List Byte) (s : State) : FaultsStay s (receiveBytes l s) :=
  receiveBytes_induction (P := FaultsStay) .refl (fun _ _ _ => FaultsStay.trans) receiveByte_faultsStay l s

theorem txAction_faultsStay {n : TxState} {s t : State} {byte : Option Byte} (h : txAction n s = .ok (byte, t)) :
    FaultsStay s t := by
  cases n with
  | data =>
    replace h : txDataAction s = .ok (byte, t) := h
    rcases txDataAction_cases s with e | e | ⟨b, v, -, -, -, e⟩ <;> rw [e] at h <;> cases h <;> exact .refl s
  | check =>
    cases h
    obtain ⟨hr, ht⟩ := completion_faults
      (if s.tx.blockType = .ack ∧ s.tx.ackExpected = true then ackSentHandling s else s)
    exact .of_eq (hr.trans (by split <;> simp)) (ht.trans (by split <;> simp))
  | ackCheck =>
    cases h
    obtain ⟨hr, ht⟩ := completion_faults (ackSentHandling { s with tx := { s.tx with done := true } })
    exact .of_eq (hr.trans (by simp)) (ht.trans (by simp))
  | rcvdAck => cases h; exact .of_eq (by simp) (by simp)
  | _ => cases h; exact .refl s

@[simp] theorem finishTx_rx (byte : Option Byte) (s : State) : (finishTx byte s).rx = s.rx := by
  unfold finishTx; split <;> simp

@[simp] theorem finishTx_tx (byte : Option Byte) (s : State) : (finishTx byte s).tx = s.tx := by
  unfold finishTx; split <;> simp

/-- No instruction but `COMM_INIT` clears a fault bit. -/
theorem Ran.faultsStay {i : Instr} {s t : State} (h : Ran i s t) (hi : i ≠ .commInit) : FaultsStay s t := by
  cases h with
  | answered | ringReset | enqueued | dequeued | semSet => exact .refl s
  | semTaken | semWaits => exact .of_eq (by simp) (by simp)
  | rxStarted | txStarted => exact .of_eq (by simp) (by simp)
  | initialised => exact absurd rfl hi
  | receivedByte => exact receiveByte_faultsStay ..
  | received => exact receiveBytes_faultsStay ..
  | txFailed => exact ⟨by simp [raiseTx], by simp [raiseTx]⟩
  | txStayed => exact .of_eq (by simp) (by simp)
  | txEntered _ _ ha => exact (txAction_faultsStay ha).trans (.of_eq (by simp) (by simp))

/-- Settles O54: every effect of an instruction but `COMM_INIT` keeps or sets the two bits. -/
theorem faultIsSticky : Obligations.FaultIsSticky := fun _ _ _ hi h => (exec_ran h).faultsStay hi

end Sys2Proof.Machine

/-! ### Storage (R43) -/

namespace Sys2Proof.Machine

theorem SameStorage.of_rb {s t : State} (h : t.rb = s.rb) : SameStorage s t := fun _ _ => by
  simp only [State.buf, h]

theorem SameStorage.trans {s t u : State} (h : SameStorage s t) (g : SameStorage t u) : SameStorage s u :=
  fun b i => (g b i).trans (h b i)

/-- A change of one buffer's indices and size stores nothing. -/
theorem SameStorage.setBuf (s : State) {b : Handle} {q : RingBuffer} (h : q.store = (s.buf b).store) :
    SameStorage s (s.setBuf b q) := fun c i => by
  rw [State.buf_setBuf]
  split
  · subst_vars; rw [h]
  · rfl

/-- Every operation of the command port but `RB_ENQ` and `RX_BYTE` stores nothing. -/
theorem Ran.sameStorage {i : Instr} {s t : State} (h : Ran i s t) (hw : ∀ bytes, encode i ≠ .wire bytes)
    (he : ∀ b v, i ≠ .rbEnq b v) (hr : ∀ v, i ≠ .rxByte v) : SameStorage s t := by
  cases h with
  | answered | semSet | initialised => exact .of_rb rfl
  | ringReset => exact SameStorage.setBuf s rfl
  | enqueued v => exact absurd rfl (he _ v)
  | dequeued => exact SameStorage.setBuf s rfl
  | semTaken | semWaits => exact .of_rb (by simp)
  | rxStarted b => exact .of_rb (startReception_engineOnly b s).2.1
  | txStarted b ty => exact .of_rb (sendBlock_engineOnly b ty s).2.1
  | receivedByte v => exact absurd rfl (hr v)
  | received hi => exact absurd hi (hw _)
  | txFailed => exact .of_rb (exitStep_engineOnly ..).2.1
  | txStayed => exact .of_rb (finishTx_outputs ..).2.2.1
  | txEntered _ _ ha => exact SameStorage.trans (txAction_quiet ha).2 (.of_rb (finishTx_outputs ..).2.2.1)

/-- The bound buffer stays bound, and every other buffer is left alone. -/
abbrev BoundOnly (s t : State) : Prop :=
  t.rx.buf = s.rx.buf ∧ ∀ c, s.rx.buf ≠ some c → t.buf c = s.buf c

theorem BoundOnly.refl (s : State) : BoundOnly s s := ⟨rfl, fun _ _ => rfl⟩

theorem BoundOnly.trans {s t u : State} (h : BoundOnly s t) (g : BoundOnly t u) : BoundOnly s u :=
  ⟨g.1.trans h.1, fun c hc => (g.2 c (h.1 ▸ hc)).trans (h.2 c hc)⟩

theorem BoundOnly.of_rb {s t : State} (hb : t.rx.buf = s.rx.buf) (h : t.rb = s.rb) : BoundOnly s t :=
  ⟨hb, fun _ _ => by simp only [State.buf, h]⟩

theorem BoundOnly.setBuf {s : State} {b : Handle} (hb : s.rx.buf = some b) (q : RingBuffer) :
    BoundOnly s (s.setBuf b q) := by
  refine ⟨rfl, fun c hc => ?_⟩
  rw [State.buf_setBuf, if_neg]
  rintro rfl
  exact hc hb

theorem rxCheckAction_rx_buf (s : State) : (rxCheckAction s).rx.buf = s.rx.buf := by
  unfold rxCheckAction
  split
  · simp
  · split <;> simp

theorem rxAckCheckAction_rx_buf (s : State) : (rxAckCheckAction s).rx.buf = s.rx.buf := by
  simp only [rxAckCheckAction, transmittedAckAction]
  split
  · simp
  · split <;> simp

theorem rxAction_boundOnly (n p : RxState) (v : Byte) (s : State) : BoundOnly s (rxAction n p v s).1 := by
  by_cases h1 : n = .ctrlByte
  · subst h1
    show BoundOnly s (rxCtrlByteAction v s)
    rcases rxCtrlByteAction_cases v s with ⟨b, -, hb, e⟩ | ⟨-, e⟩ <;> rw [e]
    · exact BoundOnly.setBuf (s := { s with rx := { s.rx with blockType := .data } }) hb _
    · exact .refl s
  by_cases h2 : n = .data
  · subst h2
    show BoundOnly s (rxDataAction v s).1
    rcases rxDataAction_cases v s with ⟨-, e⟩ | ⟨b, -, -, e⟩ | ⟨b, hb, -, e⟩ <;> rw [e]
    · exact .refl s
    · exact .refl s
    · exact BoundOnly.setBuf hb _
  refine .of_rb ?_ (rxAction_engineOnly h1 h2 p v s).2.1
  cases n with
  | check => exact rxCheckAction_rx_buf s
  | ackCheck => exact rxAckCheckAction_rx_buf s
  | transmittedAck => simp [rxAction, transmittedAckAction]
  | ackCtrlByte =>
    show (rxAckCtrlByteAction p v s).1.rx.buf = _
    unfold rxAckCtrlByteAction
    split
    · rfl
    · split <;> rfl
  | ctrlByte => exact absurd rfl h1
  | data => exact absurd rfl h2
  | init | lenByte1 | lenByte2 | lenByte3 =>
    simp [rxAction, rxInitAction, rxLenByte1Action, rxLenByte2Action, rxLenByte3Action]

theorem rxTransition_boundOnly (v : Byte) (s : State) : BoundOnly s (rxTransition v s).1 := by
  unfold rxTransition
  split
  · exact .refl s
  · rename_i n _
    exact rxAction_boundOnly n _ v { s with rx := { s.rx with state := n } }

theorem receiveByte_boundOnly (v : Byte) (s : State) : BoundOnly s (receiveByte v s) := by
  show BoundOnly s (onByteReceived v s).1
  rcases onByteReceived_cases v s with ⟨-, e⟩ | ⟨-, e⟩ | ⟨-, e⟩ <;> rw [e]
  · exact (rxTransition_boundOnly v (rxLocked s)).trans (.of_rb (by simp) (exitStep_engineOnly ..).2.1)
  · exact .refl s
  · exact .refl s

theorem receiveBytes_boundOnly (l : List Byte) (s : State) : BoundOnly s (receiveBytes l s) :=
  receiveBytes_induction (P := BoundOnly) .refl (fun _ _ _ => BoundOnly.trans) receiveByte_boundOnly l s

/-- Settles O51: of the operations only the two enqueues store, and a block's bytes touch the bound buffer only. -/
theorem storageFrame : Obligations.StorageFrame := by
  refine fun i s t h => ⟨fun w hw he hr => ?_, fun bytes hb c hc => ?_⟩
  · refine (exec_ran h).sameStorage (fun bytes hb => ?_) he hr
    rw [hw] at hb; cases hb
  · rw [exec_of_encode_wire hb] at h
    cases h
    exact (receiveBytes_boundOnly bytes s).2 c hc

/-- Every entry action of reception but `Data` stores nothing. -/
theorem rxAction_sameStorage {n : RxState} (hn : n ≠ .data) (p : RxState) (v : Byte) (s : State) :
    SameStorage s (rxAction n p v s).1 := by
  by_cases h1 : n = .ctrlByte
  · subst h1
    show SameStorage s (rxCtrlByteAction v s)
    rcases rxCtrlByteAction_cases v s with ⟨b, -, -, e⟩ | ⟨-, e⟩ <;> rw [e]
    · exact SameStorage.setBuf { s with rx := { s.rx with blockType := .data } } rfl
    · exact .of_rb rfl
  · exact .of_rb (rxAction_engineOnly h1 hn p v s).2.1

/-- The bank after a byte step with a next state is its entry action's. -/
theorem receiveByte_rb_of_goto {s : State} {n : RxState} (v : Byte) (hr : RxReady s) (hn : rxNext s.rx = some n) :
    (receiveByte v s).rb =
      (rxAction n s.rx.state v { rxLocked s with rx := { s.rx with state := n } }).1.rb := by
  show (onByteReceived v s).1.rb = _
  rw [onByteReceived_goto hr hn]
  rfl

/-- A byte step that is turned away, or has no next state, leaves the bank alone. -/
theorem receiveByte_rb_of_no_goto {s : State} (v : Byte) (h : RxReady s → rxNext s.rx = none) :
    (receiveByte v s).rb = s.rb := by
  show (onByteReceived v s).1.rb = _
  rcases onByteReceived_cases v s with ⟨hr, e⟩ | ⟨-, e⟩ | ⟨-, e⟩ <;> rw [e]
  have ht : rxTransition v (rxLocked s) = raiseRx (rxLocked s) := by
    unfold rxTransition
    rw [show rxNext (rxLocked s).rx = none from h hr]
  rw [ht]
  exact (exitStep_engineOnly ..).2.1

/-- R189: when `RX_BYTE` stores, and where. -/
theorem rxByteStores_eq_some {s : State} {b : Handle} {i : Nat} :
    rxByteStores s = some (b, i) ↔
      (RxReady s ∧ rxNext s.rx = some .data) ∧ s.rx.buf = some b ∧ (s.buf b).size ≠ s.capacity ∧
        (s.buf b).writeIndex.toNat = i := by
  unfold rxByteStores
  split
  · rename_i h
    cases s.rx.buf with
    | none => simp
    | some c =>
      dsimp only
      split <;> rename_i hc
      · refine ⟨nofun, ?_⟩
        rintro ⟨-, ⟨⟩, hs, -⟩
        exact absurd hc hs
      · refine ⟨?_, ?_⟩
        · rintro ⟨⟩
          exact ⟨h, rfl, hc, rfl⟩
        · rintro ⟨-, ⟨⟩, -, rfl⟩
          rfl
  · exact ⟨nofun, fun h => absurd h.1 ‹_›⟩

/-- Where `RX_BYTE` stores, it enqueues its byte (R142, R189). -/
theorem receiveByte_rb_of_stores {s : State} {b : Handle} {i : Nat} (v : Byte) (h : rxByteStores s = some (b, i)) :
    (receiveByte v s).rb = (s.setBuf b ((s.buf b).enqueue s.capacity v)).rb := by
  obtain ⟨⟨hr, hn⟩, hb, hs, -⟩ := rxByteStores_eq_some.1 h
  rw [receiveByte_rb_of_goto v hr hn]
  show (rxDataAction v { rxLocked s with rx := { s.rx with state := .data } }).1.rb = _
  rcases rxDataAction_cases v { rxLocked s with rx := { s.rx with state := .data } } with
    ⟨hb', -⟩ | ⟨c, hb', hs', -⟩ | ⟨c, hb', -, e⟩ <;> cases hb.symm.trans hb'
  · exact absurd hs' hs
  · rw [e]; rfl

/-- Where `RX_BYTE` stores nothing, every storage byte reads as before. -/
theorem receiveByte_sameStorage {s : State} (v : Byte) (h : rxByteStores s = none) :
    SameStorage s (receiveByte v s) := by
  by_cases hg : RxReady s ∧ ∃ n, rxNext s.rx = some n
  · obtain ⟨hr, n, hn⟩ := hg
    refine SameStorage.trans ?_ (.of_rb (receiveByte_rb_of_goto v hr hn))
    by_cases hd : n = .data
    · subst hd
      show SameStorage s (rxDataAction v { rxLocked s with rx := { s.rx with state := .data } }).1
      rcases rxDataAction_cases v { rxLocked s with rx := { s.rx with state := .data } } with
        ⟨-, e⟩ | ⟨c, -, -, e⟩ | ⟨c, hb, hs, -⟩
      · rw [e]; exact .of_rb rfl
      · rw [e]; exact .of_rb rfl
      · rw [rxByteStores_eq_some.2 ⟨⟨hr, hn⟩, hb, hs, rfl⟩] at h; cases h
    · exact rxAction_sameStorage hd _ v { rxLocked s with rx := { s.rx with state := n } }
  · exact .of_rb <| receiveByte_rb_of_no_goto v fun hr =>
      Option.eq_none_iff_forall_ne_some.2 fun n hn => hg ⟨hr, n, hn⟩

/-- Settles O50: a byte that is stored is enqueued in the bound buffer, at its write index. -/
theorem rxByteStorageFrame : Obligations.RxByteStorageFrame := by
  rintro v s t ⟨⟩
  refine ⟨fun b i h => ?_, receiveByte_sameStorage v⟩
  obtain ⟨-, -, -, rfl⟩ := rxByteStores_eq_some.1 h
  have hbuf : ∀ c, (receiveByte v s).buf c = (s.setBuf b ((s.buf b).enqueue s.capacity v)).buf c := fun c => by
    simp only [State.buf, receiveByte_rb_of_stores v h]
  refine ⟨?_, fun c j hne => ?_⟩
  · rw [hbuf, State.buf_setBuf, if_pos rfl]
    exact (Memory.read_write ..).trans (if_pos rfl)
  · rw [hbuf, State.buf_setBuf]
    split
    · subst_vars
      refine (Memory.read_write ..).trans (if_neg ?_)
      rintro rfl
      exact hne rfl
    · rfl

end Sys2Proof.Machine

/-! ### The engines' invariant in two halves, one per engine (R48) -/

namespace Sys2Proof.Machine

/-- The reception engine's half: R48 (a) and (c) of its process lock, and (d). -/
structure RxInv (s : State) : Prop where
  lock : s.permits .rxProcess = 0#8 ∨ s.permits .rxProcess = 1#8
  held : s.rx.inProgress = true → s.permits .rxProcess = 0#8
  count : CountInv s

/-- The transmission engine's half: R48 (a) and (c) of its process lock, and (f) with what makes it inductive. -/
structure TxInv (s : State) : Prop where
  lock : s.permits .txProcess = 0#8 ∨ s.permits .txProcess = 1#8
  held : s.tx.inProgress = true → s.permits .txProcess = 0#8
  awaited : AwaitedAckInv s
  wait : WaitInv s

/-- What holds also inside a step, where a context lock is taken. -/
structure CoreInv (s : State) : Prop where
  rx : RxInv s
  tx : TxInv s

theorem engineInv_iff {s : State} : EngineInv s ↔ (∀ k, ContextLock k → s.permits k = 1#8) ∧ CoreInv s := by
  constructor
  · rintro ⟨⟨hrc, htc, hrp, htp, hri, hti⟩, hc, ha, hw⟩
    refine ⟨?_, ⟨hrp, hri, hc⟩, htp, hti, ha, hw⟩
    rintro k (rfl | rfl)
    · exact hrc
    · exact htc
  · rintro ⟨hk, ⟨hrp, hri, hc⟩, htp, hti, ha, hw⟩
    exact ⟨⟨hk _ (.inl rfl), hk _ (.inr rfl), hrp, htp, hri, hti⟩, hc, ha, hw⟩

theorem RxInv.congr {s t : State} (h : RxInv s) (hr : t.rx = s.rx)
    (hp : t.permits .rxProcess = s.permits .rxProcess) : RxInv t := by
  obtain ⟨hl, hi, hc⟩ := h
  exact ⟨hp ▸ hl, by rwa [hr, hp], by rwa [CountInv, hr]⟩

theorem TxInv.congr {s t : State} (h : TxInv s) (ht : t.tx = s.tx)
    (ha : t.rx.ackExpected = true → s.rx.ackExpected = true)
    (hp : t.permits .txProcess = s.permits .txProcess) : TxInv t := by
  obtain ⟨hl, hi, hA, h1, h2, h3⟩ := h
  refine ⟨hp ▸ hl, by rwa [ht, hp], ?_, ?_, ?_, by rwa [ht]⟩
  · rw [AwaitedAckInv, ht]; exact fun e => hA (ha e)
  · rwa [ht]
  · rw [ht]; exact fun e => h2 ⟨e.1, ha e.2⟩

theorem CoreInv.congr {s t : State} (h : CoreInv s) (hr : t.rx = s.rx) (ht : t.tx = s.tx)
    (hrp : t.permits .rxProcess = s.permits .rxProcess) (htp : t.permits .txProcess = s.permits .txProcess) :
    CoreInv t := ⟨h.rx.congr hr hrp, h.tx.congr ht (by rw [hr]; exact id) htp⟩

/-- A change of the reception context that keeps its two links to the rest. -/
theorem CoreInv.setRx {s : State} (h : CoreInv s) (r : RxContext) (hi : r.inProgress = s.rx.inProgress)
    (ha : r.ackExpected = s.rx.ackExpected) (hc : CountInv { s with rx := r }) : CoreInv { s with rx := r } :=
  ⟨⟨h.rx.lock, fun e => h.rx.held (hi.symm.trans e), hc⟩, h.tx.congr rfl ha.symm.trans rfl⟩

/-- An ACK is awaited only while a transmission is in progress (R48 (f)). -/
theorem TxInv.not_awaited {s : State} (h : TxInv s) (hp : s.permits .txProcess ≠ 0#8) : s.rx.ackExpected = false :=
  Bool.eq_false_iff.2 fun e => hp (h.held (h.awaited e).1)

/-! ### Starts and ends of a cycle -/

theorem RxInv.startReception {s : State} (hs : RxInv s) (h : Option Handle) :
    RxInv ((startReception h s).getD s) := by
  rw [startReception_eq]
  split
  · exact hs
  · have h1 : s.permits .rxProcess = 1#8 := hs.lock.resolve_left ‹_›
    have h0 : (s.sem.set .rxProcess (s.permits .rxProcess - 1#8)).get .rxProcess = 0#8 := by simp [h1]
    exact ⟨.inl h0, fun _ => h0, Nat.le_refl _, fun _ => rfl⟩

theorem CoreInv.startReception {s : State} (hs : CoreInv s) (h : Option Handle) :
    CoreInv ((startReception h s).getD s) :=
  ⟨hs.rx.startReception h,
    hs.tx.congr (startReception_tx ..) (by simp) (startReception_permits _ _ (by decide))⟩

theorem RxInv.endReceptionCycle {s : State} (hs : RxInv s) (hi : s.rx.inProgress = true) :
    RxInv (endReceptionCycle s) := by
  have he : RxInv (endedReception s) := by
    have h1 : (endedReception s).permits .rxProcess = 1#8 := by
      show (release .rxProcess s).permits .rxProcess = 1#8
      simp [permits_release, hs.held hi]
    exact ⟨.inr h1, nofun, hs.count⟩
  rw [endReceptionCycle_eq]
  split
  · exact he.startReception _
  · exact he

theorem CoreInv.endReceptionCycle {s : State} (hs : CoreInv s) (hi : s.rx.inProgress = true) :
    CoreInv (endReceptionCycle s) :=
  ⟨hs.rx.endReceptionCycle hi,
    hs.tx.congr (endReceptionCycle_tx s) (by simp) (endReceptionCycle_permits _ (by decide))⟩

theorem TxInv.sendBlock {s : State} (hs : TxInv s) (h : Option Handle) (ty : BlockType) :
    TxInv ((sendBlock h ty s).getD s) := by
  rw [sendBlock_eq]
  split
  · exact hs
  · rename_i hp
    have h1 : s.permits .txProcess = 1#8 := hs.lock.resolve_left hp
    have h0 : (s.sem.set .txProcess (s.permits .txProcess - 1#8)).get .txProcess = 0#8 := by simp [h1]
    have hA : s.rx.ackExpected = false := hs.not_awaited hp
    exact ⟨.inl h0, fun _ => h0, fun e => absurd (hA.symm.trans e) nofun,
      fun _ => nofun, nofun, fun _ => nofun, hs.wait.2.2.2⟩

theorem CoreInv.sendBlock {s : State} (hs : CoreInv s) (h : Option Handle) (ty : BlockType) :
    CoreInv ((sendBlock h ty s).getD s) :=
  ⟨hs.rx.congr (sendBlock_rx ..) (sendBlock_permits _ _ _ (by decide)), hs.tx.sendBlock h ty⟩

/-- The end of a transmission for which no ACK is awaited, whatever state it ends in. -/
theorem TxInv.endTransmissionCycle {s : State} (hp : s.permits .txProcess = 0#8) (hf : s.tx.fault = false)
    (ha : s.rx.ackExpected = false) : TxInv (endTransmissionCycle s) := by
  have he : TxInv (endedTransmission s) := by
    have h1 : (endedTransmission s).permits .txProcess = 1#8 := by
      show (release .txProcess s).permits .txProcess = 1#8
      simp [permits_release, hp]
    have hx : (endedTransmission s).rx = s.rx := by
      unfold endedTransmission release; split <;> rfl
    refine ⟨.inr h1, nofun, ?_, nofun, ?_, nofun, hf⟩ <;> simp [hx, ha]
  rw [endTransmissionCycle_eq]
  split
  · exact he.sendBlock ..
  · exact he

/-! ### Hand-offs -/

/-- ACK-received handling (R292): the ACK is no longer awaited, and the waiting transmission may end. -/
theorem CoreInv.ackReceivedHandling {s : State} (hs : CoreInv s) : CoreInv (ackReceivedHandling s) := by
  refine ⟨?_, ?_⟩
  · obtain ⟨hl, hi, hc⟩ := hs.rx
    have hp := ackReceivedHandling_permits s (k := .rxProcess) (by decide)
    have hr := ackReceivedHandling_rx s
    exact ⟨hp ▸ hl, by rw [hr, hp]; exact hi, by rw [CountInv, hr]; exact hc⟩
  · obtain ⟨hl, hi, -, h1, -, h3, h4⟩ := hs.tx
    rw [Machine.ackReceivedHandling, redriveTx_eq rfl]
    split
    · rename_i hr
      refine TxInv.congr (TxInv.endTransmissionCycle ?_ ?_ ?_) (disableTxIfIdle_tx _) (by simp)
        (disableTxIfIdle_permits ..)
      · exact hi hr.1.1
      · exact h4
      · rfl
    · exact ⟨hl, hi, nofun, h1, nofun, h3, h4⟩

/-- ACK-sent handling (R293) may end the reception that waits. -/
theorem RxInv.ackSentHandling {s : State} (hs : RxInv s) : RxInv (ackSentHandling s) := by
  rcases ackSentHandling_cases s with e | ⟨hr, e⟩ <;> rw [e]
  · exact ⟨hs.lock, hs.held, hs.count⟩
  · exact RxInv.endReceptionCycle ⟨hs.lock, hs.held, hs.count.1, by simp⟩ hr.1

/-! ### The reception step -/

theorem CoreInv.transmittedAckAction {s : State} (hs : CoreInv s) (hi : s.rx.inProgress = true) :
    CoreInv (transmittedAckAction s) :=
  (hs.setRx { s.rx with ackTxDone := false } rfl rfl hs.rx.count).endReceptionCycle hi

theorem CoreInv.raiseRx {s : State} (hs : CoreInv s) : CoreInv (raiseRx s).1 :=
  hs.setRx { s.rx with fault := true } rfl rfl hs.rx.count

theorem CoreInv.rxCheckAction {s : State} (hs : CoreInv s) (hi : s.rx.inProgress = true) :
    CoreInv (rxCheckAction s) := by
  unfold Machine.rxCheckAction
  split
  · exact hs.ackReceivedHandling.endReceptionCycle (by simpa using hi)
  · split
    · exact hs.endReceptionCycle hi
    · have h : CoreInv { s with tx := { s.tx with ackExpected := true } } :=
        ⟨hs.rx.congr rfl rfl, hs.tx.lock, hs.tx.held, hs.tx.awaited, hs.tx.wait⟩
      exact h.sendBlock ..

theorem CoreInv.rxAckCheckAction {s : State} (hs : CoreInv s) (hi : s.rx.inProgress = true) :
    CoreInv (rxAckCheckAction s) := by
  have hi' : (Machine.ackReceivedHandling s).rx.inProgress = true := by simpa using hi
  unfold Machine.rxAckCheckAction
  dsimp only
  split
  · exact hs.ackReceivedHandling.transmittedAckAction hi'
  · split
    · exact hs.ackReceivedHandling
    · exact hs.ackReceivedHandling.endReceptionCycle hi'

theorem CoreInv.rxAckCtrlByteAction {s : State} (hs : CoreInv s) (p : RxState) (v : Byte) :
    CoreInv (rxAckCtrlByteAction p v s).1 := by
  unfold Machine.rxAckCtrlByteAction
  split
  · exact hs.raiseRx
  · split
    · exact hs.setRx { s.rx with blockType := .ack } rfl rfl hs.rx.count
    · exact hs

/-- One more payload byte, where one is still to come (R48 (d)). -/
theorem CoreInv.countReceived {s : State} (hs : CoreInv s) (hst : s.rx.state = .data)
    (hd : s.rx.received.toNat < s.rx.expected.toNat) : CoreInv (countReceived s) := by
  refine hs.setRx { s.rx with received := s.rx.received + 1#24 } rfl rfl ⟨?_, by simp [hst]⟩
  show (s.rx.received + 1#24).toNat ≤ s.rx.expected.toNat
  bv_omega

theorem CoreInv.setBuf {s : State} (hs : CoreInv s) (b : Handle) (q : RingBuffer) : CoreInv (s.setBuf b q) :=
  hs.congr rfl rfl rfl rfl

/-- The expected length may change while nothing is received (R188). -/
theorem CoreInv.setExpected {s : State} (hs : CoreInv s) (n : Len) (h : s.rx.received = 0#24) :
    CoreInv { s with rx := { s.rx with expected := n } } :=
  hs.setRx { s.rx with expected := n } rfl rfl ⟨by simp [h], fun _ => h⟩

/-- Every entry action of reception keeps the invariant. -/
theorem CoreInv.rxAction {s : State} (hs : CoreInv s) (hi : s.rx.inProgress = true) (p : RxState) (v : Byte)
    (hd : s.rx.state = .data → s.rx.received.toNat < s.rx.expected.toNat) :
    CoreInv (rxAction s.rx.state p v s).1 := by
  have hz := hs.rx.count.2
  cases hn : s.rx.state with
  | init => exact hs.setRx { s.rx with expected := 0#24, received := 0#24 } rfl rfl ⟨Nat.le_refl _, fun _ => rfl⟩
  | ctrlByte =>
    show CoreInv (rxCtrlByteAction v s)
    have h : ∀ ty, CoreInv { s with rx := { s.rx with blockType := ty } } := fun ty =>
      hs.setRx { s.rx with blockType := ty } rfl rfl hs.rx.count
    rcases rxCtrlByteAction_cases v s with ⟨b, -, -, e⟩ | ⟨-, e⟩ <;> rw [e]
    · exact (h _).setBuf ..
    · exact h _
  | lenByte1 | lenByte2 | lenByte3 => exact hs.setExpected _ (hz (by simp [hn]))
  | data =>
    show CoreInv (rxDataAction v s).1
    rcases rxDataAction_cases v s with ⟨-, e⟩ | ⟨b, -, -, e⟩ | ⟨b, -, -, e⟩ <;> rw [e]
    · exact hs.countReceived hn (hd hn)
    · exact hs.raiseRx
    · exact (hs.setBuf ..).countReceived hn (hd hn)
  | check => exact hs.rxCheckAction hi
  | ackCtrlByte => exact hs.rxAckCtrlByteAction p v
  | ackCheck => exact hs.rxAckCheckAction hi
  | transmittedAck => exact hs.transmittedAckAction hi

/-- R186: a state before the payload is entered from one. -/
theorem rxNext_header {r : RxContext} {n : RxState} (h : rxNext r = some n)
    (hn : n ∈ [RxState.init, .ctrlByte, .lenByte1, .lenByte2, .lenByte3]) :
    r.state ∈ [RxState.init, .ctrlByte, .lenByte1, .lenByte2, .lenByte3] := by
  cases hs : r.state with
  | init | ctrlByte | lenByte1 | lenByte2 | lenByte3 => simp
  | data | check | ackCheck =>
    simp only [rxNext, hs] at h
    split_ifs at h <;> cases h <;> simp at hn
  | transmittedAck | ackCtrlByte =>
    simp only [rxNext, hs] at h
    cases h <;> simp at hn

/-- R186: `Data` is entered only while payload is to come. -/
theorem rxNext_data {r : RxContext} (h : rxNext r = some .data) :
    r.state = .lenByte3 ∧ r.expected ≠ 0#24 ∨ r.received.toNat < r.expected.toNat := by
  cases hs : r.state with
  | lenByte3 =>
    simp only [rxNext, hs] at h
    split at h
    · cases h
    · exact .inl ⟨rfl, ‹_›⟩
  | data =>
    simp only [rxNext, hs] at h
    split at h
    · exact .inr ‹_›
    · cases h
  | init | ctrlByte | check | ackCheck =>
    simp only [rxNext, hs] at h
    split_ifs at h <;> cases h
  | lenByte1 | lenByte2 | transmittedAck | ackCtrlByte => simp [rxNext, hs] at h

/-- A reception step past its entry keeps the invariant. -/
theorem CoreInv.rxTransition {s : State} (hs : CoreInv s) (hi : s.rx.inProgress = true) (v : Byte) :
    CoreInv (rxTransition v s).1 := by
  unfold Machine.rxTransition
  split
  · exact hs.raiseRx
  · rename_i n hn
    obtain ⟨hle, hz⟩ := hs.rx.count
    have hm : CoreInv { s with rx := { s.rx with state := n } } :=
      hs.setRx { s.rx with state := n } rfl rfl ⟨hle, fun h => hz (rxNext_header hn h)⟩
    refine hm.rxAction hi s.rx.state v fun hd => ?_
    replace hd : n = .data := hd
    subst hd
    rcases rxNext_data hn with ⟨h3, he⟩ | hlt
    · show s.rx.received.toNat < s.rx.expected.toNat
      rw [hz (by simp [h3])]
      exact toNat_ne_zero_iff.1 he
    · exact hlt

theorem CoreInv.receiveByte {s : State} (hs : CoreInv s) (v : Byte) : CoreInv (receiveByte v s) := by
  suffices h : CoreInv (onByteReceived v s).1 from h.congr rfl rfl rfl rfl
  rcases onByteReceived_cases v s with ⟨hr, e⟩ | ⟨-, e⟩ | ⟨-, e⟩ <;> rw [e]
  · have hl : CoreInv (rxLocked s) := hs.congr rfl rfl rfl rfl
    have ht := hl.rxTransition hr.1 v
    exact ht.congr (by simp) (by simp) (by simp [exitStep, permits_release]) (by simp [exitStep, permits_release])
  · exact hs
  · exact hs

theorem CoreInv.receiveBytes {s : State} (hs : CoreInv s) (l : List Byte) : CoreInv (receiveBytes l s) :=
  receiveBytes_induction (P := fun s t => CoreInv s → CoreInv t) (fun _ h => h) (fun _ _ _ f g h => g (f h))
    (fun v _ h => h.receiveByte v) l s hs

end Sys2Proof.Machine

/-! ### The transmission step and the engines' invariant (R246, R260, R262) -/

namespace Sys2Proof.Machine

theorem CoreInv.endTransmissionCycle {s : State} (hr : RxInv s) (hp : s.permits .txProcess = 0#8)
    (hf : s.tx.fault = false) (ha : s.rx.ackExpected = false) : CoreInv (endTransmissionCycle s) :=
  ⟨hr.congr (endTransmissionCycle_rx s) (endTransmissionCycle_permits _ (by decide)),
    TxInv.endTransmissionCycle hp hf ha⟩

/-- A transmission that has entered `Check` or `AckCheck`, before its completion decides (R260). -/
structure Completing (s : State) : Prop where
  rx : RxInv s
  lock : s.permits .txProcess = 0#8
  noFault : s.tx.fault = false
  busy : s.tx.inProgress = true
  waits : s.tx.state ∈ [TxState.check, .ackCtrlByte, .ackCheck]
  ends : requiresAck s.tx.blockType = false ∨ s.tx.ackReceived = true → s.rx.ackExpected = false

theorem Completing.ackSentHandling {s : State} (h : Completing s) : Completing (ackSentHandling s) := by
  obtain ⟨hr, hl, hf, hb, hw, he⟩ := h
  have ht := ackSentHandling_tx s
  refine ⟨hr.ackSentHandling, ?_, ?_, ?_, ?_, ?_⟩
  · rwa [ackSentHandling_permits s (by decide)]
  · rwa [ht]
  · rwa [ht]
  · rwa [ht]
  · rwa [ht, ackSentHandling_rx_ackExpected]

/-- The completion procedure ends the transmission, or makes it wait for its ACK. -/
theorem Completing.completion {s : State} (h : Completing s) : CoreInv (completion s) := by
  obtain ⟨hr, hl, hf, hb, hw, he⟩ := h
  unfold Machine.completion
  split
  · rename_i hq
    split
    · rename_i ha
      exact CoreInv.endTransmissionCycle (hr.congr rfl rfl) hl hf (he (.inr ha))
    · rename_i ha
      have hm : CoreInv { s with tx := { s.tx with done := true }, rx := { s.rx with ackExpected := true } } :=
        ⟨⟨hr.lock, hr.held, hr.count⟩, .inl hl, fun _ => hl, fun _ => ⟨hb, rfl, hw⟩, fun _ _ => hq, fun e => ha e.1,
          fun _ e => by simp [show s.tx.state = _ from e] at hw, hf⟩
      exact hm.startReception none
  · rename_i hq
    exact CoreInv.endTransmissionCycle hr hl hf (he (.inl (by simpa using hq)))

/-- R246: the three kinds of transition, by where the transmission stands with respect to its ACK. -/
theorem txNext_goto {t : TxContext} {occ : Len} {n : TxState} (h : txNext t occ = .goto n) :
    (n = .rcvdAck ∧ t.ackReceived = true) ∨
    ((n = .ackCtrlByte ∨ n = .ackCheck) ∧ t.state ∈ [TxState.check, .ackCtrlByte, .ackCheck]) ∨
    ((n = .check ∨ n ∈ [TxState.ctrlByte, .lenByte1, .lenByte2, .lenByte3, .data]) ∧
      t.state ∉ [TxState.check, .ackCtrlByte, .ackCheck]) := by
  cases hs : t.state with
  | init | lenByte1 | lenByte2 =>
    simp only [txNext, hs] at h
    cases h
    simp
  | ctrlByte | lenByte3 | data =>
    simp only [txNext, hs] at h
    split at h <;> cases h <;> simp
  | check | ackCheck =>
    simp only [txNext, txWaitNext, hs] at h
    split_ifs at h with hr <;> cases h
    · exact .inl ⟨rfl, hr⟩
    · simp
  | ackCtrlByte =>
    simp only [txNext, hs] at h
    cases h
    simp
  | rcvdAck => simp [txNext, hs] at h

/-- R246: only `RcvdAck` has no next state. -/
theorem txNext_none {t : TxContext} {occ : Len} (h : txNext t occ = .none) : t.state = .rcvdAck := by
  cases hs : t.state with
  | rcvdAck => rfl
  | init | lenByte1 | lenByte2 | ackCtrlByte => simp [txNext, hs] at h
  | ctrlByte | lenByte3 | data =>
    simp only [txNext, hs] at h
    split at h <;> cases h
  | check | ackCheck =>
    simp only [txNext, txWaitNext, hs] at h
    split_ifs at h

/-- A state of the main block up to its payload, entered while no ACK is awaited. -/
theorem CoreInv.enterHeader {s : State} {n : TxState} (hs : CoreInv s) (ha : s.rx.ackExpected = false)
    (hn : n ∈ [TxState.ctrlByte, .lenByte1, .lenByte2, .lenByte3, .data]) :
    CoreInv { s with tx := { s.tx with state := n } } := by
  obtain ⟨hr, hl, hh, -, -, h2, -, h4⟩ := hs
  have hw : n ∉ [TxState.check, .ackCtrlByte, .ackCheck] ∧ n ≠ .rcvdAck := by
    revert hn
    cases n <;> simp
  exact ⟨hr.congr rfl rfl, hl, hh, fun e => absurd (ha.symm.trans e) nofun, fun _ e => absurd e hw.1, h2,
    fun _ => hw.2, h4⟩

/-- The entry actions of the main block up to its payload touch the bank only (R250 to R254). -/
theorem txAction_header {n : TxState} {s t : State} {byte : Option Byte}
    (hn : n ∈ [TxState.ctrlByte, .lenByte1, .lenByte2, .lenByte3, .data]) (h : txAction n s = .ok (byte, t)) :
    t = { s with rb := t.rb } := by
  cases n with
  | ctrlByte | lenByte1 | lenByte2 | lenByte3 => cases h; rfl
  | data =>
    replace h : txDataAction s = .ok (byte, t) := h
    rcases txDataAction_cases s with e | e | ⟨b, v, -, -, -, e⟩ <;> rw [e] at h <;> cases h <;> rfl
  | init | check | ackCtrlByte | ackCheck | rcvdAck => simp at hn

/-- Every entry action that `TX_NEXT` runs keeps the invariant. -/
theorem CoreInv.txAction {s t : State} {n : TxState} {occ : Len} {byte : Option Byte} (hs : CoreInv s)
    (hi : s.tx.inProgress = true) (hn : txNext s.tx occ = .goto n)
    (h : txAction n { s with tx := { s.tx with state := n } } = .ok (byte, t)) : CoreInv t := by
  obtain ⟨hr, hl, hh, hA, h1, h2, h3, h4⟩ := id hs
  have hp := hh hi
  have h2' : s.tx.ackReceived = true → s.rx.ackExpected = false := fun e =>
    Bool.eq_false_iff.2 fun e' => h2 ⟨e, e'⟩
  rcases txNext_goto hn with ⟨rfl, he⟩ | ⟨hm, hw⟩ | ⟨hm, hw⟩
  · cases h
    exact CoreInv.endTransmissionCycle (hr.congr rfl rfl) hp h4 (h2' he)
  · have hq := h1 hi hw
    rcases hm with rfl | rfl <;> cases h
    · exact ⟨hr.congr rfl rfl, hl, hh, fun e => ⟨hi, (hA e).2.1, by simp⟩, fun _ _ => hq, h2, fun _ => nofun, h4⟩
    · have hc : Completing { s with tx := { s.tx with state := .ackCheck, done := true } } :=
        ⟨hr.congr rfl rfl, hp, h4, hi, by simp, fun e => h2' (e.resolve_left (by simp [hq]))⟩
      exact hc.ackSentHandling.completion
  · have ha : s.rx.ackExpected = false := Bool.eq_false_iff.2 fun e => hw (hA e).2.2
    rcases hm with rfl | hm
    · cases h
      have hc : Completing { s with tx := { s.tx with state := .check } } :=
        ⟨hr.congr rfl rfl, hp, h4, hi, by simp, fun _ => ha⟩
      show CoreInv (completion _)
      split
      · exact hc.ackSentHandling.completion
      · exact hc.completion
    · rw [txAction_header hm h]
      exact (hs.enterHeader ha hm).congr rfl rfl rfl rfl

/-- The end of a transmission step touches no semaphore but the context lock (R350). -/
theorem finishTx_permits_of_ne {k : SemId} (hk : k ≠ .txContext) (byte : Option Byte) (s : State) :
    (finishTx byte s).permits k = s.permits k := by
  have h : (finishTx byte s).permits k = (exitStep .txContext (disableTxIfIdle s)).permits k := by
    cases byte <;> rfl
  rw [h, exitStep, permits_release, if_neg hk, disableTxIfIdle_permits]

theorem CoreInv.finishTx {s : State} (hs : CoreInv s) (byte : Option Byte) : CoreInv (finishTx byte s) :=
  hs.congr (finishTx_rx ..) (finishTx_tx ..) (finishTx_permits_of_ne (by decide) ..)
    (finishTx_permits_of_ne (by decide) ..)

theorem CoreInv.resetWith (c : Len) : CoreInv (State.resetWith c) :=
  ⟨⟨.inr rfl, nofun, Nat.le_refl _, fun _ => rfl⟩, .inr rfl, nofun, nofun, nofun, nofun, nofun, rfl⟩

/-! ### Every instruction -/

/-- Every instruction but the `SEM_*` operations keeps the two halves. -/
theorem Ran.coreInv {i : Instr} {s t : State} (h : Ran i s t) (hi : isSemOp i = false) (hs : CoreInv s) :
    CoreInv t := by
  cases h with
  | answered | ringReset | enqueued | dequeued => exact hs.congr rfl rfl rfl rfl
  | semSet hi' => rw [hi] at hi'; cases hi'
  | semTaken | semWaits => cases hi
  | rxStarted b => exact (hs.startReception b).congr rfl rfl rfl rfl
  | txStarted b ty => exact (hs.sendBlock b ty).congr rfl rfl rfl rfl
  | initialised => exact (CoreInv.resetWith s.capacity).congr rfl rfl rfl rfl
  | receivedByte v => exact hs.receiveByte v
  | received => exact hs.receiveBytes _
  | txFailed hr hn => exact absurd (txNext_none hn) (hs.tx.wait.2.2.1 hr.1)
  | txStayed =>
    have hl : CoreInv (txLocked s) := hs.congr rfl rfl rfl rfl
    exact hl.finishTx none
  | txEntered hr hn ha =>
    have hl : CoreInv (txLocked s) := hs.congr rfl rfl rfl rfl
    exact (hl.txAction hr.1 hn ha).finishTx _

/-- Every instruction but the `SEM_*` operations and `COMM_INIT` gives both context locks back (R350). -/
theorem Ran.contextLocks {i : Instr} {s t : State} {k : SemId} (h : Ran i s t) (hk : ContextLock k)
    (hi : isSemOp i = false) (hc : i ≠ .commInit) : t.permits k = s.permits k := by
  cases h with
  | answered | ringReset | enqueued | dequeued => rfl
  | semSet hi' => rw [hi] at hi'; cases hi'
  | semTaken | semWaits => cases hi
  | rxStarted => exact startReception_permits _ _ hk.ne_rxProcess
  | txStarted => exact sendBlock_permits _ _ _ hk.ne_txProcess
  | initialised => exact absurd rfl hc
  | receivedByte => exact receiveByte_permits hk ..
  | received =>
    exact receiveBytes_induction (P := fun s t => t.permits k = s.permits k) (fun _ => rfl)
      (fun _ _ _ h g => g.trans h) (receiveByte_permits hk) ..
  | txFailed hr =>
    refine (exitStep_permits (t := raiseTx (txLocked s)) hr.2.2 (by simp [raiseTx, State.permits]) k).trans ?_
    split
    · subst_vars; rfl
    · simp [raiseTx, State.permits, *]
  | txStayed hr => exact finishTx_permits hk hr.2.2 (by simp) (by simp) none
  | txEntered hr _ ha =>
    exact finishTx_permits hk hr.2.2 ((txAction_permits (.inr rfl) ha).trans (by simp [State.permits]))
      ((txAction_permits (.inl rfl) ha).trans (by simp [State.permits])) _

/-- Every instruction but the `SEM_*` operations keeps the engines' invariant. -/
theorem Ran.engineInv {i : Instr} {s t : State} (h : Ran i s t) (hi : isSemOp i = false) (hs : EngineInv s) :
    EngineInv t := by
  obtain ⟨hk, hc⟩ := engineInv_iff.1 hs
  refine engineInv_iff.2 ⟨fun k hk' => ?_, h.coreInv hi hc⟩
  by_cases hcom : i = .commInit
  · subst hcom
    cases h with
    | answered => exact hk k hk'
    | semSet hi' => cases hi'
    | initialised => rcases hk' with rfl | rfl <;> rfl
    | received hi => cases hi
  · rw [h.contextLocks hk' hi hcom, hk k hk']

/-! ### Every step -/

/-- Ports that have lost words at most present no `SEM_*` operation either. -/
theorem NoSemOps.of_suffix {s t : State} (h : NoSemOps s)
    (hl : t.host.lock = s.host.lock ∧ t.rxirq.lock = s.rxirq.lock ∧ t.txirq.lock = s.txirq.lock)
    (hq : t.host.queue <:+ s.host.queue ∧ t.rxirq.queue <:+ s.rxirq.queue ∧ t.txirq.queue <:+ s.txirq.queue) :
    NoSemOps t := by
  obtain ⟨⟨l1, l2, l3⟩, q1, q2, q3⟩ := h
  obtain ⟨e1, e2, e3⟩ := hl
  obtain ⟨f1, f2, f3⟩ := hq
  exact ⟨⟨e1.trans l1, e2.trans l2, e3.trans l3⟩, fun w hw => q1 w (f1.subset hw), fun w hw => q2 w (f2.subset hw),
    fun w hw => q3 w (f3.subset hw)⟩

theorem NoSemOps.sameInputs {s t : State} (h : NoSemOps s) (hi : SameInputs s t) : NoSemOps t := by
  obtain ⟨-, h1, h2, h3, -⟩ := hi
  rw [NoSemOps, h1, h2, h3]
  exact h

theorem NoSemOps.port {s : State} (h : NoSemOps s) (a : Agent) :
    (s.port a).lock = none ∧ ∀ w ∈ (s.port a).queue, notSemWord w = true := by
  obtain ⟨⟨l1, l2, l3⟩, q1, q2, q3⟩ := h
  cases a with
  | host => exact ⟨l1, q1⟩
  | rxirq => exact ⟨l2, q2⟩
  | txirq => exact ⟨l3, q3⟩
  | timer => exact ⟨rfl, nofun⟩

/-- A block is no `SEM_*` operation. -/
theorem isSemOp_of_decodeBlock {bytes rest : List Byte} {i : Instr} (h : decodeBlock bytes = some (i, rest)) :
    isSemOp i = false := by
  obtain ⟨⟨f, r⟩, -, e⟩ := Option.map_eq_some_iff.1 h
  cases e
  unfold Frame.toInstr
  split <;> rfl

theorem isSemOp_of_serveChannel {s t : State} {i : Instr} (h : serveChannel s = some (.ok i, t)) :
    isSemOp i = false := by
  have byte : serveChannelByte s = some (.ok i, t) → isSemOp i = false := fun h => by
    unfold serveChannelByte at h
    split at h <;> cases h
    rfl
  unfold serveChannel at h
  split at h
  · split at h
    · cases h
      exact isSemOp_of_decodeBlock ‹_›
    · exact byte h
  · exact byte h

theorem NoSemOps.servePort {s t : State} {a : Agent} {i : Instr} (hs : NoSemOps s)
    (h : servePort a s = some (.ok i, t)) : isSemOp i = false := by
  obtain ⟨hl, hq⟩ := hs.port a
  unfold Machine.servePort at h
  rw [hl] at h
  dsimp only at h
  split at h
  · cases h
  · rename_i w ws hw
    have hn := hq w (by simp [hw])
    obtain ⟨hd, -⟩ := Prod.mk.inj (Option.some.inj h)
    simpa [notSemWord, hd] using hn

/-- Under R48's premise no `SEM_*` operation is served. -/
theorem NoSemOps.fetch {s t : State} {i : Instr} (hs : NoSemOps s) (h : fetch s = some (.ok i, t)) :
    isSemOp i = false := by
  unfold Machine.fetch at h
  split at h
  · cases h
  · exact isSemOp_of_serveChannel h
  · exact hs.servePort h

/-- R48's invariants with their premise. -/
abbrev EnginesUndisturbed (s : State) : Prop := EngineInv s ∧ NoSemOps s

/-- Taking what is served touches neither engine. -/
theorem EnginesUndisturbed.taken {s t : State} (hs : EnginesUndisturbed s) (h : TakenFrom s t) :
    EnginesUndisturbed t := by
  obtain ⟨he, hn⟩ := hs
  obtain ⟨e, hl, hq⟩ := h
  refine ⟨?_, hn.of_suffix hl hq⟩
  rw [e]
  exact he

theorem NoSemOps.enginesUndisturbed_applyReset {s : State} (hs : NoSemOps s) : EnginesUndisturbed (applyReset s) := by
  refine ⟨engineInv_iff.2 ⟨?_, (CoreInv.resetWith s.capacity).congr rfl rfl rfl rfl⟩, ⟨rfl, rfl, rfl⟩, hs.2⟩
  rintro k (rfl | rfl) <;> rfl

theorem EnginesUndisturbed.abandonService {s : State} (hs : EnginesUndisturbed s) :
    EnginesUndisturbed (abandonService s) := by
  rcases abandonService_cases s with ⟨-, e⟩ | ⟨x, u, hf, e⟩ <;> rw [e]
  · exact hs.2.enginesUndisturbed_applyReset
  · exact (hs.taken (fetch_takes hf)).2.enginesUndisturbed_applyReset

/-- Every instruction but the `SEM_*` operations. -/
theorem Ran.enginesUndisturbed {i : Instr} {s t : State} (h : Ran i s t) (hi : isSemOp i = false)
    (hs : EnginesUndisturbed s) : EnginesUndisturbed t := by
  refine ⟨h.engineInv hi hs.1, hs.2.sameInputs (h.outward ?_).1⟩
  rintro k rfl
  cases hi

theorem EnginesUndisturbed.serveNext {s t : State} (hs : EnginesUndisturbed s) (h : serveNext s = .next t) :
    EnginesUndisturbed t := by
  rcases serveNext_cases s with ⟨-, e⟩ | ⟨i, u, hf, e⟩ | ⟨r, u, hf, e⟩ <;> rw [e] at h
  · cases h; exact hs
  · exact (exec_ran h).enginesUndisturbed (hs.2.fetch hf) (hs.taken (fetch_takes hf))
  · have hu := hs.taken (fetch_takes hf)
    cases h
    exact hu

/-- Settles O58: a service runs one instruction that is no `SEM_*` operation, and reset establishes the invariant. -/
theorem engineInvariantIsKept : Obligations.EngineInvariantIsKept := by
  intro s t hs h
  rcases step_cases s with ⟨-, e⟩ | ⟨n, inService, -, e⟩ | ⟨-, e⟩ | ⟨-, e⟩ <;> rw [e] at h
  · exact EnginesUndisturbed.serveNext hs h
  · refine EnginesUndisturbed.serveNext ?_ h
    exact hs
  · cases h; exact hs.2.enginesUndisturbed_applyReset
  · cases h; exact EnginesUndisturbed.abandonService hs

end Sys2Proof.Machine

/-! ### Length bytes are inverse (R92) -/

namespace Sys2Proof

theorem len1_toNat (n : Len) : (len1 n).toNat = n.toNat / 2 ^ 16 % 2 ^ 8 := by
  simp only [len1, BitVec.extractLsb'_toNat, Nat.shiftRight_eq_div_pow]

theorem len2_toNat (n : Len) : (len2 n).toNat = n.toNat / 2 ^ 8 % 2 ^ 8 := by
  simp only [len2, BitVec.extractLsb'_toNat, Nat.shiftRight_eq_div_pow]

theorem len3_toNat (n : Len) : (len3 n).toNat = n.toNat % 2 ^ 8 := by
  simp [len3]

@[simp] theorem len1_lenOfBytes (a b c : Byte) : len1 (lenOfBytes a b c) = a := by
  have := a.isLt; have := b.isLt; have := c.isLt
  apply BitVec.eq_of_toNat_eq
  rw [len1_toNat, lenOfBytes_toNat]; omega

@[simp] theorem len2_lenOfBytes (a b c : Byte) : len2 (lenOfBytes a b c) = b := by
  have := b.isLt; have := c.isLt
  apply BitVec.eq_of_toNat_eq
  rw [len2_toNat, lenOfBytes_toNat]; omega

@[simp] theorem len3_lenOfBytes (a b c : Byte) : len3 (lenOfBytes a b c) = c := by
  have := c.isLt
  apply BitVec.eq_of_toNat_eq
  rw [len3_toNat, lenOfBytes_toNat]; omega

/-- Settles O6: each length byte is a base-256 digit of the assembled number. -/
theorem lengthBytesAreInverse : Obligations.LengthBytesAreInverse :=
  ⟨lenOfBytes_len, fun a b c => ⟨len1_lenOfBytes a b c, len2_lenOfBytes a b c, len3_lenOfBytes a b c⟩,
    lenOfBytes_toNat⟩

end Sys2Proof

/-! ### One step is one service of a requester that waits (R75, R333) -/

namespace Sys2Proof.Machine

theorem step_of_low {s : State} (h : s.resetIn = .low) : step s = serveNext s := by
  unfold step; rw [h]

theorem step_of_arrives_succ {s : State} {n : Nat} {inService : Bool} (h : s.resetIn = .arrives (n + 1) inService) :
    step s = serveNext { s with resetIn := .arrives n inService } := by
  unfold step; rw [h]

/-- R333, for both policies. -/
theorem wordPresented_iff {s : State} {a : Agent} {w : CmdWord} :
    wordPresented s a w = true ↔ (s.driver = .gated →
      (a = .rxirq → (∃ v, decodeCmd w = .ok (.rxByte v)) → s.irq.rxEn = true) ∧
        (a = .txirq → decodeCmd w = .ok .txNext → s.irq.txEn = true)) := by
  cases hd : s.driver with
  | polling => simp [wordPresented_polling hd]
  | gated => simp [wordPresented_gated hd]

/-- R163, R75: a pending lock always waits; a word waits while its agent presents it. -/
theorem portWaiting_iff {a : Agent} {s : State} :
    portWaiting a s = true ↔
      (s.port a).lock ≠ none ∨ ∃ w ws, s.port a = ⟨w :: ws, none⟩ ∧ wordPresented s a w = true := by
  unfold portWaiting
  rcases s.port a with ⟨_ | ⟨w, ws⟩, _ | k⟩ <;> simp

/-- R331, R333, for both policies. -/
theorem channelWaiting_iff {s : State} :
    channelWaiting s = true ↔
      s.wireIn ≠ [] ∧ s.rxirq.lock = none ∧ (s.driver = .gated → s.irq.rxEn = true) := by
  cases hd : s.driver <;> simp [channelWaiting, hd, Driver.presents, and_assoc]

/-- R75: whoever is picked is one of those who wait. -/
theorem arbitrate_of_ne_nil (n : Nat) {l : List Requester} (h : l ≠ []) : ∃ r ∈ l, arbitrate n l = some r := by
  match l with
  | [] => exact absurd rfl h
  | [r] => exact ⟨r, List.mem_singleton_self r, rfl⟩
  | r :: q :: l =>
    have hi : Config.arbitration n % (r :: q :: l).length < (r :: q :: l).length := Nat.mod_lt _ (Nat.succ_pos _)
    exact ⟨_, List.getElem_mem hi, List.getElem?_eq_getElem hi⟩

theorem fetch_of_waiting_nil {s : State} (h : waiting s = []) : fetch s = none := by
  unfold fetch; rw [h]; rfl

theorem fetch_of_arbitrate {s : State} {r : Requester} (h : arbitrate s.served (waiting s) = some r) :
    fetch s = if r = .channel then serveChannel s else servePort r.agent s := by
  unfold fetch; rw [h]
  cases r <;> rfl

theorem servePort_of_word {a : Agent} {s : State} {w : CmdWord} {ws : List CmdWord} (h : s.port a = ⟨w :: ws, none⟩) :
    servePort a s = some (decodeCmd w, (s.setPort a ⟨ws, none⟩).serve a) := by
  unfold servePort; rw [h]

theorem serve_setPort (s : State) (a : Agent) (p : Port) :
    (s.setPort a p).serve a = { s.setPort a p with serving := a, served := s.served + 1 } := by
  cases a <;> rfl

/-- A port that waits has something to serve. -/
theorem servePort_isSome {a : Agent} {s : State} (h : portWaiting a s = true) : (servePort a s).isSome = true := by
  rcases portWaiting_iff.1 h with hl | ⟨w, ws, hp, -⟩
  · obtain ⟨k, hk⟩ := Option.ne_none_iff_exists'.1 hl
    unfold servePort; rw [hk]; rfl
  · rw [servePort_of_word hp]; rfl

theorem serveChannelByte_of_cons {s : State} {v : Byte} {rest : List Byte} (h : s.wireIn = v :: rest) :
    serveChannelByte s = some (.ok (.rxByte v), { s with wireIn := rest }.serve .rxirq) := by
  unfold serveChannelByte; rw [h]

/-- Log 8: what makes the service of the channel that of a whole block, and so what makes it that of one byte. -/
theorem serveChannel_cases (s : State) :
    (s.driver = .polling ∧ s.resetIn = .low ∧ (∃ r, waiting s = [r]) ∧
      ∃ i rest, decodeBlock s.wireIn = some (i, rest) ∧
        serveChannel s = some (.ok i, { s with wireIn := rest }.serve .rxirq)) ∨
    serveChannel s = serveChannelByte s := by
  unfold serveChannel
  split
  · split
    · exact .inl ⟨‹_›, ‹_›, ⟨_, ‹_›⟩, _, _, ‹_›, rfl⟩
    · exact .inr rfl
  · exact .inr rfl

theorem serveChannel_eq_byte {s : State}
    (h : s.driver = .gated ∨ s.resetIn ≠ .low ∨ (∀ r, waiting s ≠ [r]) ∨ decodeBlock s.wireIn = none) :
    serveChannel s = serveChannelByte s := by
  rcases serveChannel_cases s with ⟨hd, hr, ⟨r, hw⟩, i, rest, hb, -⟩ | e
  · simp [hd, hr, hw, hb] at h
  · exact e

/-- A channel that waits has something to serve. -/
theorem serveChannel_isSome {s : State} (h : s.wireIn ≠ []) : (serveChannel s).isSome = true := by
  obtain ⟨v, rest, hv⟩ := List.exists_cons_of_ne_nil h
  rcases serveChannel_cases s with ⟨-, -, -, i, rest', -, e⟩ | e
  · rw [e]; rfl
  · rw [e, serveChannelByte_of_cons hv]; rfl

theorem serveNext_of_fetch_none {s : State} (h : fetch s = none) : serveNext s = .next s := by
  unfold serveNext; rw [h]

theorem serveNext_of_fetch_ok {s t : State} {i : Instr} (h : fetch s = some (.ok i, t)) : serveNext s = exec i t := by
  unfold serveNext; rw [h]

theorem serveNext_of_fetch_error {s t : State} {e : Illegal} (h : fetch s = some (.error e, t)) :
    serveNext s = .next (answerIllegal t) := by
  unfold serveNext; rw [h]

/-- R75: if anybody waits, one of those who wait is served. -/
theorem fetch_of_waiting {s : State} (h : waiting s ≠ []) :
    ∃ r ∈ waiting s,
      fetch s = (if r = .channel then serveChannel s else servePort r.agent s) ∧ (fetch s).isSome = true := by
  obtain ⟨r, hr, ha⟩ := arbitrate_of_ne_nil s.served h
  refine ⟨r, hr, fetch_of_arbitrate ha, ?_⟩
  rw [fetch_of_arbitrate ha]
  have hw := mem_waiting.1 hr
  cases r with
  | host | rxirq | txirq => exact servePort_isSome hw
  | channel => exact serveChannel_isSome (channelWaiting_iff.1 hw).1

/-- R75, R333: which ports wait. -/
theorem port_mem_waiting_iff {a : Agent} {r : Requester} {s : State}
    (h : a = .host ∧ r = .host ∨ a = .rxirq ∧ r = .rxirq ∨ a = .txirq ∧ r = .txirq) :
    r ∈ waiting s ↔
      (s.port a).lock ≠ none ∨ ∃ w ws, s.port a = ⟨w :: ws, none⟩ ∧ wordPresented s a w = true := by
  rw [mem_waiting, ← portWaiting_iff]
  rcases h with ⟨rfl, rfl⟩ | ⟨rfl, rfl⟩ | ⟨rfl, rfl⟩ <;> rfl

/-- Settles O47: who waits is `isWaiting`, arbitration picks among them, and each kind of service takes what its
requester presents. -/
theorem stepServesAWaitingRequester : Obligations.StepServesAWaitingRequester := by
  intro s
  refine ⟨step_of_low, fun _ _ => step_of_arrives_succ, fun a r har => ?_, mem_waiting.trans channelWaiting_iff,
    fun h => serveNext_of_fetch_none (fetch_of_waiting_nil h), fetch_of_waiting, fun _ _ => serveNext_of_fetch_ok,
    fun _ _ => serveNext_of_fetch_error, fun a w ws h => ?_, fun v rest hv h => ?_⟩
  · simp only [port_mem_waiting_iff har, wordPresented_iff]
  · rw [servePort_of_word h, serve_setPort]
  · rw [serveChannel_eq_byte h, serveChannelByte_of_cons hv]; rfl

end Sys2Proof.Machine

/-! ### The tables of the decoder, looked up both ways (R40, R100, R101, R104, R110) -/

namespace Sys2Proof.Machine

theorem opOfCode_eq_some_iff {c : Byte} {o : Op} : opOfCode c = some o ↔ c = o.code :=
  ⟨fun h => (opOfCode_eq_some h).symm, fun h => h ▸ opOfCode_code o⟩

/-- R105: the reserved codes. -/
theorem opOfCode_eq_none_iff {c : Byte} : opOfCode c = none ↔ c ∉ allOps.map Op.code := by
  simp [opOfCode]

theorem handleOfSel_eq_some_iff {x : Byte} {b : Handle} : handleOfSel x = some b ↔ x.toNat = b.val := by
  unfold handleOfSel
  split
  · simp [Fin.ext_iff]
  · exact iff_of_false nofun fun hb => absurd (hb ▸ b.isLt) ‹_›

theorem handleOfSel_eq_none_iff {x : Byte} : handleOfSel x = none ↔ Config.rbCount ≤ x.toNat := by
  unfold handleOfSel
  split
  · exact iff_of_false nofun (Nat.not_le_of_lt ‹_›)
  · exact iff_of_true rfl (Nat.le_of_not_lt ‹_›)

theorem semOfSel_eq_some_iff {x : Byte} {k : SemId} : semOfSel x = some k ↔ x = k.number :=
  ⟨fun h => by simpa [eq_comm] using List.find?_some h, fun h => h ▸ semOfSel_number k⟩

theorem semOfSel_eq_none_iff {x : Byte} : semOfSel x = none ↔ 3 < x.toNat := by
  revert x; decide

/-- R100: 0xFF is `none` and no buffer's number. -/
theorem bindingOfSel_eq_some_iff {x : Byte} {h : Option Handle} : bindingOfSel x = some h ↔ SelBinds x h := by
  unfold bindingOfSel
  split
  next hx =>
    cases h with
    | none => exact iff_of_true rfl hx
    | some b => exact iff_of_false nofun fun hb : x.toNat = b.val => absurd (hb ▸ b.isLt) (by rw [hx]; decide)
  next hx =>
    cases h with
    | none => exact iff_of_false (by simp) hx
    | some b => simp [SelBinds, handleOfSel_eq_some_iff]

theorem bindingOfSel_eq_none_iff {x : Byte} :
    bindingOfSel x = none ↔ Config.rbCount ≤ x.toNat ∧ x ≠ 0xFF#8 := by
  unfold bindingOfSel
  split <;> simp_all [handleOfSel_eq_none_iff]

theorem typeOfCode_eq_some_iff {c : Byte} {t : BlockType} : typeOfCode c = some t ↔ c = t.tag :=
  ⟨fun h => (typeOfCode_eq_some h).symm, fun h => h ▸ typeOfCode_tag t⟩

theorem operand_eq_ok_iff {α : Type} {x : Option α} {why : Illegal} {mk : α → Instr} {i : Instr} :
    operand x why mk = .ok i ↔ ∃ a, x = some a ∧ mk a = i := by
  cases x <;> simp [operand]

theorem operand_isError_iff {α : Type} {x : Option α} {why : Illegal} {mk : α → Instr} :
    (∃ e, operand x why mk = .error e) ↔ x = none := by
  cases x <;> simp [operand]

end Sys2Proof.Machine

/-! ### The fields of a command word and the operation it presents (R100, R101) -/

namespace Sys2Proof.Machine

/-- The operation of a legal word is that of its `op` field, and each operand that of the field that holds it. -/
theorem presents_of_decodeCmd {w : CmdWord} {i : Instr} (h : decodeCmd w = .ok i) : Presents w i := by
  unfold decodeCmd at h
  cases ho : opOfCode (CmdWord.op w) with
  | none => rw [ho] at h; cases h
  | some o =>
    have hop := opOfCode_eq_some_iff.1 ho
    rw [ho] at h
    cases o with
    | rbReset | rbDeq | rbSize | rbEmpty | rbFull =>
      obtain ⟨b, hb, rfl⟩ := operand_eq_ok_iff.1 h
      exact ⟨hop, handleOfSel_eq_some_iff.1 hb⟩
    | rbEnq =>
      obtain ⟨b, hb, rfl⟩ := operand_eq_ok_iff.1 h
      exact ⟨hop, handleOfSel_eq_some_iff.1 hb, rfl⟩
    | semInit =>
      obtain ⟨k, hk, rfl⟩ := operand_eq_ok_iff.1 h
      exact ⟨hop, semOfSel_eq_some_iff.1 hk, rfl⟩
    | semTry | semLock | semRel =>
      obtain ⟨k, hk, rfl⟩ := operand_eq_ok_iff.1 h
      exact ⟨hop, semOfSel_eq_some_iff.1 hk⟩
    | rxStart =>
      obtain ⟨d, hd, rfl⟩ := operand_eq_ok_iff.1 h
      exact ⟨hop, bindingOfSel_eq_some_iff.1 hd⟩
    | rxByte => cases h; exact ⟨hop, rfl⟩
    | rxAvail | rxFully | txNext | commInit => cases h; exact hop
    | txSend =>
      cases hd : bindingOfSel (CmdWord.sel w) with
      | none => simp [hd] at h
      | some d =>
        simp only [hd] at h
        obtain ⟨t, ht, rfl⟩ := operand_eq_ok_iff.1 h
        exact ⟨hop, bindingOfSel_eq_some_iff.1 hd, typeOfCode_eq_some_iff.1 ht⟩

/-- A word with the fields R101 gives an operation decodes to it. -/
theorem decodeCmd_of_presents {w : CmdWord} {i : Instr} (h : Presents w i) : decodeCmd w = .ok i := by
  unfold decodeCmd
  cases i with
  | rbReset b | rbDeq b | rbSize b | rbEmpty b | rbFull b =>
    obtain ⟨hop, hb⟩ := h
    rw [hop, handleOfSel_eq_some_iff.2 hb]; rfl
  | rbEnq b v =>
    obtain ⟨hop, hb, rfl⟩ := h
    rw [hop, handleOfSel_eq_some_iff.2 hb]; rfl
  | semInit k n =>
    obtain ⟨hop, hk, rfl⟩ := h
    rw [hop, semOfSel_eq_some_iff.2 hk]; rfl
  | semTry k | semLock k | semRel k =>
    obtain ⟨hop, hk⟩ := h
    rw [hop, semOfSel_eq_some_iff.2 hk]; rfl
  | rxStart d =>
    obtain ⟨hop, hd⟩ := h
    rw [hop, bindingOfSel_eq_some_iff.2 hd]; rfl
  | rxByte v =>
    obtain ⟨hop, rfl⟩ := h
    rw [hop]; rfl
  | rxAvail | rxFully | txNext | commInit => rw [show CmdWord.op w = _ from h]; rfl
  | txSend d t =>
    obtain ⟨hop, hd, ht⟩ := h
    rw [hop, bindingOfSel_eq_some_iff.2 hd, typeOfCode_eq_some_iff.2 ht]; rfl
  | blockData | blockUnknown | blockColdReset | blockWarmReset | blockBusy | blockAck | blockNack => exact h.elim

/-- Settles O3: each table of the decoder is looked up in the field R101 names, and its entry decides the operand. -/
theorem commandWordFields : Obligations.CommandWordFields := fun _ _ => ⟨presents_of_decodeCmd, decodeCmd_of_presents⟩

end Sys2Proof.Machine

/-! ### Illegal command words (R104, R105) -/

namespace Sys2Proof.Machine

/-- R75: what is served when a command port with a word is the only requester. -/
theorem fetch_of_lone_word {s : State} {a : Agent} {r : Requester} {w : CmdWord} {ws : List CmdWord}
    (har : a = .host ∧ r = .host ∨ a = .rxirq ∧ r = .rxirq ∨ a = .txirq ∧ r = .txirq) (hw : waiting s = [r])
    (hp : s.port a = ⟨w :: ws, none⟩) : fetch s = some (decodeCmd w, (s.setPort a ⟨ws, none⟩).serve a) := by
  rw [fetch_of_arbitrate (by rw [hw]; rfl), ← servePort_of_word hp]
  rcases har with ⟨rfl, rfl⟩ | ⟨rfl, rfl⟩ | ⟨rfl, rfl⟩ <;> rfl

/-- R104: an illegal word costs the block nothing but the answer. -/
theorem step_of_lone_illegal_word {s : State} {a : Agent} {r : Requester} {w : CmdWord} {ws : List CmdWord}
    (har : a = .host ∧ r = .host ∨ a = .rxirq ∧ r = .rxirq ∨ a = .txirq ∧ r = .txirq) (hr : s.resetIn = .low)
    (hw : waiting s = [r]) (hp : s.port a = ⟨w :: ws, none⟩) (he : ∃ e, decodeCmd w = .error e) :
    step s = .next { s.setPort a ⟨ws, none⟩ with
      serving := a, served := s.served + 1, responses := s.responses ++ [(a, ⟨.illegal, 0#24⟩)] } := by
  obtain ⟨e, he⟩ := he
  rw [step_of_low hr, serveNext_of_fetch_error (he ▸ fetch_of_lone_word har hw hp)]
  rcases har with ⟨rfl, rfl⟩ | ⟨rfl, rfl⟩ | ⟨rfl, rfl⟩ <;> rfl

/-- Log 6: with a command word the only thing presented, HOST alone waits. -/
theorem waiting_presentOnly_command (w : CmdWord) (s : State) : waiting (presentOnly (.command w) s) = [.host] := rfl

/-- R104: the four kinds of illegal word. -/
theorem decodeCmd_isError_iff {w : CmdWord} :
    (∃ e, decodeCmd w = .error e) ↔
      CmdWord.op w ∉ allOps.map Op.code ∨
      (CmdWord.op w ∈ [0x01#8, 0x02#8, 0x03#8, 0x04#8, 0x05#8, 0x06#8] ∧ Config.rbCount ≤ (CmdWord.sel w).toNat) ∨
      (CmdWord.op w ∈ [0x20#8, 0x30#8] ∧ Config.rbCount ≤ (CmdWord.sel w).toNat ∧ CmdWord.sel w ≠ 0xFF#8) ∨
      (CmdWord.op w ∈ [0x10#8, 0x11#8, 0x12#8, 0x13#8] ∧ 3 < (CmdWord.sel w).toNat) ∨
      (CmdWord.op w = 0x30#8 ∧ 0x06 < (CmdWord.imm w).toNat) := by
  unfold decodeCmd
  cases ho : opOfCode (CmdWord.op w) with
  | none => exact iff_of_true ⟨_, rfl⟩ (.inl (opOfCode_eq_none_iff.1 ho))
  | some o =>
    rw [opOfCode_eq_some_iff.1 ho]
    cases o with
    | rbReset | rbEnq | rbDeq | rbSize | rbEmpty | rbFull =>
      simp [operand_isError_iff, handleOfSel_eq_none_iff, Op.code, allOps]
    | semInit | semTry | semLock | semRel => simp [operand_isError_iff, semOfSel_eq_none_iff, Op.code, allOps]
    | rxStart => simp [operand_isError_iff, bindingOfSel_eq_none_iff, Op.code, allOps]
    | rxByte | rxAvail | rxFully | txNext | commInit => simp [Op.code, allOps]
    | txSend =>
      cases hd : bindingOfSel (CmdWord.sel w) with
      | none => simp [bindingOfSel_eq_none_iff.1 hd, Op.code, allOps]
      | some d =>
        have hd' : ¬ (Config.rbCount ≤ (CmdWord.sel w).toNat ∧ CmdWord.sel w ≠ 0xFF#8) := by
          simp [← bindingOfSel_eq_none_iff, hd]
        simp [hd', operand_isError_iff, typeOfCode_eq_none, Op.code, allOps, Nat.lt_iff_add_one_le]

/-- Settles O4: the decoder's reasons are the clauses of R104, and a lone illegal word is taken and only answered. -/
theorem illegalCommandWords : Obligations.IllegalCommandWords := by
  refine fun w => ⟨decodeCmd_isError_iff, fun s he => ⟨fun a r ws har hr hw hp => ?_, ?_⟩⟩
  · exact step_of_lone_illegal_word har hr hw hp he
  · exact step_of_lone_illegal_word (.inl ⟨rfl, rfl⟩) rfl (waiting_presentOnly_command w s) rfl he

end Sys2Proof.Machine

/-! ### Words of the tables, response words and codes (R101, R103, R110, R120, R125) -/

namespace Sys2Proof.Machine

@[simp] theorem Response.word_status (st : Status) (v : Len) : (Response.word ⟨st, v⟩).extractLsb' 24 8 = st.code :=
  BitVec.extractLsb'_append_eq_left

@[simp] theorem Response.word_value (st : Status) (v : Len) : (Response.word ⟨st, v⟩).extractLsb' 0 24 = v :=
  BitVec.extractLsb'_append_eq_right

/-- Settles O2: each word and code is closed, and the response word is its two fields side by side. -/
theorem writtenOutWordsDecode : Obligations.WrittenOutWordsDecode := by
  unfold Obligations.WrittenOutWordsDecode
  exact ⟨by decide, by decide, by decide, by decide, by decide, by decide, by decide, by decide, by decide, by decide,
    by decide, by decide, fun st v => ⟨Response.word_status st v, Response.word_value st v⟩, by decide, by decide⟩

end Sys2Proof.Machine

/-! ### The ring-buffer operations, one equation per answer (R141 to R143) -/

namespace Sys2Proof.Machine

theorem exec_rbEnq_of_full {b : Handle} {s : State} (h : (s.buf b).size = s.capacity) (v : Byte) :
    exec (.rbEnq b v) s = .next (s.respond .full 0#24) := by
  show execRbEnq b v s = _
  simp only [execRbEnq, rbEnqueue_eq_none.2 h]

theorem exec_rbEnq_of_not_full {b : Handle} {s : State} (h : (s.buf b).size ≠ s.capacity) (v : Byte) :
    exec (.rbEnq b v) s = .next ((s.setBuf b ((s.buf b).enqueue s.capacity v)).respond .ok 0#24) := by
  show execRbEnq b v s = _
  simp only [execRbEnq, rbEnqueue_eq_some.2 ⟨h, rfl⟩]

theorem exec_rbDeq_of_empty {b : Handle} {s : State} (h : (s.buf b).size = 0#24) :
    exec (.rbDeq b) s = .next (s.respond .empty 0#24) := by
  show execRbDeq b s = _
  simp only [execRbDeq, rbDequeue, if_pos h]

theorem exec_rbDeq_of_not_empty {b : Handle} {s : State} {v : Byte} (h : (s.buf b).size ≠ 0#24)
    (hv : Memory.read (s.buf b).store (s.buf b).readIndex.toNat = some v) :
    exec (.rbDeq b) s = .next ((s.setBuf b ((s.buf b).dequeue s.capacity)).respond .ok (byteValue v)) := by
  show execRbDeq b s = _
  simp only [execRbDeq, rbDequeue, if_neg h, hv]

/-- An answered change of one buffer leaves everything else alone but for the response. -/
theorem setBuf_respond_frame (s : State) (b : Handle) (q : RingBuffer) (st : Status) (v : Len) :
    (∀ c, c ≠ b → ((s.setBuf b q).respond st v).buf c = s.buf c) ∧
      (s.setBuf b q).respond st v =
        { s with rb := ((s.setBuf b q).respond st v).rb, responses := s.responses ++ [(s.serving, ⟨st, v⟩)] } :=
  ⟨fun c hc => by simp [hc], rfl⟩

/-- Settles O7: `RB_RESET` answers a change of its own buffer. -/
theorem rbResetEffect : Obligations.RbResetEffect := fun b s =>
  ⟨rfl, _, rfl, by simp [rbReset], setBuf_respond_frame ..⟩

/-- An enqueue that succeeds stores to no byte but the one at `write_index`. -/
theorem setBuf_enqueue_sameStorageBut (s : State) (b : Handle) (v : Byte) :
    SameStorageBut b (s.buf b).writeIndex.toNat s (s.setBuf b ((s.buf b).enqueue s.capacity v)) := by
  intro c j hne
  rw [State.buf_setBuf]
  split
  · subst_vars
    refine (Memory.read_write ..).trans (if_neg ?_)
    rintro rfl
    exact hne rfl
  · rfl

/-- Settles O8: a full buffer is answered only; otherwise the change is `RingBuffer.enqueue`, one storage write. -/
theorem rbEnqEffect : Obligations.RbEnqEffect := by
  refine fun b v s hc => ⟨rfl, fun h => exec_rbEnq_of_full h v, fun h => ⟨_, exec_rbEnq_of_not_full h v, ?_⟩⟩
  have hbuf : ((s.setBuf b ((s.buf b).enqueue s.capacity v)).respond .ok 0#24).buf b =
      (s.buf b).enqueue s.capacity v := by simp
  rw [hbuf]
  exact ⟨rfl, nextIndex_toNat _ hc, rfl, (Memory.read_write ..).trans (if_pos rfl),
    setBuf_enqueue_sameStorageBut s b v, setBuf_respond_frame ..⟩

/-- Settles O9: an empty buffer is answered only; otherwise the change is `RingBuffer.dequeue`, which stores nothing. -/
theorem rbDeqEffect : Obligations.RbDeqEffect := by
  refine fun b s hc => ⟨rfl, exec_rbDeq_of_empty, fun v h hv => ⟨_, exec_rbDeq_of_not_empty h hv, ?_⟩⟩
  have hbuf : ((s.setBuf b ((s.buf b).dequeue s.capacity)).respond .ok (byteValue v)).buf b =
      (s.buf b).dequeue s.capacity := by simp
  rw [hbuf]
  exact ⟨rfl, nextIndex_toNat _ hc, rfl, rfl, setBuf_respond_frame ..⟩

/-- Settles O11: each query answers its formula, a truth value as 1 or 0, and only answers. -/
theorem rbQueryEffects : Obligations.RbQueryEffects := by
  refine ⟨fun s => rfl, fun b s => ⟨rfl, rfl, rfl, rfl, ?_, ?_⟩⟩
  · show execRbEmpty b s = _
    simp [execRbEmpty, boolValue, State.respond]
  · show execRbFull b s = _
    simp [execRbFull, boolValue, State.respond]

end Sys2Proof.Machine

/-! ### The FIFO law (R147) -/

namespace Sys2Proof.Machine

@[simp] theorem byteValue_setWidth (v : Byte) : (byteValue v).setWidth 8 = v :=
  BitVec.setWidth_setWidth_of_le v (by decide)

/-! #### A history, one operation at a time -/

theorem ringRun_enq_of_full {b : Handle} {s : State} (h : (s.buf b).size = s.capacity) (v : Byte)
    (l : List (Option Byte)) : ringRun b (some v :: l) s = ringRun b l (s.respond .full 0#24) := by
  simp [ringRun, exec_rbEnq_of_full h]

theorem ringRun_enq_of_not_full {b : Handle} {s : State} (h : (s.buf b).size ≠ s.capacity) (v : Byte)
    (l : List (Option Byte)) :
    ringRun b (some v :: l) s =
      (ringRun b l ((s.setBuf b ((s.buf b).enqueue s.capacity v)).respond .ok 0#24)).map
        fun r => (r.1, v :: r.2.1, r.2.2) := by
  simp [ringRun, exec_rbEnq_of_not_full h]

theorem ringRun_deq_of_empty {b : Handle} {s : State} (h : (s.buf b).size = 0#24) (l : List (Option Byte)) :
    ringRun b (none :: l) s = ringRun b l (s.respond .empty 0#24) := by
  simp [ringRun, exec_rbDeq_of_empty h]

theorem ringRun_deq_of_not_empty {b : Handle} {s : State} {v : Byte} (h : (s.buf b).size ≠ 0#24)
    (hv : Memory.read (s.buf b).store (s.buf b).readIndex.toNat = some v) (l : List (Option Byte)) :
    ringRun b (none :: l) s =
      (ringRun b l ((s.setBuf b ((s.buf b).dequeue s.capacity)).respond .ok (byteValue v))).map
        fun r => (r.1, r.2.1, v :: r.2.2) := by
  simp [ringRun, exec_rbDeq_of_not_empty h hv]

/-! #### The queue through one operation -/

/-- An enqueue that succeeds appends its byte to the queue. -/
theorem Holds.enqueue {s : State} {b : Handle} {p : List Byte} (hp : Holds s b p) (hs : RingInv s)
    (h : (s.buf b).size ≠ s.capacity) (v : Byte) :
    Holds (s.setBuf b ((s.buf b).enqueue s.capacity v)) b (p ++ [v]) := by
  simp only [Holds, State.buf_setBuf, if_pos, State.setBuf_capacity, RingBuffer.contents_enqueue (hs b) h]
  rw [hp, List.map_append, List.map_cons, List.map_nil]

/-- A dequeue that succeeds takes the head of the queue. -/
theorem Holds.dequeue {s : State} {b : Handle} {p : List Byte} (hp : Holds s b p) (hs : RingInv s) {v : Byte}
    (h : (s.buf b).size ≠ 0#24) (hv : Memory.read (s.buf b).store (s.buf b).readIndex.toNat = some v) :
    ∃ p', p = v :: p' ∧ Holds (s.setBuf b ((s.buf b).dequeue s.capacity)) b p' := by
  have hcons := RingBuffer.contents_dequeue (hs b) h
  rw [hp, hv] at hcons
  obtain ⟨w, p', rfl, hw, hp'⟩ := List.map_eq_cons_iff.1 hcons
  cases hw
  exact ⟨p', rfl, by simp [Holds, hp']⟩

/-- R147 from any queue `p`: the bytes held and then enqueued are the bytes dequeued and then held. -/
theorem RingInv.ringRun_fifo {b : Handle} (l : List (Option Byte)) {s : State} {p : List Byte} (hs : RingInv s)
    (hp : Holds s b p) :
    ∃ u ins outs q, ringRun b l s = some (u, ins, outs) ∧ RingInv u ∧ p ++ ins = outs ++ q ∧ Holds u b q := by
  induction l generalizing s p with
  | nil => exact ⟨s, [], [], p, rfl, hs, by simp, hp⟩
  | cons x l ih =>
    cases x with
    | some v =>
      by_cases h : (s.buf b).size = s.capacity
      · rw [ringRun_enq_of_full h]
        exact ih (hs.congr rfl rfl) hp
      · obtain ⟨u, ins, outs, q, hrun, hu, hq, hold⟩ :=
          ih ((exec_ran (exec_rbEnq_of_not_full h v)).ringInv hs) (hp.enqueue hs h v)
        rw [ringRun_enq_of_not_full h, hrun]
        exact ⟨u, v :: ins, outs, q, rfl, hu, by simpa using hq, hold⟩
    | none =>
      by_cases h : (s.buf b).size = 0#24
      · rw [ringRun_deq_of_empty h]
        exact ih (hs.congr rfl rfl) hp
      · obtain ⟨v, hv⟩ := RingBuffer.oldest_isSome (hs b) h
        obtain ⟨p', rfl, hp'⟩ := hp.dequeue hs h hv
        obtain ⟨u, ins, outs, q, hrun, hu, hq, hold⟩ :=
          ih ((exec_ran (exec_rbDeq_of_not_empty h hv)).ringInv hs) hp'
        rw [ringRun_deq_of_not_empty h hv, hrun]
        exact ⟨u, ins, v :: outs, q, rfl, hu, by simpa using hq, hold⟩

/-- Settles O12: R147 from the empty queue, where the bytes dequeued and then held are the bytes enqueued. -/
theorem fifoLaw : Obligations.FifoLaw := by
  intro b s l hs h
  obtain ⟨u, ins, outs, q, hrun, hu, rfl, hold⟩ := hs.ringRun_fifo l (p := []) (RingBuffer.contents_empty h)
  have hsize : (u.buf b).size.toNat = q.length := by
    rw [← RingBuffer.contents_length u.capacity, hold, List.length_map]
  refine ⟨u, outs ++ q, outs, hrun, hu, List.prefix_append .., ?_, ?_⟩
  · rw [hsize, List.length_append, Nat.add_sub_cancel_left]
  · rwa [List.drop_left]

end Sys2Proof.Machine

/-! ### What an instruction leaves alone outside and inside the engines (R148, R149, R167, R206, R265) -/

namespace Sys2Proof.Machine

@[simp] theorem State.setPending_irq (s : State) (l : Option SemId) : (s.setPending l).irq = s.irq := by
  rw [(setPending_ports s l).2.2.2]

/-- The parameter, the channel, the reset input, the bookkeeping and the queues, which no instruction writes. -/
abbrev SameSurroundings (s t : State) : Prop :=
  t.capacity = s.capacity ∧ t.wireIn = s.wireIn ∧ t.resetIn = s.resetIn ∧ t.driver = s.driver ∧
    t.serving = s.serving ∧ t.served = s.served ∧
    t.host.queue = s.host.queue ∧ t.rxirq.queue = s.rxirq.queue ∧ t.txirq.queue = s.txirq.queue

theorem SameInputs.surroundings {s t : State} (h : SameInputs s t) : SameSurroundings s t := by
  obtain ⟨hc, hh, hr, ht, hw, hi, hd, hs, hn⟩ := h
  exact ⟨hc, hw, hi, hd, hs, hn, by rw [hh], by rw [hr], by rw [ht]⟩

theorem setPending_surroundings (s : State) (l : Option SemId) : SameSurroundings s (s.setPending l) := by
  obtain ⟨hh, hr, ht, e⟩ := setPending_ports s l
  refine ⟨?_, ?_, ?_, ?_, ?_, ?_, hh, hr, ht⟩ <;> rw [e]

/-- No instruction writes its surroundings: an attempt of `SEM_LOCK` changes a port's `lock` only (R163). -/
theorem Ran.surroundings {i : Instr} {s t : State} (h : Ran i s t) : SameSurroundings s t := by
  by_cases hi : ∀ k, i ≠ .semLock k
  · exact (h.outward hi).1.surroundings
  · obtain ⟨k, rfl⟩ := not_forall_not.1 hi
    cases h with
    | answered | semSet => exact (respond_outward ..).1.surroundings
    | semTaken k s n => exact setPending_surroundings (s.setPermits k n) none
    | semWaits k s => exact setPending_surroundings s (some k)
    | received hi => cases hi

/-- Settles O48: the effect of every instruction, and that of every one but `SEM_LOCK` on the ports. -/
theorem instructionsLeaveInputsAlone : Obligations.InstructionsLeaveInputsAlone := by
  intro i s t h
  obtain ⟨hc, hw, hr, hd, hs, hn, hqueues⟩ := (exec_ran h).surroundings
  refine ⟨hc, hw, hr, hd, hs, hn, fun hi => ?_, hqueues⟩
  obtain ⟨⟨-, hhost, hrxirq, htxirq, -⟩, -⟩ := (exec_ran h).outward hi
  exact ⟨hhost, hrxirq, htxirq⟩

/-! #### Which engine state each group of operations leaves alone -/

theorem startReception_irq_txEn (h : Option Handle) (s : State) :
    ((startReception h s).getD s).irq.txEn = s.irq.txEn := by
  rw [startReception_eq]; split <;> rfl

theorem sendBlock_irq_rxEn (h : Option Handle) (ty : BlockType) (s : State) :
    ((sendBlock h ty s).getD s).irq.rxEn = s.irq.rxEn := by
  rw [sendBlock_eq]; split <;> rfl

/-- The operations R149 and R206 speak of: the ring-buffer operations and the two queries of reception. -/
abbrev OutsideEngines (i : Instr) : Prop :=
  (∃ b, i = .rbReset b ∨ (∃ v, i = .rbEnq b v) ∨ i = .rbDeq b ∨ i = .rbSize b ∨ i = .rbEmpty b ∨ i = .rbFull b) ∨
    i = .rxAvail ∨ i = .rxFully

theorem OutsideEngines.command {i : Instr} (hi : OutsideEngines i) :
    isSemOp i = false ∧ ∃ w, encode i = .command w := by
  rcases hi with ⟨b, rfl | ⟨v, rfl⟩ | rfl | rfl | rfl | rfl⟩ | rfl | rfl <;> exact ⟨rfl, _, rfl⟩

/-- R149: an operation outside the engines touches the bank and the responses only. -/
theorem Ran.outsideEngines_frame {i : Instr} {s t : State} (h : Ran i s t) (hi : OutsideEngines i) :
    t = { s with rb := t.rb, responses := t.responses } := by
  obtain ⟨hsem, w, hw⟩ := hi.command
  cases h with
  | answered | ringReset | enqueued | dequeued => rfl
  | semSet h => rw [hsem] at h; cases h
  | received h => rw [hw] at h; cases h
  | semTaken | semWaits | rxStarted | txStarted | initialised | receivedByte | txFailed | txStayed | txEntered =>
    simp [OutsideEngines] at hi

theorem isSemOp_of_encode_wire {i : Instr} {bytes : List Byte} (h : encode i = .wire bytes) : isSemOp i = false := by
  cases i <;> cases h <;> rfl

/-- R167. -/
theorem Ran.semOp_frame {i : Instr} {s t : State} (h : Ran i s t) (hi : isSemOp i = true) :
    t.rx = s.rx ∧ t.tx = s.tx ∧ t.irq = s.irq ∧ t.rb = s.rb ∧ t.wireOut = s.wireOut := by
  cases h with
  | answered | semSet => exact ⟨rfl, rfl, rfl, rfl, rfl⟩
  | semTaken | semWaits => simp
  | received hw => rw [isSemOp_of_encode_wire hw] at hi; cases hi
  | ringReset | enqueued | dequeued | rxStarted | txStarted | initialised | receivedByte | txFailed | txStayed
  | txEntered => cases hi

/-- R206. -/
theorem Ran.rxStart_frame {h : Option Handle} {s t : State} (hr : Ran (.rxStart h) s t) :
    t.tx = s.tx ∧ t.rb = s.rb ∧ t.irq.txEn = s.irq.txEn := by
  cases hr with
  | answered => exact ⟨rfl, rfl, rfl⟩
  | rxStarted =>
    obtain ⟨-, hrb, -⟩ := startReception_engineOnly h s
    exact ⟨startReception_tx h s, hrb, startReception_irq_txEn h s⟩
  | semSet hi | received hi => cases hi

/-- R265. -/
theorem Ran.txSend_frame {h : Option Handle} {ty : BlockType} {s t : State} (hr : Ran (.txSend h ty) s t) :
    t.rx = s.rx ∧ t.rb = s.rb ∧ t.irq.rxEn = s.irq.rxEn := by
  cases hr with
  | answered => exact ⟨rfl, rfl, rfl⟩
  | txStarted =>
    obtain ⟨-, hrb, -⟩ := sendBlock_engineOnly h ty s
    exact ⟨sendBlock_rx h ty s, hrb, sendBlock_irq_rxEn h ty s⟩
  | semSet hi | received hi => cases hi

/-- Settles O52: one frame per group of operations. -/
theorem engineFrame : Obligations.EngineFrame := by
  refine fun i s t h => ⟨fun hi => ?_, (exec_ran h).semOp_frame, ?_, ?_⟩
  · rw [(exec_ran h).outsideEngines_frame hi]
    exact ⟨rfl, rfl, rfl, rfl, rfl, rfl⟩
  · rintro b rfl
    exact (exec_ran h).rxStart_frame
  · rintro b ty rfl
    exact (exec_ran h).txSend_frame

end Sys2Proof.Machine

/-! ### The semaphore operations, one equation per answer (R162 to R164) -/

namespace Sys2Proof.Machine

theorem release_of_lt {k : SemId} {s : State} (h : (s.permits k).toNat < 255) :
    release k s = s.setPermits k (s.permits k + 1#8) := if_pos h

theorem release_of_full {k : SemId} {s : State} (h : s.permits k = 255#8) : release k s = s :=
  if_neg (by simp [h])

theorem exec_semTry_of_zero {k : SemId} {s : State} (h : s.permits k = 0#8) :
    exec (.semTry k) s = .next (s.respond .ok 1#24) := by
  show execSemTry k s = _
  simp only [execSemTry, tryLock_eq_none.2 h]

theorem exec_semTry_of_ne_zero {k : SemId} {s : State} (h : s.permits k ≠ 0#8) :
    exec (.semTry k) s = .next ((s.setPermits k (s.permits k - 1#8)).respond .ok 0#24) := by
  show execSemTry k s = _
  simp only [execSemTry, tryLock_eq_some.2 ⟨h, rfl⟩]

theorem exec_semRel (k : SemId) (s : State) : exec (.semRel k) s = .next ((release k s).respond .ok 0#24) := rfl

theorem exec_semLock_of_zero {k : SemId} {s : State} (h : s.permits k = 0#8) :
    exec (.semLock k) s = .next ((s.setPending (some k)).emit .waitHook) := by
  show execSemLock k s = _
  simp only [execSemLock, tryLock_eq_none.2 h]

theorem exec_semLock_of_ne_zero {k : SemId} {s : State} (h : s.permits k ≠ 0#8) :
    exec (.semLock k) s =
      .next (((s.setPermits k (s.permits k - 1#8)).setPending none).respond .ok 0#24) := by
  show execSemLock k s = _
  simp only [execSemLock, tryLock_eq_some.2 ⟨h, rfl⟩]

@[simp] theorem State.port_setPermits (s : State) (k : SemId) (n : Byte) (a : Agent) :
    (s.setPermits k n).port a = s.port a := by
  cases a <;> rfl

/-- R163: taking a permit does not touch the port that `SEM_LOCK` then frees. -/
theorem setPermits_setPending (s : State) (k : SemId) (n : Byte) (l : Option SemId) :
    (s.setPermits k n).setPending l =
      (s.setPermits k n).setPort s.serving { s.port s.serving with lock := l } := by
  simp [State.setPending]

/-- R163: a port held by a `SEM_LOCK` presents the next attempt, and its queue waits. -/
theorem servePort_of_lock {a : Agent} {s : State} {k : SemId} (h : (s.port a).lock = some k) :
    servePort a s = some (.ok (.semLock k), s.serve a) := by
  unfold servePort; rw [h]

/-- R163, R331: an RXIRQ held by a `SEM_LOCK` presents no channel byte. -/
theorem channel_not_mem_waiting_of_lock {s : State} {k : SemId} (h : s.rxirq.lock = some k) :
    Requester.channel ∉ waiting s := by
  rw [mem_waiting]
  intro hw
  obtain ⟨-, hfree, -⟩ := channelWaiting_iff.1 hw
  rw [h] at hfree
  cases hfree

/-- Settles O13: each answer is one equation of its operation, and the words are the table's code over the operands. -/
theorem semaphoreEffects : Obligations.SemaphoreEffects := by
  refine fun k s => ⟨fun n => rfl, rfl, rfl, fun n => rfl, exec_semTry_of_zero, exec_semTry_of_ne_zero,
    fun h => ?_, fun h => ?_⟩
  · rw [exec_semRel, release_of_lt h]
  · rw [exec_semRel, release_of_full h]

/-- Settles O14: an attempt is `TryLock` and a change of the served port; a held port presents the attempt again. -/
theorem semLockAttempts : Obligations.SemLockAttempts := by
  refine fun k s => ⟨fun h => ?_, exec_semLock_of_zero, fun a h => ⟨servePort_of_lock h, ?_⟩⟩
  · rw [exec_semLock_of_ne_zero h, setPermits_setPending]
  · rintro rfl
    exact channel_not_mem_waiting_of_lock h

end Sys2Proof.Machine


/-! ### The ends of a cycle with its process lock held (R200, R202, R262) -/

namespace Sys2Proof.Machine

/-- Writing the count a semaphore has changes nothing. -/
theorem set_permits_self {s : State} {k : SemId} {n : Byte} (h : s.permits k = n) : s.sem.set k n = s.sem := by
  rw [← h]
  exact Semaphores.set_get ..

/-- R181 with the process lock free. -/
theorem startReception_of_free {s : State} (hp : s.permits .rxProcess ≠ 0#8) (h : Option Handle) :
    startReception h s = some
      { s with
        sem := { s.sem with rxProcess := s.sem.rxProcess - 1#8 }
        rx := { s.rx with state := .init, expected := 0#24, received := 0#24, buf := h, inProgress := true,
                          ackSeen := false }
        irq := { s.irq with rxEn := true }
        events := s.events ++ [.rxIrqEnable] } := by
  rw [startReception_eq, if_neg hp]
  rfl

theorem startReception_of_held {s : State} (hp : s.permits .rxProcess = 0#8) (h : Option Handle) :
    startReception h s = none := by
  rw [startReception_eq, if_pos hp]

/-- R241 with the process lock free. -/
theorem sendBlock_of_free {s : State} (hp : s.permits .txProcess ≠ 0#8) (h : Option Handle) (ty : BlockType) :
    sendBlock h ty s = some
      { s with
        sem := { s.sem with txProcess := s.sem.txProcess - 1#8 }
        tx := { s.tx with done := false, inProgress := true, buf := h, blockType := ty, state := .init,
                          ackReceived := false }
        irq := { s.irq with txEn := true }
        events := s.events ++ [.txIrqEnable] } := by
  rw [sendBlock_eq, if_neg hp]
  rfl

theorem sendBlock_of_held {s : State} (hp : s.permits .txProcess = 0#8) (h : Option Handle) (ty : BlockType) :
    sendBlock h ty s = none := by
  rw [sendBlock_eq, if_pos hp]

/-- R201: the events of an ended reception, whatever its type. -/
theorem endEvents_eq (r : RxContext) : endEvents r = endOfReception r.ackSeen r.blockType := by
  cases h : r.blockType <;> simp [endEvents, endOfReception, typeEvent, h]

/-- The end of a reception gives back the process lock that its cycle holds. -/
theorem endedReception_of_held {s : State} (hp : s.permits .rxProcess = 0#8) :
    endedReception s =
      { s with
        rx := { s.rx with inProgress := false }
        sem := { s.sem with rxProcess := 1#8 }
        irq := { s.irq with rxEn := false }
        events := s.events ++ endOfReception s.rx.ackSeen s.rx.blockType } := by
  rw [endedReception, release_of_lt (by rw [hp]; decide), hp, endEvents_eq]
  rfl

/-- R200 with no ACK awaited. -/
theorem endReceptionCycle_of_not_awaited {s : State} (hp : s.permits .rxProcess = 0#8)
    (ha : s.rx.ackExpected = false) :
    endReceptionCycle s =
      { s with
        rx := { s.rx with inProgress := false }
        sem := { s.sem with rxProcess := 1#8 }
        irq := { s.irq with rxEn := false }
        events := s.events ++ endOfReception s.rx.ackSeen s.rx.blockType } := by
  rw [endReceptionCycle_eq, ha, if_neg Bool.false_ne_true, endedReception_of_held hp]

/-- R202: the lock that the end gives back is taken again. -/
theorem endReceptionCycle_of_awaited {s : State} (hp : s.permits .rxProcess = 0#8)
    (ha : s.rx.ackExpected = true) :
    endReceptionCycle s =
      { s with
        rx := { s.rx with state := .init, expected := 0#24, received := 0#24, inProgress := true, ackSeen := false }
        irq := { s.irq with rxEn := true }
        events := s.events ++ endOfReception s.rx.ackSeen s.rx.blockType ++ [.rxIrqEnable] } := by
  have hfree : (endedReception s).permits .rxProcess = 1#8 := by rw [endedReception_of_held hp]; rfl
  rw [endReceptionCycle_eq, if_pos ha, startReception_of_free (by rw [hfree]; decide), Option.getD_some,
    endedReception_of_held hp]
  congr 1
  exact set_permits_self (hp.trans (BitVec.sub_self 1#8).symm)

/-- The end of a transmission gives back the process lock that its cycle holds. -/
theorem endedTransmission_of_held {s : State} (hp : s.permits .txProcess = 0#8) :
    endedTransmission s =
      { s with
        tx := { s.tx with inProgress := false, done := true }
        sem := { s.sem with txProcess := 1#8 }
        events := s.events ++ [.blockSent] } := by
  rw [endedTransmission, release_of_lt (by rw [hp]; decide), hp]
  rfl

/-- R262 with no ACK owed. -/
theorem endTransmissionCycle_of_not_owed {s : State} (hp : s.permits .txProcess = 0#8)
    (ha : s.tx.ackExpected = false) :
    endTransmissionCycle s =
      { s with
        tx := { s.tx with inProgress := false, done := true }
        sem := { s.sem with txProcess := 1#8 }
        events := s.events ++ [.blockSent] } := by
  rw [endTransmissionCycle_eq, ha, if_neg Bool.false_ne_true, endedTransmission_of_held hp]

/-- R262 with an ACK owed: the lock that the end gives back is taken again. -/
theorem endTransmissionCycle_of_owed {s : State} (hp : s.permits .txProcess = 0#8)
    (ha : s.tx.ackExpected = true) :
    endTransmissionCycle s =
      { s with
        tx := { s.tx with state := .init, buf := none, blockType := .ack, inProgress := true, done := false,
                          ackReceived := false }
        irq := { s.irq with txEn := true }
        events := s.events ++ [.blockSent, .txIrqEnable] } := by
  have hfree : (endedTransmission s).permits .txProcess = 1#8 := by rw [endedTransmission_of_held hp]; rfl
  rw [endTransmissionCycle_eq, if_pos ha, sendBlock_of_free (by rw [hfree]; decide), Option.getD_some,
    endedTransmission_of_held hp]
  congr 1
  · exact set_permits_self (hp.trans (BitVec.sub_self 1#8).symm)
  · exact List.append_assoc ..

end Sys2Proof.Machine

/-! ### ACK-received handling in one equation per case (R292, R294) -/

namespace Sys2Proof.Machine

/-- R398: a transmission that cannot be re-driven keeps its flag. -/
theorem ackReceivedHandling_of_not_redriven {s : State} (h : ¬ TxRedriven s) :
    ackReceivedHandling s =
      { s with
        rx := { s.rx with ackExpected := false, ackSeen := true }
        tx := { s.tx with ackReceived := true } } :=
  (redriveTx_eq rfl).trans (if_neg h)

/-- Where a re-drive by ACK-received handling enters `RcvdAck` (R292, R294). -/
abbrev rcvdAckEntered (s : State) : State :=
  { s with
    rx := { s.rx with ackExpected := false, ackSeen := true }
    tx := { s.tx with ackReceived := true, state := .rcvdAck } }

/-- A re-driven transmission ends (R294, R262). -/
theorem ackReceivedHandling_of_redriven {s : State} (h : TxRedriven s) :
    ackReceivedHandling s = disableTxIfIdle (endTransmissionCycle (rcvdAckEntered s)) :=
  (redriveTx_eq rfl).trans (if_pos h)

theorem ackReceivedHandling_of_redriven_not_owed {s : State} (h : TxRedriven s) (hp : s.permits .txProcess = 0#8)
    (ho : s.tx.ackExpected = false) :
    ackReceivedHandling s =
      { s with
        rx := { s.rx with ackExpected := false, ackSeen := true }
        tx := { s.tx with state := .rcvdAck, ackReceived := true, inProgress := false, done := true }
        sem := { s.sem with txProcess := 1#8 }
        irq := { s.irq with txEn := false }
        events := s.events ++ [.blockSent, .txIrqDisable] } := by
  rw [ackReceivedHandling_of_redriven h, endTransmissionCycle_of_not_owed (s := rcvdAckEntered s) hp ho]
  simp [disableTxIfIdle, State.setTxIrq, State.emit]

theorem ackReceivedHandling_of_redriven_owed {s : State} (h : TxRedriven s) (hp : s.permits .txProcess = 0#8)
    (ho : s.tx.ackExpected = true) :
    ackReceivedHandling s =
      { s with
        rx := { s.rx with ackExpected := false, ackSeen := true }
        tx := { s.tx with state := .init, buf := none, blockType := .ack, inProgress := true, done := false,
                          ackReceived := false }
        irq := { s.irq with txEn := true }
        events := s.events ++ [.blockSent, .txIrqEnable] } := by
  rw [ackReceivedHandling_of_redriven h, endTransmissionCycle_of_owed (s := rcvdAckEntered s) hp ho]
  simp [disableTxIfIdle]

/-- ACK-received handling leaves it open whether an ACK is owed. -/
@[simp] theorem ackReceivedHandling_tx_ackExpected (s : State) :
    (ackReceivedHandling s).tx.ackExpected = s.tx.ackExpected := by
  by_cases h : TxRedriven s
  · rw [ackReceivedHandling_of_redriven h, disableTxIfIdle_tx, endTransmissionCycle_eq]
    split
    · rw [sendBlock_eq]
      split <;> rfl
    · rfl
  · rw [ackReceivedHandling_of_not_redriven h]

theorem disableTxIfIdle_of_idle {s : State} (h : s.tx.done = true ∨ s.tx.inProgress = false) :
    disableTxIfIdle s = s.setTxIrq false := if_pos h

theorem disableTxIfIdle_of_busy {s : State} (h : ¬ (s.tx.done = true ∨ s.tx.inProgress = false)) :
    disableTxIfIdle s = s := if_neg h

/-! ### The payload, one equation per answer (R189) -/

theorem rxDataAction_of_unbound {s : State} (hb : s.rx.buf = none) (v : Byte) :
    rxDataAction v s = (countReceived s, .ok) := by
  simp only [rxDataAction, hb]

theorem rxDataAction_of_full {s : State} {b : Handle} (hb : s.rx.buf = some b) (h : (s.buf b).size = s.capacity)
    (v : Byte) : rxDataAction v s = raiseRx s := by
  simp only [rxDataAction, hb, rbEnqueue_eq_none.2 h]

theorem rxDataAction_of_room {s : State} {b : Handle} (hb : s.rx.buf = some b) (h : (s.buf b).size ≠ s.capacity)
    (v : Byte) : rxDataAction v s = (countReceived (s.setBuf b ((s.buf b).enqueue s.capacity v)), .ok) := by
  simp only [rxDataAction, hb, rbEnqueue_eq_some.2 ⟨h, rfl⟩]

/-! ### The block-completion decision, one equation per branch (R190, R193) -/

/-- R190 first branch. -/
theorem rxCheckAction_of_awaited {s : State} (h : s.rx.blockType = .ack ∧ s.rx.ackExpected = true) :
    rxCheckAction s = endReceptionCycle (ackReceivedHandling s) := if_pos h

/-- R190 second branch. -/
theorem rxCheckAction_of_no_reply {s : State} (hr : requiresAck s.rx.blockType = false)
    (h : ¬ (s.rx.blockType = .ack ∧ s.rx.ackExpected = true)) : rxCheckAction s = endReceptionCycle s :=
  (if_neg h).trans (if_pos hr)

/-- An ACK is owed (R190). -/
abbrev ackOwed (s : State) : State := { s with tx := { s.tx with ackExpected := true } }

/-- R190 third branch. -/
theorem rxCheckAction_of_reply {s : State} (hr : requiresAck s.rx.blockType = true) :
    rxCheckAction s = (sendBlock none .ack (ackOwed s)).getD (ackOwed s) := by
  have hack : ¬ (s.rx.blockType = .ack ∧ s.rx.ackExpected = true) := fun h => by
    rw [h.1] at hr
    cases hr
  exact (if_neg hack).trans (if_neg (by simp [hr]))

/-- R193: the reception that an `Ack` interrupts waits on, for its own reply. -/
abbrev ReplyStillOwed (s : State) : Prop :=
  s.rx.ackTxDone = false ∧ requiresAck s.rx.blockType = true ∧ s.tx.ackExpected = true

theorem rxAckCheckAction_of_owed {s : State} (h : ReplyStillOwed s) :
    rxAckCheckAction s = ackReceivedHandling s := by
  obtain ⟨hd, hr, ho⟩ := h
  simp [rxAckCheckAction, hd, hr, ho]

/-- R193: a reception whose reply has been sent, or that needs none, ends; its flag of R195 is clear after it. -/
theorem rxAckCheckAction_of_not_owed {s : State} (h : ¬ ReplyStillOwed s) :
    rxAckCheckAction s = transmittedAckAction (ackReceivedHandling s) := by
  cases hd : s.rx.ackTxDone with
  | true => simp [rxAckCheckAction, hd]
  | false =>
    have hrx : { (ackReceivedHandling s).rx with ackTxDone := false } = (ackReceivedHandling s).rx := by
      simp [← hd]
    have hno : ¬ (requiresAck s.rx.blockType = true ∧ s.tx.ackExpected = true) := fun g => h ⟨hd, g⟩
    have hend : rxAckCheckAction s = endReceptionCycle (ackReceivedHandling s) := by
      simp [rxAckCheckAction, hd, hno]
    rw [transmittedAckAction, hrx]
    exact hend

/-! ### The context lock is no business of an entry action (R349, R350) -/

theorem disableTxIfIdle_setPermits (s : State) (k : SemId) (n : Byte) :
    disableTxIfIdle (s.setPermits k n) = (disableTxIfIdle s).setPermits k n := by
  by_cases h : s.tx.done = true ∨ s.tx.inProgress = false
  · rw [disableTxIfIdle_of_idle h, disableTxIfIdle_of_idle (s := s.setPermits k n) h]
    rfl
  · rw [disableTxIfIdle_of_busy h, disableTxIfIdle_of_busy (s := s.setPermits k n) h]

theorem ackReceivedHandling_setPermits (s : State) (n : Byte) :
    ackReceivedHandling (s.setPermits .rxContext n) = (ackReceivedHandling s).setPermits .rxContext n := by
  by_cases h : TxRedriven s
  · rw [ackReceivedHandling_of_redriven h, ackReceivedHandling_of_redriven (s := s.setPermits .rxContext n) h,
      ← disableTxIfIdle_setPermits, ← endTransmissionCycle_setPermits _ (by decide)]
    rfl
  · rw [ackReceivedHandling_of_not_redriven h, ackReceivedHandling_of_not_redriven (s := s.setPermits .rxContext n) h]
    rfl

theorem sendBlock_setPermits (h : Option Handle) (ty : BlockType) (s : State) (n : Byte) :
    (sendBlock h ty (s.setPermits .rxContext n)).getD (s.setPermits .rxContext n) =
      ((sendBlock h ty s).getD s).setPermits .rxContext n := by
  by_cases hp : s.permits .txProcess = 0#8
  · rw [sendBlock_of_held hp, sendBlock_of_held (s := s.setPermits .rxContext n) hp]
    rfl
  · rw [sendBlock_of_free hp, sendBlock_of_free (s := s.setPermits .rxContext n) hp]
    rfl

theorem rxCheckAction_setPermits (s : State) (n : Byte) :
    rxCheckAction (s.setPermits .rxContext n) = (rxCheckAction s).setPermits .rxContext n := by
  by_cases hr : requiresAck s.rx.blockType = true
  · rw [rxCheckAction_of_reply hr, rxCheckAction_of_reply (s := s.setPermits .rxContext n) hr]
    exact sendBlock_setPermits none .ack (ackOwed s) n
  · by_cases ha : s.rx.blockType = .ack ∧ s.rx.ackExpected = true
    · rw [rxCheckAction_of_awaited ha, rxCheckAction_of_awaited (s := s.setPermits .rxContext n) ha,
        ackReceivedHandling_setPermits, endReceptionCycle_setPermits _ (by decide)]
    · have hr : requiresAck s.rx.blockType = false := by simpa using hr
      rw [rxCheckAction_of_no_reply hr ha, rxCheckAction_of_no_reply (s := s.setPermits .rxContext n) hr ha,
        endReceptionCycle_setPermits _ (by decide)]

theorem transmittedAckAction_setPermits (s : State) (n : Byte) :
    transmittedAckAction (s.setPermits .rxContext n) = (transmittedAckAction s).setPermits .rxContext n :=
  endReceptionCycle_setPermits { s with rx := { s.rx with ackTxDone := false } } (by decide) n

theorem rxAckCheckAction_setPermits (s : State) (n : Byte) :
    rxAckCheckAction (s.setPermits .rxContext n) = (rxAckCheckAction s).setPermits .rxContext n := by
  by_cases hw : ReplyStillOwed s
  · rw [rxAckCheckAction_of_owed hw, rxAckCheckAction_of_owed (s := s.setPermits .rxContext n) hw,
      ackReceivedHandling_setPermits]
  · rw [rxAckCheckAction_of_not_owed hw, rxAckCheckAction_of_not_owed (s := s.setPermits .rxContext n) hw,
      ackReceivedHandling_setPermits, transmittedAckAction_setPermits]

/-- An entry action does the same whatever the count of the context lock its step has taken. -/
theorem rxAction_setPermits (n p : RxState) (v : Byte) (s : State) (m : Byte) :
    rxAction n p v (s.setPermits .rxContext m) =
      ((rxAction n p v s).1.setPermits .rxContext m, (rxAction n p v s).2) := by
  cases n with
  | ctrlByte =>
    show (rxCtrlByteAction v (s.setPermits .rxContext m), Status.ok) =
      ((rxCtrlByteAction v s).setPermits .rxContext m, Status.ok)
    unfold rxCtrlByteAction
    simp only [State.setPermits_rx]
    split
    · split <;> rfl
    · rfl
  | data =>
    show rxDataAction v (s.setPermits .rxContext m) =
      ((rxDataAction v s).1.setPermits .rxContext m, (rxDataAction v s).2)
    rcases rxDataAction_cases v s with ⟨hb, e⟩ | ⟨b, hb, hfull, e⟩ | ⟨b, hb, hroom, e⟩ <;> rw [e]
    · exact rxDataAction_of_unbound (s := s.setPermits .rxContext m) hb v
    · exact rxDataAction_of_full (s := s.setPermits .rxContext m) hb hfull v
    · exact rxDataAction_of_room (s := s.setPermits .rxContext m) hb hroom v
  | check => exact congrArg (·, Status.ok) (rxCheckAction_setPermits s m)
  | ackCtrlByte =>
    show rxAckCtrlByteAction p v (s.setPermits .rxContext m) =
      ((rxAckCtrlByteAction p v s).1.setPermits .rxContext m, (rxAckCtrlByteAction p v s).2)
    unfold rxAckCtrlByteAction
    split
    · rfl
    · split <;> rfl
  | ackCheck => exact congrArg (·, Status.ok) (rxAckCheckAction_setPermits s m)
  | transmittedAck => exact congrArg (·, Status.ok) (transmittedAckAction_setPermits s m)
  | _ => rfl

/-! ### A byte step is its transition and its entry action (R185) -/

/-- A count overwritten and put back leaves no trace. -/
theorem setPermits_restore {s : State} {k : SemId} {n : Byte} (h : s.permits k = n) (m : Byte) :
    (s.setPermits k m).setPermits k n = s := by
  subst h
  simp [State.setPermits, State.permits]

/-- The state a reception step has moved to, before its entry action (R185). -/
abbrev rxEntered (n : RxState) (s : State) : State := { s with rx := { s.rx with state := n } }

/-- A byte step past its entry is the entry action of its next state: the context lock leaves no trace. -/
theorem onByteReceived_eq_rxAction {s : State} {n : RxState} (v : Byte) (h : RxReady s) (hn : rxNext s.rx = some n) :
    onByteReceived v s = rxAction n s.rx.state v (rxEntered n s) := by
  have hkeep : (rxAction n s.rx.state v (rxEntered n s)).1.permits .rxContext = s.permits .rxContext :=
    rxAction_permits (.inl rfl) ..
  have hgoto : onByteReceived v s =
      ((rxAction n s.rx.state v ((rxEntered n s).setPermits .rxContext (s.permits .rxContext - 1#8))).1.setPermits
          .rxContext (s.permits .rxContext),
        (rxAction n s.rx.state v ((rxEntered n s).setPermits .rxContext (s.permits .rxContext - 1#8))).2) :=
    onByteReceived_goto h hn
  rwa [rxAction_setPermits, setPermits_restore hkeep] at hgoto

/-- What such a step answers. -/
theorem exec_rxByte_of_action {s t : State} {n : RxState} {v : Byte} {st : Status} (h : RxReady s)
    (hn : rxNext s.rx = some n) (ha : rxAction n s.rx.state v (rxEntered n s) = (t, st)) :
    exec (.rxByte v) s = .next (t.respond st 0#24) := by
  show Host.Outcome.next (receiveByte v s) = _
  rw [receiveByte, onByteReceived_eq_rxAction v h hn, ha]

end Sys2Proof.Machine

/-! ### The tables of the engines (R40, R110, R186, R246, R291) -/

namespace Sys2Proof.Machine

theorem requiresAck_iff {t : BlockType} : requiresAck t = true ↔ t = .data ∨ t = .coldReset ∨ t = .warmReset := by
  cases t <;> simp [requiresAck]

theorem rxNext_of_init {r : RxContext} (h : r.state = .init) :
    rxNext r = some (if r.ackExpected = true ∧ r.buf = none then .ackCtrlByte else .ctrlByte) := by
  simp only [rxNext, h, apply_ite some]

theorem rxNext_of_ctrlByte {r : RxContext} (h : r.state = .ctrlByte) :
    rxNext r = some (if r.blockType = .data then .lenByte1 else .check) := by
  simp only [rxNext, h, apply_ite some]

theorem rxNext_of_lenByte1 {r : RxContext} (h : r.state = .lenByte1) : rxNext r = some .lenByte2 := by
  simp only [rxNext, h]

theorem rxNext_of_lenByte2 {r : RxContext} (h : r.state = .lenByte2) : rxNext r = some .lenByte3 := by
  simp only [rxNext, h]

theorem rxNext_of_lenByte3 {r : RxContext} (h : r.state = .lenByte3) :
    rxNext r = some (if r.expected = 0#24 then .check else .data) := by
  simp only [rxNext, h, apply_ite some]

theorem rxNext_of_data {r : RxContext} (h : r.state = .data) :
    rxNext r = some (if r.received.toNat < r.expected.toNat then .data else .check) := by
  simp only [rxNext, h, apply_ite some]

theorem rxNext_of_check {r : RxContext} (h : r.state = .check) :
    rxNext r =
      if r.ackTxDone = true then some .transmittedAck else if r.ackExpected = true then some .ackCtrlByte else none := by
  simp only [rxNext, h]

theorem rxNext_of_ackCtrlByte {r : RxContext} (h : r.state = .ackCtrlByte) : rxNext r = some .ackCheck := by
  simp only [rxNext, h]

theorem rxNext_of_ackCheck {r : RxContext} (h : r.state = .ackCheck) :
    rxNext r = if r.ackTxDone = true then some .transmittedAck else none := by
  simp only [rxNext, h]

theorem rxNext_of_transmittedAck {r : RxContext} (h : r.state = .transmittedAck) : rxNext r = none := by
  simp only [rxNext, h]

theorem txNext_of_ctrlByte {t : TxContext} (h : t.state = .ctrlByte) (occ : Len) :
    txNext t occ = .goto (if t.blockType = .data then .lenByte1 else .check) := by
  simp only [txNext, h, apply_ite TxMove.goto]

/-- R246: the payload goes on while the bound buffer holds a byte. -/
theorem txNext_of_payload {t : TxContext} (h : t.state = .lenByte3 ∨ t.state = .data) (occ : Len) :
    txNext t occ = .goto (if 0 < occ.toNat then .data else .check) := by
  have hocc : occ = 0#24 ↔ ¬ 0 < occ.toNat := by bv_omega
  rcases h with h | h <;> simp only [txNext, h, hocc, ite_not, apply_ite TxMove.goto]

theorem txNext_of_wait {t : TxContext} (h : t.state = .check ∨ t.state = .ackCheck) (occ : Len) :
    txNext t occ =
      if t.ackReceived = true then .goto .rcvdAck else if t.ackExpected = true then .goto .ackCtrlByte else .stay := by
  rcases h with h | h <;> simp only [txNext, h, txWaitNext]

/-- Settles O15: each table is read row by row. -/
theorem engineTables : Obligations.EngineTables := by
  refine ⟨⟨rfl, rfl, rfl, rfl, rfl, rfl, rfl⟩, ⟨rfl, rfl, rfl, rfl⟩, fun _ => requiresAck_iff, fun r => ?_,
    fun t occ => ?_⟩
  · exact ⟨rxNext_of_init, rxNext_of_ctrlByte, rxNext_of_lenByte1, rxNext_of_lenByte2, rxNext_of_lenByte3,
      rxNext_of_data, rxNext_of_check, rxNext_of_ackCtrlByte, rxNext_of_ackCheck, rxNext_of_transmittedAck⟩
  · refine ⟨fun h => ?_, (txNext_of_ctrlByte · occ), fun h => ?_, fun h => ?_, (txNext_of_payload · occ),
      (txNext_of_wait · occ), fun h => ?_, fun h => ?_⟩ <;> simp only [txNext, h]

/-! ### The start of a reception and its queries (R181, R203, R204) -/

/-- Settles O16: the start is `startReception` in its two cases, and the word is the code over the binding. -/
theorem rxStartEffect : Obligations.RxStartEffect := by
  refine fun h s => ⟨?_, fun hp => ?_, fun hp => ?_⟩
  · cases h <;> rfl
  · show execRxStart h s = _
    rw [execRxStart, startReception_of_held hp]
    rfl
  · show execRxStart h s = _
    rw [execRxStart, startReception_of_free hp]
    rfl

theorem payloadAvailable_iff {s : State} :
    payloadAvailable s = true ↔ s.rx.blockType = .data ∧ s.rx.buf ≠ none ∧ 0 < (rbSize s.rx.buf s).toNat := by
  simp [payloadAvailable, Option.isSome_iff_ne_none, and_assoc]

theorem fullyReceived_iff {s : State} :
    fullyReceived s = true ↔ s.rx.inProgress = false ∧ s.rx.blockType = .data ∧ s.rx.received = s.rx.expected := by
  simp [fullyReceived, and_assoc]

/-- Settles O31: each query answers its formula as 1 or 0, and only answers. -/
theorem rxQueryEffects : Obligations.RxQueryEffects := by
  refine ⟨rfl, rfl, fun s => ⟨?_, ?_⟩⟩
  · simp only [← payloadAvailable_iff]
    rfl
  · simp only [← fullyReceived_iff]
    rfl

end Sys2Proof.Machine

/-! ### Control byte, length bytes and payload (R187 to R189) -/

namespace Sys2Proof.Machine

/-- R187: the type of a control byte. -/
theorem typeOfControl_of_classified {v : Byte} {ty : BlockType}
    (h : v.toNat ≤ 0x06 ∧ v = ty.tag ∨ 0x07 ≤ v.toNat ∧ ty = .unknown) : typeOfControl v = ty := by
  rcases h with ⟨-, rfl⟩ | ⟨hv, rfl⟩
  · exact typeOfControl_tag ty
  · exact typeOfControl_of_ge hv

/-- R184: a normal cycle starts with a control byte. -/
theorem RxNormalStart.rxNext {s : State} (h : RxNormalStart s) : Machine.rxNext s.rx = some .ctrlByte := by
  obtain ⟨-, hinit, hnormal⟩ := h
  rw [rxNext_of_init hinit, if_neg hnormal]

/-- Settles O19: the entry action of `CtrlByte` resets a bound buffer for a `Data` block only. -/
theorem rxControlByteEffect : Obligations.RxControlByteEffect := by
  intro v ty s hs hv
  have hty := typeOfControl_of_classified hv
  rcases rxCtrlByteAction_cases v (rxEntered .ctrlByte s) with ⟨b, hd, hb, ha⟩ | ⟨hno, ha⟩
  · refine ⟨_, exec_rxByte_of_action hs.1 hs.rxNext (congrArg (·, Status.ok) ha), ?_, ?_, ?_⟩
    · rintro c - hc
      obtain rfl : b = c := Option.some.inj (hb.symm.trans hc)
      exact ⟨(State.buf_setBuf ..).trans (if_pos rfl), fun d hd => (State.buf_setBuf ..).trans (if_neg hd)⟩
    · rintro (h | h)
      · exact absurd (hty.symm.trans hd) h
      · cases hb.symm.trans h
    · rw [← hty, hd]
      rfl
  · refine ⟨_, exec_rxByte_of_action hs.1 hs.rxNext (congrArg (·, Status.ok) ha), ?_, fun _ => rfl, ?_⟩
    · intro b hd hb
      rcases hno with h | h
      · exact absurd (hty.trans hd) h
      · cases hb.symm.trans h
    · rw [hty]
      rfl

/-- What a length byte leaves: the next state, the length so far, and `Ok` (R188). -/
abbrev lengthByteTaken (n : RxState) (len : Len) (s : State) : State :=
  { s with
    rx := { s.rx with state := n, expected := len }
    responses := s.responses ++ [(s.serving, ⟨.ok, 0#24⟩)] }

theorem RxReady.lengthByteTaken {s : State} (h : RxReady s) (n : RxState) (len : Len) :
    RxReady (lengthByteTaken n len s) := h

theorem exec_rxByte_lenByte1 {s : State} (v : Byte) (hs : RxReady s) (h : s.rx.state = .ctrlByte)
    (hd : s.rx.blockType = .data) :
    exec (.rxByte v) s = .next (lengthByteTaken .lenByte1 (v.setWidth 24 <<< 16) s) :=
  exec_rxByte_of_action hs (by rw [rxNext_of_ctrlByte h, if_pos hd]) rfl

theorem exec_rxByte_lenByte2 {s : State} (v : Byte) (hs : RxReady s) (h : s.rx.state = .lenByte1) :
    exec (.rxByte v) s = .next (lengthByteTaken .lenByte2 (s.rx.expected ||| (v.setWidth 24 <<< 8)) s) :=
  exec_rxByte_of_action hs (rxNext_of_lenByte1 h) rfl

theorem exec_rxByte_lenByte3 {s : State} (v : Byte) (hs : RxReady s) (h : s.rx.state = .lenByte2) :
    exec (.rxByte v) s = .next (lengthByteTaken .lenByte3 (s.rx.expected ||| v.setWidth 24) s) :=
  exec_rxByte_of_action hs (rxNext_of_lenByte2 h) rfl

theorem feed_cons_of_next {v : Byte} {s t : State} (h : exec (.rxByte v) s = .next t) (l : List Byte) :
    feed (v :: l) s = feed l t := by
  rw [feed, h]

/-- The three length bytes in a row leave the number R92 assembles. -/
theorem feed_length {s : State} (a b c : Byte) (hs : RxReady s) (h : s.rx.state = .ctrlByte)
    (hd : s.rx.blockType = .data) :
    feed [a, b, c] s = .next
      { s with
        rx := { s.rx with state := .lenByte3, expected := lenOfBytes a b c }
        responses := s.responses ++ List.replicate 3 (s.serving, ⟨.ok, 0#24⟩) } := by
  refine (feed_cons_of_next (exec_rxByte_lenByte1 a hs h hd) _).trans ?_
  refine (feed_cons_of_next (exec_rxByte_lenByte2 b (hs.lengthByteTaken ..) rfl) _).trans ?_
  refine (feed_cons_of_next (exec_rxByte_lenByte3 c ((hs.lengthByteTaken ..).lengthByteTaken ..) rfl) _).trans ?_
  simp [feed, lenOfBytes, List.replicate]

/-- Settles O20: one entry action per length byte, and the three in a row assemble R92's number. -/
theorem rxLengthBytesEffect : Obligations.RxLengthBytesEffect :=
  ⟨fun v _ hs => ⟨exec_rxByte_lenByte1 v hs, exec_rxByte_lenByte2 v hs, exec_rxByte_lenByte3 v hs⟩,
    fun a b c _ hs h hd => ⟨lenOfBytes a b c, lenOfBytes_toNat a b c, feed_length a b c hs h hd⟩⟩

/-- Settles O21: the three answers of the entry action of `Data`. -/
theorem rxDataByteEffect : Obligations.RxDataByteEffect := fun v s hs hn =>
  ⟨fun hb => exec_rxByte_of_action hs hn (rxDataAction_of_unbound (s := rxEntered .data s) hb v),
    fun _ hb h => exec_rxByte_of_action hs hn (rxDataAction_of_room (s := rxEntered .data s) hb h v),
    fun _ hb h => exec_rxByte_of_action hs hn (rxDataAction_of_full (s := rxEntered .data s) hb h v)⟩

end Sys2Proof.Machine

/-! ### The ends of a reception and the owed ACK (R190, R192 to R195, R200, R202) -/

namespace Sys2Proof.Machine

/-- Settles O22: a byte that is not 0x05 is raised; from `Init` the `Ack` is the main block. -/
theorem rxAckControlByteEffect : Obligations.RxAckControlByteEffect := by
  refine fun v s hs hn => ⟨fun hv => ?_, fun hv => ?_⟩
  · exact exec_rxByte_of_action hs hn (if_pos hv)
  · subst hv
    by_cases hi : s.rx.state = .init
    · simp only [if_pos hi]
      exact exec_rxByte_of_action hs hn ((if_neg (not_not.2 rfl)).trans (if_pos hi))
    · simp only [if_neg hi]
      exact exec_rxByte_of_action hs hn ((if_neg (not_not.2 rfl)).trans (if_neg hi))

/-- R190 second branch, up to what the end of the cycle does. -/
theorem exec_rxByte_check_no_reply {s : State} (v : Byte) (hs : RxReady s) (hn : rxNext s.rx = some .check)
    (hr : requiresAck s.rx.blockType = false) (ha : ¬ (s.rx.blockType = .ack ∧ s.rx.ackExpected = true)) :
    exec (.rxByte v) s = .next ((endReceptionCycle (rxEntered .check s)).respond .ok 0#24) :=
  exec_rxByte_of_action hs hn (congrArg (·, Status.ok) (rxCheckAction_of_no_reply (s := rxEntered .check s) hr ha))

/-- The state in which a byte ends a cycle whose reply has been sent (R195). -/
abbrev replySent (s : State) : State :=
  { s with rx := { s.rx with state := .transmittedAck, ackTxDone := false } }

theorem exec_rxByte_transmittedAck {s : State} (v : Byte) (hs : RxReady s) (hn : rxNext s.rx = some .transmittedAck) :
    exec (.rxByte v) s = .next ((endReceptionCycle (replySent s)).respond .ok 0#24) :=
  exec_rxByte_of_action hs hn rfl

/-- Settles O24: `Check` ends the cycle, and no ACK is awaited. -/
theorem rxCheckEndsCycle : Obligations.RxCheckEndsCycle := by
  intro v s hs hn hr ha hp
  have hno : ¬ (s.rx.blockType = .ack ∧ s.rx.ackExpected = true) := fun h => by
    rw [ha] at h
    cases h.2
  rw [exec_rxByte_check_no_reply v hs hn hr hno, endReceptionCycle_of_not_awaited (s := rxEntered .check s) hp ha]
  rfl

/-- Settles O25: both ends are the end of a cycle with an ACK awaited. -/
theorem rxEndRestartsWhileAckAwaited : Obligations.RxEndRestartsWhileAckAwaited := by
  refine fun v s hs ha hp => ⟨fun hn hr ht => ?_, fun hn => ?_⟩
  · rw [exec_rxByte_check_no_reply v hs hn hr fun h => ht h.1,
      endReceptionCycle_of_awaited (s := rxEntered .check s) hp ha]
    rfl
  · rw [exec_rxByte_transmittedAck v hs hn, endReceptionCycle_of_awaited (s := replySent s) hp ha]
    rfl

/-- Settles O29: `TransmittedAck` ends the cycle, and no ACK is awaited. -/
theorem transmittedAckEndsCycle : Obligations.TransmittedAckEndsCycle := by
  intro v s hs hn ha hp
  rw [exec_rxByte_transmittedAck v hs hn, endReceptionCycle_of_not_awaited (s := replySent s) hp ha]
  rfl

/-- Settles O26: the branch of `Check` that owes an ACK tries `send_block`, which needs the process lock. -/
theorem rxCheckOwesAck : Obligations.RxCheckOwesAck := by
  intro v s hs hn hr
  have hexec := exec_rxByte_of_action (v := v) hs hn
    (congrArg (·, Status.ok) (rxCheckAction_of_reply (s := rxEntered .check s) hr))
  refine ⟨fun hp => ?_, fun hp => ?_⟩
  · rw [hexec, sendBlock_of_held (s := ackOwed (rxEntered .check s)) hp]
    rfl
  · rw [hexec, sendBlock_of_free (s := ackOwed (rxEntered .check s)) hp]
    rfl

/-- R194: the entry actions of `Check` and `AckCheck` do not look at the byte. -/
theorem rxTransition_check_byte {s : State} (h : rxNext s.rx = some .check ∨ rxNext s.rx = some .ackCheck)
    (v w : Byte) : rxTransition v s = rxTransition w s := by
  unfold rxTransition
  rcases h with h | h <;> rw [h] <;> rfl

/-- Settles O30: the entry does not look at the byte, and neither does the transition. -/
theorem checkByteIsNotExamined : Obligations.CheckByteIsNotExamined := by
  intro v w s h
  have hstep : onByteReceived v s = onByteReceived w s := by
    unfold onByteReceived
    rcases enterStep_cases s.rx.inProgress s.rx.fault .rxContext s with ⟨-, -, -, e⟩ | ⟨-, -, -, e⟩ | ⟨-, e⟩ <;>
      rw [e]
    simp only [rxTransition_check_byte (s := rxLocked s) h v w]
  show Host.Outcome.next (receiveByte v s) = .next (receiveByte w s)
  rw [receiveByte, receiveByte, hstep]

/-! ### The byte that completes an `Ack` in `AckCheck` (R193, R292, R294) -/

theorem exec_rxByte_ackCheck {s : State} (v : Byte) (hs : RxReady s) (hst : s.rx.state = .ackCtrlByte) :
    exec (.rxByte v) s = .next ((rxAckCheckAction (rxEntered .ackCheck s)).respond .ok 0#24) :=
  exec_rxByte_of_action hs (rxNext_of_ackCtrlByte hst) rfl

/-- A reception that an `Ack` interrupts and that waits no longer ends, with the `Ack` among its events. -/
theorem rxAckCheckAction_of_ended {s : State} (h : ¬ ReplyStillOwed s) (hp : s.permits .rxProcess = 0#8) :
    rxAckCheckAction s =
      let t := ackReceivedHandling s
      { t with
        rx := { s.rx with ackExpected := false, ackSeen := true, ackTxDone := false, inProgress := false }
        sem := { t.sem with rxProcess := 1#8 }
        irq := { t.irq with rxEn := false }
        events := t.events ++ endOfReception true s.rx.blockType } := by
  have hrx := ackReceivedHandling_rx s
  have hheld : (ackReceivedHandling s).permits .rxProcess = 0#8 :=
    (ackReceivedHandling_permits s (by decide)).trans hp
  rw [rxAckCheckAction_of_not_owed h, transmittedAckAction, hrx]
  exact endReceptionCycle_of_not_awaited
    (s := { ackReceivedHandling s with
      rx := { s.rx with ackExpected := false, ackSeen := true, ackTxDone := false } }) hheld rfl

/-- Settles O28: the hand-off ends the transmission or leaves it its flag, and the reception waits or ends. -/
theorem inCycleAckFlushesOwedAck : Obligations.InCycleAckFlushesOwedAck := by
  intro v s hs hst hrp htp
  rw [exec_rxByte_ackCheck v hs hst]
  refine ⟨fun hr hw => ?_, fun hr hw => ?_, fun hr hw => ?_, fun hr hw ho => ?_, fun hr hw ho => ?_⟩
  · rw [rxAckCheckAction_of_owed (s := rxEntered .ackCheck s) hw,
      ackReceivedHandling_of_redriven_owed (s := rxEntered .ackCheck s) hr htp hw.2.2]
    rfl
  · rw [rxAckCheckAction_of_owed (s := rxEntered .ackCheck s) hw,
      ackReceivedHandling_of_not_redriven (s := rxEntered .ackCheck s) hr]
    rfl
  · rw [rxAckCheckAction_of_ended (s := rxEntered .ackCheck s) hw hrp,
      ackReceivedHandling_of_not_redriven (s := rxEntered .ackCheck s) hr]
    rfl
  · rw [rxAckCheckAction_of_ended (s := rxEntered .ackCheck s) hw hrp,
      ackReceivedHandling_of_redriven_not_owed (s := rxEntered .ackCheck s) hr htp ho]
    rfl
  · rw [rxAckCheckAction_of_ended (s := rxEntered .ackCheck s) hw hrp,
      ackReceivedHandling_of_redriven_owed (s := rxEntered .ackCheck s) hr htp ho]
    rfl

/-! ### Blocks of a control byte and a check byte (R191, R115) -/

/-- The state after the control byte of such a block (R187). -/
abbrev controlTaken (ty : BlockType) (s : State) : State :=
  { s with
    rx := { s.rx with state := .ctrlByte, blockType := ty }
    responses := s.responses ++ [(s.serving, ⟨.ok, 0#24⟩)] }

theorem exec_rxByte_control {s : State} {v : Byte} {ty : BlockType} (hs : RxNormalStart s) (hty : typeOfControl v = ty)
    (hd : ty ≠ .data) : exec (.rxByte v) s = .next (controlTaken ty s) := by
  subst hty
  rcases rxCtrlByteAction_cases v (rxEntered .ctrlByte s) with ⟨b, h, -, -⟩ | ⟨-, ha⟩
  · exact absurd h hd
  · exact exec_rxByte_of_action hs.1 hs.rxNext (congrArg (·, Status.ok) ha)

/-- Such a block is its check byte after its control byte. -/
theorem exec_block_of_two_bytes {i : Instr} {c k : Byte} {ty : BlockType} {s : State} (hi : encode i = .wire [c, k])
    (hs : RxNormalStart s) (hty : typeOfControl c = ty) (hd : ty ≠ .data) :
    exec i s = exec (.rxByte k) (controlTaken ty s) := by
  have hc : receiveByte c s = controlTaken ty s := Host.Outcome.next.inj (exec_rxByte_control hs hty hd)
  rw [exec_of_encode_wire hi]
  show Host.Outcome.next (receiveByte k (receiveByte c s)) = _
  rw [hc]
  rfl

/-- After the control byte the check byte comes next. -/
theorem rxNext_controlTaken {ty : BlockType} (hd : ty ≠ .data) (s : State) :
    rxNext (controlTaken ty s).rx = some .check := by
  rw [rxNext_of_ctrlByte rfl, if_neg hd]

/-- Settles O40: the check byte of a reset block owes an ACK (O26). -/
theorem resetBlockReceived : Obligations.ResetBlockReceived := by
  intro k i ty s hi hs hp
  have hcode : encode i = .wire [ty.tag, k] := by rcases hi with ⟨rfl, rfl⟩ | ⟨rfl, rfl⟩ <;> rfl
  have hreply : requiresAck ty = true := by rcases hi with ⟨-, rfl⟩ | ⟨-, rfl⟩ <;> rfl
  have hd : ty ≠ .data := by rcases hi with ⟨-, rfl⟩ | ⟨-, rfl⟩ <;> decide
  rw [exec_block_of_two_bytes hcode hs (typeOfControl_tag ty) hd,
    (rxCheckOwesAck k (controlTaken ty s) hs.1 (rxNext_controlTaken hd s) hreply).2 hp]
  simp [List.replicate]

/-- Settles O41: the check byte of a block that needs no reply ends its cycle (O24). -/
theorem blockWithoutReplyReceived : Obligations.BlockWithoutReplyReceived := by
  intro c k i ty s hi hs ha hp
  have hcode : ∃ v, encode i = .wire [v, k] ∧ typeOfControl v = ty := by
    rcases hi with ⟨rfl, hwf, rfl⟩ | ⟨rfl, rfl⟩ | ⟨rfl, rfl⟩ | ⟨rfl, rfl⟩
    · refine ⟨c, rfl, ?_⟩
      rcases of_decide_eq_true hwf with rfl | hc
      · rfl
      · exact typeOfControl_of_ge hc
    all_goals exact ⟨_, rfl, typeOfControl_tag _⟩
  have hreply : requiresAck ty = false := by rcases hi with ⟨-, -, rfl⟩ | ⟨-, rfl⟩ | ⟨-, rfl⟩ | ⟨-, rfl⟩ <;> rfl
  have hd : ty ≠ .data := by
    rintro rfl
    cases hreply
  obtain ⟨v, hv, hty⟩ := hcode
  rw [exec_block_of_two_bytes hv hs hty hd,
    rxCheckEndsCycle k (controlTaken ty s) hs.1 (rxNext_controlTaken hd s) hreply ha hp]
  simp [List.replicate]

end Sys2Proof.Machine

/-! ### ACK-sent handling in one equation per case (R293, R295) -/

namespace Sys2Proof.Machine

/-- R399: a reception that cannot be re-driven keeps its flag. -/
theorem ackSentHandling_of_not_redriven {s : State} (h : ¬ RxRedriven s) :
    ackSentHandling s =
      { s with
        tx := { s.tx with ackExpected := false }
        rx := { s.rx with ackTxDone := true } } :=
  (redriveRx_eq rfl).trans (if_neg h)

/-- Where a re-drive by ACK-sent handling enters `TransmittedAck` (R293, R295): the flag is consumed (R195). -/
abbrev transmittedAckEntered (s : State) : State :=
  { s with
    tx := { s.tx with ackExpected := false }
    rx := { s.rx with state := .transmittedAck, ackTxDone := false } }

/-- A re-driven reception ends (R295, R200). -/
theorem ackSentHandling_of_redriven {s : State} (h : RxRedriven s) :
    ackSentHandling s = endReceptionCycle (transmittedAckEntered s) :=
  (redriveRx_eq rfl).trans (if_pos h)

theorem ackSentHandling_of_redriven_not_awaited {s : State} (h : RxRedriven s) (hp : s.permits .rxProcess = 0#8)
    (ha : s.rx.ackExpected = false) :
    ackSentHandling s =
      { s with
        tx := { s.tx with ackExpected := false }
        rx := { s.rx with state := .transmittedAck, ackTxDone := false, inProgress := false }
        sem := { s.sem with rxProcess := 1#8 }
        irq := { s.irq with rxEn := false }
        events := s.events ++ endOfReception s.rx.ackSeen s.rx.blockType } := by
  rw [ackSentHandling_of_redriven h, endReceptionCycle_of_not_awaited (s := transmittedAckEntered s) hp ha]

theorem ackSentHandling_of_redriven_awaited {s : State} (h : RxRedriven s) (hp : s.permits .rxProcess = 0#8)
    (ha : s.rx.ackExpected = true) :
    ackSentHandling s =
      { s with
        tx := { s.tx with ackExpected := false }
        rx := { s.rx with state := .init, ackTxDone := false, inProgress := true, expected := 0#24, received := 0#24,
                          ackSeen := false }
        irq := { s.irq with rxEn := true }
        events := s.events ++ endOfReception s.rx.ackSeen s.rx.blockType ++ [.rxIrqEnable] } := by
  rw [ackSentHandling_of_redriven h, endReceptionCycle_of_awaited (s := transmittedAckEntered s) hp ha]

/-! ### The completion of a main block, one equation per branch (R260, R261, R262) -/

theorem completion_of_no_reply {s : State} (hr : requiresAck s.tx.blockType = false) :
    completion s = endTransmissionCycle s := if_neg (by simp [hr])

/-- R261 second row. -/
theorem completion_of_arrived {s : State} (hr : requiresAck s.tx.blockType = true) (ha : s.tx.ackReceived = true) :
    completion s = endTransmissionCycle { s with tx := { s.tx with state := .rcvdAck } } :=
  (if_pos hr).trans (if_pos ha)

/-- A main block that waits for its ACK (R261 first row). -/
abbrev ackAwaited (s : State) : State :=
  { s with tx := { s.tx with done := true }, rx := { s.rx with ackExpected := true } }

theorem completion_of_awaited {s : State} (hr : requiresAck s.tx.blockType = true) (ha : s.tx.ackReceived = false) :
    completion s = (startReception none (ackAwaited s)).getD (ackAwaited s) :=
  (if_pos hr).trans (if_neg (by simp [ha]))

/-- R261 first row with the receiver in a cycle. -/
theorem completion_of_awaited_held {s : State} (hr : requiresAck s.tx.blockType = true)
    (ha : s.tx.ackReceived = false) (hp : s.permits .rxProcess = 0#8) :
    completion s =
      { s with
        tx := { s.tx with done := true }
        rx := { s.rx with ackExpected := true } } := by
  rw [completion_of_awaited hr ha, startReception_of_held (s := ackAwaited s) hp, Option.getD_none]

/-- R261 first row with the receiver free: a dedicated reception starts. -/
theorem completion_of_awaited_free {s : State} (hr : requiresAck s.tx.blockType = true)
    (ha : s.tx.ackReceived = false) (hp : s.permits .rxProcess ≠ 0#8) :
    completion s =
      { s with
        tx := { s.tx with done := true }
        rx := { s.rx with ackExpected := true, state := .init, expected := 0#24, received := 0#24, buf := none,
                          inProgress := true, ackSeen := false }
        sem := { s.sem with rxProcess := s.sem.rxProcess - 1#8 }
        irq := { s.irq with rxEn := true }
        events := s.events ++ [.rxIrqEnable] } := by
  rw [completion_of_awaited hr ha, startReception_of_free (s := ackAwaited s) hp, Option.getD_some]

/-- R255 for a block that is not an owed `Ack`. -/
theorem txCheckAction_of_not_owed_ack {s : State} (h : ¬ (s.tx.blockType = .ack ∧ s.tx.ackExpected = true)) :
    txCheckAction s = completion s := congrArg completion (if_neg h)

/-! ### The context lock is no business of an entry action of transmission (R349, R350) -/

theorem startReception_setPermits (h : Option Handle) (s : State) (n : Byte) :
    (startReception h (s.setPermits .txContext n)).getD (s.setPermits .txContext n) =
      ((startReception h s).getD s).setPermits .txContext n := by
  by_cases hp : s.permits .rxProcess = 0#8
  · rw [startReception_of_held hp, startReception_of_held (s := s.setPermits .txContext n) hp]
    rfl
  · rw [startReception_of_free hp, startReception_of_free (s := s.setPermits .txContext n) hp]
    rfl

theorem ackSentHandling_setPermits (s : State) (n : Byte) :
    ackSentHandling (s.setPermits .txContext n) = (ackSentHandling s).setPermits .txContext n := by
  by_cases h : RxRedriven s
  · rw [ackSentHandling_of_redriven h, ackSentHandling_of_redriven (s := s.setPermits .txContext n) h,
      ← endReceptionCycle_setPermits _ (by decide)]
    rfl
  · rw [ackSentHandling_of_not_redriven h, ackSentHandling_of_not_redriven (s := s.setPermits .txContext n) h]
    rfl

theorem completion_setPermits (s : State) (n : Byte) :
    completion (s.setPermits .txContext n) = (completion s).setPermits .txContext n := by
  cases hr : requiresAck s.tx.blockType with
  | false =>
    rw [completion_of_no_reply hr, completion_of_no_reply (s := s.setPermits .txContext n) hr,
      endTransmissionCycle_setPermits _ (by decide)]
  | true =>
    cases ha : s.tx.ackReceived with
    | false =>
      rw [completion_of_awaited hr ha, completion_of_awaited (s := s.setPermits .txContext n) hr ha]
      exact startReception_setPermits none (ackAwaited s) n
    | true =>
      rw [completion_of_arrived hr ha, completion_of_arrived (s := s.setPermits .txContext n) hr ha]
      exact endTransmissionCycle_setPermits { s with tx := { s.tx with state := .rcvdAck } } (by decide) n

theorem txCheckAction_setPermits (s : State) (n : Byte) :
    txCheckAction (s.setPermits .txContext n) = (txCheckAction s).setPermits .txContext n := by
  unfold txCheckAction
  rw [← completion_setPermits, State.setPermits_tx, ackSentHandling_setPermits]
  split <;> rfl

theorem txAckCheckAction_setPermits (s : State) (n : Byte) :
    txAckCheckAction (s.setPermits .txContext n) = (txAckCheckAction s).setPermits .txContext n := by
  unfold txAckCheckAction
  rw [← completion_setPermits, ← ackSentHandling_setPermits]
  rfl

theorem txDataAction_of_unbound {s : State} (hb : s.tx.buf = none) : txDataAction s = .ok (none, s) := by
  simp only [txDataAction, hb]

theorem txDataAction_of_empty {s : State} {b : Handle} (hb : s.tx.buf = some b) (hs : (s.buf b).size = 0#24) :
    txDataAction s = .ok (none, s) := by
  simp only [txDataAction, hb, rbDequeue, if_pos hs]

theorem txDataAction_of_unwritten {s : State} {b : Handle} (hb : s.tx.buf = some b) (hs : (s.buf b).size ≠ 0#24)
    (hv : Memory.read (s.buf b).store (s.buf b).readIndex.toNat = none) :
    txDataAction s = .error .unwrittenStorage := by
  simp only [txDataAction, hb, rbDequeue, if_neg hs, hv]

/-- R254 with a byte to dequeue. -/
theorem txDataAction_of_read {s : State} {b : Handle} {v : Byte} (hb : s.tx.buf = some b)
    (hs : (s.buf b).size ≠ 0#24) (hv : Memory.read (s.buf b).store (s.buf b).readIndex.toNat = some v) :
    txDataAction s = .ok (some v, s.setBuf b ((s.buf b).dequeue s.capacity)) := by
  simp only [txDataAction, hb, rbDequeue, if_neg hs, hv]

theorem txDataAction_setPermits {s t : State} {byte : Option Byte} (h : txDataAction s = .ok (byte, t)) (n : Byte) :
    txDataAction (s.setPermits .txContext n) = .ok (byte, t.setPermits .txContext n) := by
  cases hb : s.tx.buf with
  | none =>
    rw [txDataAction_of_unbound hb] at h
    cases h
    exact txDataAction_of_unbound (s := s.setPermits .txContext n) hb
  | some b =>
    rcases rbDequeue_cases b s with ⟨hs, -⟩ | ⟨hs, hv, -⟩ | ⟨v, hs, hv, -⟩
    · rw [txDataAction_of_empty hb hs] at h
      cases h
      exact txDataAction_of_empty (s := s.setPermits .txContext n) hb hs
    · rw [txDataAction_of_unwritten hb hs hv] at h
      cases h
    · rw [txDataAction_of_read hb hs hv] at h
      cases h
      exact txDataAction_of_read (s := s.setPermits .txContext n) hb hs hv

/-- An entry action that answers does the same whatever the count of the context lock its step has taken. -/
theorem txAction_setPermits {n : TxState} {s t : State} {byte : Option Byte} (h : txAction n s = .ok (byte, t))
    (m : Byte) : txAction n (s.setPermits .txContext m) = .ok (byte, t.setPermits .txContext m) := by
  cases n with
  | data => exact txDataAction_setPermits h m
  | check =>
    cases h
    rw [← txCheckAction_setPermits]
    rfl
  | ackCheck =>
    cases h
    rw [← txAckCheckAction_setPermits]
    rfl
  | rcvdAck =>
    cases h
    rw [← endTransmissionCycle_setPermits _ (by decide)]
    rfl
  | _ => cases h; rfl

/-! ### A `TX_NEXT` past its entry is its transition, its entry action and its answer (R245 to R248) -/

/-- What `TX_NEXT` answers (R245): `Ok` and the byte, which is pushed, or `Empty`. -/
def txAnswered (byte : Option Byte) (s : State) : State :=
  match byte with
  | none => s.respond .empty 0#24
  | some v => (s.push v).respond .ok (byteValue v)

/-- R248 while the cycle is in progress. -/
theorem disableTxIfIdle_of_inProgress {s : State} (h : s.tx.inProgress = true) :
    disableTxIfIdle s =
      { s with
        irq := { s.irq with txEn := s.irq.txEn && !s.tx.done }
        events := s.events ++ if s.tx.done = true then [.txIrqDisable] else [] } := by
  cases hd : s.tx.done with
  | true =>
    rw [disableTxIfIdle_of_idle (.inl hd)]
    simp [State.setTxIrq, State.emit]
  | false =>
    rw [disableTxIfIdle_of_busy (by simp [hd, h])]
    simp

/-- The end of a step gives back the context lock that its entry took (R350). -/
theorem finishTx_setPermits {s : State} (h : s.permits .txContext ≠ 0#8) (byte : Option Byte) :
    finishTx byte (s.setPermits .txContext (s.permits .txContext - 1#8)) = txAnswered byte (disableTxIfIdle s) := by
  have hexit : exitStep .txContext (disableTxIfIdle (s.setPermits .txContext (s.permits .txContext - 1#8))) =
      disableTxIfIdle s := by
    rw [disableTxIfIdle_setPermits]
    exact exitStep_setPermits (by rwa [disableTxIfIdle_permits]) _ (by rw [disableTxIfIdle_permits])
  cases byte <;> simp only [finishTx, hexit, txAnswered]

theorem enterStep_of_txReady {s : State} (h : TxReady s) :
    enterStep s.tx.inProgress s.tx.fault .txContext s = .ok (txLocked s) := by
  obtain ⟨hi, hf, hl⟩ := h
  simp [enterStep, hi, hf, tryLock_eq_some.2 ⟨hl, rfl⟩]

/-- The state a transmission step has moved to, before its entry action (R245). -/
abbrev txEntered (n : TxState) (s : State) : State := { s with tx := { s.tx with state := n } }

/-- A `TX_NEXT` past its entry is the entry action of its next state: the context lock leaves no trace. -/
theorem exec_txNext_of_action {s t : State} {n : TxState} {byte : Option Byte} (h : TxReady s)
    (hn : txNext s.tx (rbSize s.tx.buf s) = .goto n) (ha : txAction n (txEntered n s) = .ok (byte, t)) :
    exec .txNext s = .next (txAnswered byte (disableTxIfIdle t)) := by
  have hkeep : t.permits .txContext = s.permits .txContext :=
    txAction_permits (s := txEntered n s) (.inr rfl) ha
  have hlocked : txAction n { txLocked s with tx := { s.tx with state := n } } =
      .ok (byte, t.setPermits .txContext (t.permits .txContext - 1#8)) := by
    rw [hkeep]
    exact txAction_setPermits ha _
  show execTxNext s = _
  unfold execTxNext
  rw [enterStep_of_txReady h]
  have hn' : txNext (txLocked s).tx (rbSize (txLocked s).tx.buf (txLocked s)) = .goto n := hn
  simp only [hn']
  rw [State.setPermits_tx, hlocked]
  simp only [finishTx_setPermits (hkeep ▸ h.2.2)]

/-- A `TX_NEXT` in a wait state that stays (R246, R247). -/
theorem exec_txNext_of_stay {s : State} (h : TxReady s) (hn : txNext s.tx (rbSize s.tx.buf s) = .stay) :
    exec .txNext s = .next (txAnswered none (disableTxIfIdle s)) := by
  show execTxNext s = _
  unfold execTxNext
  rw [enterStep_of_txReady h]
  have hn' : txNext (txLocked s).tx (rbSize (txLocked s).tx.buf (txLocked s)) = .stay := hn
  simp only [hn', finishTx_setPermits h.2.2]

end Sys2Proof.Machine

/-! ### The start of a transmission and the bytes of its main block (R241, R250 to R254) -/

namespace Sys2Proof.Machine

/-- Settles O17: the start is `sendBlock` in its two cases, and the word is the code over the binding and the type. -/
theorem txSendEffect : Obligations.TxSendEffect := by
  refine fun h t s => ⟨?_, fun hp => ?_, fun hp => ?_⟩
  · cases h <;> rfl
  · show execTxSend h t s = _
    rw [execTxSend, sendBlock_of_held hp]
    rfl
  · show execTxSend h t s = _
    rw [execTxSend, sendBlock_of_free hp]
    rfl

/-- A byte of the main block whose entry action only reads: R248 decides the interrupt. -/
theorem exec_txNext_of_header {s : State} {n : TxState} {v : Byte} (h : TxReady s)
    (hn : txNext s.tx (rbSize s.tx.buf s) = .goto n)
    (ha : txAction n (txEntered n s) = .ok (some v, txEntered n s)) :
    exec .txNext s = .next
      { s with
        tx := { s.tx with state := n }
        irq := { s.irq with txEn := s.irq.txEn && !s.tx.done }
        wireOut := s.wireOut ++ [v]
        events := s.events ++ (if s.tx.done = true then [.txIrqDisable] else [])
        responses := s.responses ++ [(s.serving, ⟨.ok, v.setWidth 24⟩)] } := by
  rw [exec_txNext_of_action h hn ha, disableTxIfIdle_of_inProgress (s := txEntered n s) h.1]
  rfl

/-- Settles O32: each of the four entry actions reads its byte off the block type or the occupancy. -/
theorem txHeaderBytesEffect : Obligations.TxHeaderBytesEffect := by
  refine fun s h => ⟨fun hst => ?_, fun hst hd => ?_, fun hst => ?_, fun hst => ?_⟩
  · exact exec_txNext_of_header h (by simp only [txNext, hst]) rfl
  · exact exec_txNext_of_header h (by rw [txNext_of_ctrlByte hst, if_pos hd]) rfl
  · exact exec_txNext_of_header h (by simp only [txNext, hst]) rfl
  · exact exec_txNext_of_header h (by simp only [txNext, hst]) rfl

/-- Settles O33: a buffer that is not empty keeps the engine in `Data`, whose entry action dequeues. -/
theorem txDataByteEffect : Obligations.TxDataByteEffect := by
  intro b v s h hb hst hs hv
  have hocc : 0 < (rbSize s.tx.buf s).toNat := by
    rw [hb]
    show 0 < (s.buf b).size.toNat
    bv_omega
  have hn : txNext s.tx (rbSize s.tx.buf s) = .goto .data := by rw [txNext_of_payload hst, if_pos hocc]
  have ha := txDataAction_of_read (s := txEntered .data s) hb hs hv
  rw [exec_txNext_of_action h hn ha, disableTxIfIdle_of_inProgress (s := (txEntered .data s).setBuf b _) h.1]
  rfl

end Sys2Proof.Machine

/-! ### The check byte, the wait states and the `Ack` sent in cycle (R255 to R263) -/

namespace Sys2Proof.Machine

/-- The answer of a step that leaves the engine idle or waiting (R248). -/
theorem txAnswered_byte_of_idle {s : State} (h : s.tx.done = true ∨ s.tx.inProgress = false) (v : Byte) :
    txAnswered (some v) (disableTxIfIdle s) =
      { s with
        irq := { s.irq with txEn := false }
        wireOut := s.wireOut ++ [v]
        events := s.events ++ [.txIrqDisable]
        responses := s.responses ++ [(s.serving, ⟨.ok, byteValue v⟩)] } := by
  rw [disableTxIfIdle_of_idle h]
  rfl

theorem txAnswered_none_of_idle {s : State} (h : s.tx.done = true ∨ s.tx.inProgress = false) :
    txAnswered none (disableTxIfIdle s) =
      { s with
        irq := { s.irq with txEn := false }
        events := s.events ++ [.txIrqDisable]
        responses := s.responses ++ [(s.serving, ⟨.empty, 0#24⟩)] } := by
  rw [disableTxIfIdle_of_idle h]
  rfl

/-- R255 for a block that is no owed `Ack`: its check byte is the completion. -/
theorem exec_txNext_check {s : State} (h : TxReady s) (hn : txNext s.tx (rbSize s.tx.buf s) = .goto .check)
    (ha : ¬ (s.tx.blockType = .ack ∧ s.tx.ackExpected = true)) :
    exec .txNext s = .next (txAnswered (some 0x00#8) (disableTxIfIdle (completion (txEntered .check s)))) := by
  refine exec_txNext_of_action h hn ?_
  rw [← txCheckAction_of_not_owed_ack (s := txEntered .check s) ha]
  rfl

/-- Settles O34: the completion ends the cycle, which starts an owed `Ack`. -/
theorem txCheckEndsCycle : Obligations.TxCheckEndsCycle := by
  refine fun s h hn hr hp => ⟨fun ho => ?_, fun ho ht => ?_⟩
  · rw [exec_txNext_check h hn (by simp [ho]), completion_of_no_reply (s := txEntered .check s) hr,
      endTransmissionCycle_of_not_owed (s := txEntered .check s) hp ho, txAnswered_byte_of_idle (.inl rfl)]
    simp [byteValue]
  · rw [exec_txNext_check h hn (fun g => ht g.1), completion_of_no_reply (s := txEntered .check s) hr,
      endTransmissionCycle_of_owed (s := txEntered .check s) hp ho, disableTxIfIdle_of_busy (by simp)]
    rfl

/-- Settles O35: the completion waits, and its dedicated reception needs the receiver's process lock. -/
theorem txCheckWaitsForAck : Obligations.TxCheckWaitsForAck := by
  intro s h hn hr ha
  have hack : ¬ (s.tx.blockType = .ack ∧ s.tx.ackExpected = true) := fun g => by
    rw [g.1] at hr
    cases hr
  rw [exec_txNext_check h hn hack]
  refine ⟨fun hp => ?_, fun hp => ?_⟩
  · rw [completion_of_awaited_held (s := txEntered .check s) hr ha hp, txAnswered_byte_of_idle (.inl rfl)]
    rfl
  · rw [completion_of_awaited_free (s := txEntered .check s) hr ha hp, txAnswered_byte_of_idle (.inl rfl)]
    simp [byteValue]

/-- Setting `tx.done` where it is set changes nothing. -/
theorem tx_done_self {t : TxContext} (h : t.done = true) : { t with done := true } = t := by
  cases t
  cases h
  rfl

/-- R262 for a transmission that has waited, with no ACK owed. -/
theorem endTransmissionCycle_of_done {s : State} (hp : s.permits .txProcess = 0#8) (ho : s.tx.ackExpected = false)
    (hd : s.tx.done = true) :
    endTransmissionCycle s =
      { s with
        tx := { s.tx with inProgress := false }
        sem := { s.sem with txProcess := 1#8 }
        events := s.events ++ [.blockSent] } := by
  rw [endTransmissionCycle_of_not_owed hp ho]
  simp [hd]

/-- Settles O37: the three rows of a wait state, the last of which ends the cycle. -/
theorem txWaitStateStep : Obligations.TxWaitStateStep := by
  rintro s ⟨h, hd, hst⟩
  refine ⟨fun ha ho => ?_, fun ha ho => ?_, fun ha ho hp => ?_, fun ha ho hp => ?_⟩
  · have hn : txNext s.tx (rbSize s.tx.buf s) = .stay := by simp [txNext_of_wait hst, ha, ho]
    rw [exec_txNext_of_stay h hn, txAnswered_none_of_idle (.inl hd)]
  · have hn : txNext s.tx (rbSize s.tx.buf s) = .goto .ackCtrlByte := by simp [txNext_of_wait hst, ha, ho]
    rw [exec_txNext_of_action h hn rfl, txAnswered_byte_of_idle (s := txEntered .ackCtrlByte s) (.inl hd)]
    rfl
  all_goals
    have hn : txNext s.tx (rbSize s.tx.buf s) = .goto .rcvdAck := by simp [txNext_of_wait hst, ha]
    rw [exec_txNext_of_action h hn rfl]
  · rw [endTransmissionCycle_of_done (s := txEntered .rcvdAck s) hp ho hd, txAnswered_none_of_idle (.inr rfl)]
    simp
  · rw [endTransmissionCycle_of_owed (s := txEntered .rcvdAck s) hp ho, disableTxIfIdle_of_busy (by simp)]
    simp [txAnswered, State.respond, h.1]

/-- Where the second byte of an `Ack` sent in cycle marks it as sent (R257). -/
abbrev ackCheckEntered (s : State) : State :=
  { s with tx := { s.tx with state := .ackCheck, done := true } }

/-- R257: ACK-sent handling, then the completion of the main block, which leaves the engine idle or waiting. -/
theorem exec_txNext_ackCheck {s t : State} (h : TxReady s) (hst : s.tx.state = .ackCtrlByte)
    (ht : completion (ackSentHandling (ackCheckEntered s)) = t) (hd : t.tx.done = true) :
    exec .txNext s = .next
      { t with
        irq := { t.irq with txEn := false }
        wireOut := s.wireOut ++ [0x00#8]
        events := t.events ++ [.txIrqDisable]
        responses := s.responses ++ [(s.serving, ⟨.ok, 0#24⟩)] } := by
  have hn : txNext s.tx (rbSize s.tx.buf s) = .goto .ackCheck := by simp only [txNext, hst]
  have ha : txAction .ackCheck (txEntered .ackCheck s) = .ok (some 0x00#8, t) := by
    rw [← ht]
    rfl
  obtain ⟨hinputs, -, hresponses, hwire, -⟩ : EngineOnly (ackCheckEntered s) t :=
    ht ▸ (ackSentHandling_engineOnly _).trans (completion_engineOnly _)
  rw [exec_txNext_of_action h hn ha, txAnswered_byte_of_idle (.inl hd), hwire, hresponses, hinputs.serving]
  rfl

/-- Settles O60: ACK-sent handling leaves the transmission with no ACK owed, so the completion's branches are those of
a main block alone. -/
theorem txInCycleAckCheckByte : Obligations.TxInCycleAckCheckByte := by
  intro s r h hst hr
  have hsent : ackSentHandling (ackCheckEntered s) = r := by
    rcases hr with ⟨hno, rfl⟩ | ⟨hre, hp, ha, rfl⟩ | ⟨hre, hp, ha, rfl⟩
    · exact ackSentHandling_of_not_redriven (s := ackCheckEntered s) hno
    · exact ackSentHandling_of_redriven_not_awaited (s := ackCheckEntered s) hre hp ha
    · exact ackSentHandling_of_redriven_awaited (s := ackCheckEntered s) hre hp ha
  clear hr
  have htx : r.tx = { s.tx with state := .ackCheck, done := true, ackExpected := false } := by
    rw [← hsent, ackSentHandling_tx]
  have hlock : r.permits .txProcess = s.permits .txProcess := by
    rw [← hsent, ackSentHandling_permits _ (by decide)]
    rfl
  have hdone : r.tx.done = true := by rw [htx]
  have howed : r.tx.ackExpected = false := by rw [htx]
  have htype : r.tx.blockType = s.tx.blockType := by rw [htx]
  have harrived : r.tx.ackReceived = s.tx.ackReceived := by rw [htx]
  rw [← htype, ← harrived, ← hlock]
  refine ⟨fun hq ha hp => ?_, fun hq ha hp => ?_, fun hq ha hp => ?_, fun hq hp => ?_⟩
  · refine exec_txNext_ackCheck h hst ?_ hdone
    rw [hsent, completion_of_awaited_held hq ha hp, tx_done_self hdone]
  · refine exec_txNext_ackCheck h hst ?_ hdone
    rw [hsent, completion_of_awaited_free hq ha hp, tx_done_self hdone]
  · refine exec_txNext_ackCheck h hst ?_ hdone
    rw [hsent, completion_of_arrived hq ha]
    exact endTransmissionCycle_of_done (s := txEntered .rcvdAck r) hp howed hdone
  · refine exec_txNext_ackCheck h hst ?_ hdone
    rw [hsent, completion_of_no_reply hq]
    exact endTransmissionCycle_of_done hp howed hdone

end Sys2Proof.Machine

/-! ### The check byte of an awaited `Ack` (R190, R193, R292, R294, R299) -/

namespace Sys2Proof.Machine

theorem state_of_rxNext_ackCheck {r : RxContext} (h : rxNext r = some .ackCheck) : r.state = .ackCtrlByte := by
  cases hst : r.state with
  | ackCtrlByte => rfl
  | init | ctrlByte | lenByte3 | data | check | ackCheck =>
    simp only [rxNext, hst] at h
    split_ifs at h <;> cases h
  | lenByte1 | lenByte2 | transmittedAck => simp [rxNext, hst] at h

/-- R186: the state in which a block's check byte is taken tells where the byte leads. -/
theorem checkEntered_eq {r : RxContext} {n : RxState} (hn : rxNext r = some n) (h : n = .check ∨ n = .ackCheck) :
    n = if r.state = .ackCtrlByte then .ackCheck else .check := by
  rcases h with rfl | rfl
  · refine (if_neg fun hst => ?_).symm
    rw [rxNext_of_ackCtrlByte hst] at hn
    cases hn
  · exact (if_pos (state_of_rxNext_ackCheck hn)).symm

/-- The end of a reception by an `Ack` that was awaited: it is awaited no more, so the cycle does not start again. -/
theorem endReceptionCycle_ackReceivedHandling {s : State} (hp : s.permits .rxProcess = 0#8) :
    endReceptionCycle (ackReceivedHandling s) =
      let t := ackReceivedHandling s
      { t with
        rx := { s.rx with ackExpected := false, ackSeen := true, inProgress := false }
        sem := { t.sem with rxProcess := 1#8 }
        irq := { t.irq with rxEn := false }
        events := t.events ++ endOfReception true s.rx.blockType } := by
  have hrx := ackReceivedHandling_rx s
  have hheld : (ackReceivedHandling s).permits .rxProcess = 0#8 :=
    (ackReceivedHandling_permits s (by decide)).trans hp
  rw [endReceptionCycle_of_not_awaited hheld (by rw [hrx]), hrx]

/-- R190 first branch and R193: an awaited `Ack`, as a main block or in a dedicated cycle, is handed to the transmission
and then ends its reception. -/
theorem rxAction_of_awaitedAck {s : State} {n : RxState} (v : Byte) (ha : s.rx.ackExpected = true)
    (ht : s.rx.blockType = .ack) (h : n = .check ∨ n = .ackCheck ∧ s.rx.ackTxDone = false) :
    rxAction n s.rx.state v (rxEntered n s) = (endReceptionCycle (ackReceivedHandling (rxEntered n s)), .ok) := by
  rcases h with rfl | ⟨rfl, hd⟩
  · exact congrArg (·, Status.ok) (rxCheckAction_of_awaited (s := rxEntered .check s) ⟨ht, ha⟩)
  · refine congrArg (·, Status.ok) (?_ : rxAckCheckAction (rxEntered .ackCheck s) = _)
    simp [rxAckCheckAction, hd, ht, requiresAck]

/-- What the check byte of an awaited `Ack` answers, with `t` what the hand-off makes of the transmission. -/
theorem exec_rxByte_awaitedAck {s t : State} {n : RxState} (v : Byte) (hs : RxReady s) (ha : s.rx.ackExpected = true)
    (hty : s.rx.blockType = .ack) (hp : s.permits .rxProcess = 0#8) (hn : rxNext s.rx = some n)
    (h : n = .check ∨ n = .ackCheck ∧ s.rx.ackTxDone = false) (ht : ackReceivedHandling (rxEntered n s) = t) :
    exec (.rxByte v) s = .next
      { t with
        rx := { s.rx with state := if s.rx.state = .ackCtrlByte then .ackCheck else .check, ackExpected := false,
                          ackSeen := true, inProgress := false }
        sem := { t.sem with rxProcess := 1#8 }
        irq := { t.irq with rxEn := false }
        events := t.events ++ [.ackReceivedByPeer, .blockReceived, .rxIrqDisable]
        responses := s.responses ++ [(s.serving, ⟨.ok, 0#24⟩)] } := by
  obtain ⟨hinputs, -, hresponses, -⟩ : EngineOnly (rxEntered n s) t := ht ▸ ackReceivedHandling_engineOnly _
  have hend := endReceptionCycle_ackReceivedHandling (s := rxEntered n s) hp
  rw [exec_rxByte_of_action hs hn (rxAction_of_awaitedAck v ha hty h), hend, ht,
    ← checkEntered_eq hn (h.imp_right And.left), ← hresponses, ← hinputs.serving]
  simp [State.respond, hty, endOfReception]

/-- Settles O27: the hand-off ends the transmission, starts the owed `Ack`, or is lost; the reception ends after it. -/
theorem awaitedAckEndsBothCycles : Obligations.AwaitedAckEndsBothCycles := by
  intro v s hs ha hty hrp
  refine ⟨fun hn hr ho htp => ?_, fun hn hr ho htp => ?_, fun hn hr => ?_⟩
  · obtain ⟨n, hn, h⟩ : ∃ n, rxNext s.rx = some n ∧ (n = .check ∨ n = .ackCheck ∧ s.rx.ackTxDone = false) := by
      rcases hn with hn | ⟨hn, hd⟩
      · exact ⟨_, hn, .inl rfl⟩
      · exact ⟨_, hn, .inr ⟨rfl, hd⟩⟩
    rw [exec_rxByte_awaitedAck v hs ha hty hrp hn h
      (ackReceivedHandling_of_redriven_not_owed (s := rxEntered n s) hr htp ho)]
    simp
  · rw [exec_rxByte_awaitedAck v hs ha hty hrp hn (.inl rfl)
      (ackReceivedHandling_of_redriven_owed (s := rxEntered .check s) hr htp ho)]
    simp
  · exact exec_rxByte_awaitedAck v hs ha hty hrp hn (.inl rfl)
      (ackReceivedHandling_of_not_redriven (s := rxEntered .check s) hr)

/-! ### `BLOCK_ACK` in a dedicated cycle (R192, R299) -/

/-- R186: a dedicated cycle takes an `Ack`'s control byte first. -/
theorem RxDedicatedStart.rxNext {s : State} (h : RxDedicatedStart s) : Machine.rxNext s.rx = some .ackCtrlByte := by
  obtain ⟨-, hst, hack⟩ := h
  rw [rxNext_of_init hst, if_pos hack]

/-- The state after the control byte of the `Ack` of a dedicated cycle (R192). -/
abbrev dedicatedAckTaken (s : State) : State :=
  { s with
    rx := { s.rx with state := .ackCtrlByte, blockType := .ack }
    responses := s.responses ++ [(s.serving, ⟨.ok, 0#24⟩)] }

theorem exec_rxByte_dedicatedAck {s : State} (h : RxDedicatedStart s) :
    exec (.rxByte 0x05#8) s = .next (dedicatedAckTaken s) := by
  rw [(rxAckControlByteEffect 0x05#8 s h.1 h.rxNext).2 rfl, if_pos h.2.1]

/-- `BLOCK_ACK` in a dedicated cycle is its check byte after its control byte. -/
theorem exec_blockAck_of_dedicated {s : State} (k : Byte) (h : RxDedicatedStart s) :
    exec (.blockAck k) s = exec (.rxByte k) (dedicatedAckTaken s) := by
  have hc : receiveByte 0x05#8 s = dedicatedAckTaken s := Host.Outcome.next.inj (exec_rxByte_dedicatedAck h)
  show Host.Outcome.next (receiveByte k (receiveByte 0x05#8 s)) = _
  rw [hc]
  rfl

/-- Settles O42: the control byte makes the `Ack` the main block, and its check byte ends both cycles (O27). -/
theorem ackBlockCompletesTheSend : Obligations.AckBlockCompletesTheSend := by
  rintro k s hs ⟨htx, hdone, hst⟩ hd ho hrp htp
  have hends := (awaitedAckEndsBothCycles k (dedicatedAckTaken s) hs.1 hs.2.2.1 rfl hrp).1
    (.inr ⟨rxNext_of_ackCtrlByte rfl, hd⟩) ⟨htx, hst⟩ ho htp
  rw [exec_blockAck_of_dedicated k hs, hends]
  simp [List.replicate, hdone]

end Sys2Proof.Machine

/-! ### The check byte of an owed `Ack` (R255, R293, R295) -/

namespace Sys2Proof.Machine

/-- R255 for an owed `Ack`: the waiting reception is served first, and then the `Ack`, owed no more, ends its cycle. -/
theorem exec_txNext_owedAck {s t : State} (h : TxReady s) (hst : s.tx.state = .ctrlByte) (hty : s.tx.blockType = .ack)
    (ho : s.tx.ackExpected = true) (hp : s.permits .txProcess = 0#8) (ht : ackSentHandling (txEntered .check s) = t) :
    exec .txNext s = .next
      { t with
        tx := { s.tx with state := .check, ackExpected := false, inProgress := false, done := true }
        sem := { t.sem with txProcess := 1#8 }
        irq := { t.irq with txEn := false }
        wireOut := s.wireOut ++ [0x00#8]
        events := t.events ++ [.blockSent, .txIrqDisable]
        responses := s.responses ++ [(s.serving, ⟨.ok, 0#24⟩)] } := by
  have htx : t.tx = { s.tx with state := .check, ackExpected := false } := by rw [← ht, ackSentHandling_tx]
  have hheld : t.permits .txProcess = 0#8 := by
    rw [← ht, ackSentHandling_permits _ (by decide)]
    exact hp
  obtain ⟨hinputs, -, hresponses, hwire, -⟩ : EngineOnly (txEntered .check s) t := ht ▸ ackSentHandling_engineOnly _
  have hn : txNext s.tx (rbSize s.tx.buf s) = .goto .check := by simp [txNext_of_ctrlByte hst, hty]
  have hcheck : txCheckAction (txEntered .check s) = endTransmissionCycle t := by
    rw [txCheckAction, if_pos ⟨hty, ho⟩, ht, completion_of_no_reply (by rw [htx, hty]; rfl)]
  have ha : txAction .check (txEntered .check s) = .ok (some 0x00#8, endTransmissionCycle t) := by
    rw [← hcheck]
    rfl
  rw [exec_txNext_of_action h hn ha, endTransmissionCycle_of_not_owed hheld (by rw [htx]),
    txAnswered_byte_of_idle (.inl rfl), htx, hwire, hresponses, hinputs.serving]
  simp [byteValue]

/-- Settles O36: ACK-sent handling ends the reception, starts it again, or leaves it its flag. -/
theorem owedAckEndsBothCycles : Obligations.OwedAckEndsBothCycles := by
  intro s h hst hty ho hp
  refine ⟨fun hr hrp ha => ?_, fun hr hrp ha => ?_, fun hr => ?_⟩
  · exact exec_txNext_owedAck h hst hty ho hp
      (ackSentHandling_of_redriven_not_awaited (s := txEntered .check s) hr hrp ha)
  · rw [exec_txNext_owedAck h hst hty ho hp
      (ackSentHandling_of_redriven_awaited (s := txEntered .check s) hr hrp ha)]
    simp
  · exact exec_txNext_owedAck h hst hty ho hp (ackSentHandling_of_not_redriven (s := txEntered .check s) hr)

end Sys2Proof.Machine

/-! ### `COMM_INIT` and the reset input (R297, R380 to R382) -/

namespace Sys2Proof.Machine

theorem step_of_arrives_between {s : State} (h : s.resetIn = .arrives 0 false) : step s = .next (applyReset s) := by
  unfold step; rw [h]

theorem step_of_arrives_inService {s : State} (h : s.resetIn = .arrives 0 true) :
    step s = .next (abandonService s) := by
  unfold step; rw [h]

/-- Wherever reset falls, the step ends in the reset of some state. -/
theorem step_of_arrives {s : State} {inService : Bool} (h : s.resetIn = .arrives 0 inService) :
    ∃ u, step s = .next (applyReset u) := by
  cases inService with
  | false => exact ⟨s, step_of_arrives_between h⟩
  | true =>
    rcases abandonService_cases s with ⟨-, e⟩ | ⟨x, u, -, e⟩
    · exact ⟨s, e ▸ step_of_arrives_inService h⟩
    · exact ⟨u, e ▸ step_of_arrives_inService h⟩

/-- R381: after reset every buffer is empty and its storage holds no value. -/
@[simp] theorem applyReset_buf (s : State) (b : Handle) : (applyReset s).buf b = RingBuffer.reset :=
  State.resetWith_buf s.capacity b

/-- R380: what is being served when reset arrives is gone, and only that. -/
theorem step_of_abandoned {s t : State} {x : Except Illegal Instr} (h : s.resetIn = .arrives 0 true)
    (hf : fetch s = some (x, t)) : step s = .next (applyReset t) := by
  rw [step_of_arrives_inService h]
  unfold abandonService; rw [hf]

theorem step_of_abandoned_nothing {s : State} (h : s.resetIn = .arrives 0 true) (hw : waiting s = []) :
    step s = .next (applyReset s) := by
  rw [step_of_arrives_inService h]
  unfold abandonService; rw [fetch_of_waiting_nil hw]

/-- R163: what is served when a port held by a `SEM_LOCK` is the only requester. -/
theorem fetch_of_lone_lock {s : State} {a : Agent} {r : Requester} {k : SemId}
    (har : a = .host ∧ r = .host ∨ a = .rxirq ∧ r = .rxirq ∨ a = .txirq ∧ r = .txirq) (hw : waiting s = [r])
    (hk : (s.port a).lock = some k) : fetch s = some (.ok (.semLock k), s.serve a) := by
  rw [fetch_of_arbitrate (by rw [hw]; rfl), ← servePort_of_lock hk]
  rcases har with ⟨rfl, rfl⟩ | ⟨rfl, rfl⟩ | ⟨rfl, rfl⟩ <;> rfl

/-- Log 8: while a reset is on its way, a channel that is the only requester is served one byte. -/
theorem fetch_of_lone_channel {s : State} {v : Byte} {rest : List Byte} (hr : s.resetIn ≠ .low)
    (hw : waiting s = [.channel]) (hv : s.wireIn = v :: rest) :
    fetch s = some (.ok (.rxByte v), { s with wireIn := rest }.serve .rxirq) := by
  rw [fetch_of_arbitrate (by rw [hw]; rfl), if_pos rfl, serveChannel_eq_byte (.inr (.inl hr)),
    serveChannelByte_of_cons hv]

/-- Settles O44: both give the reset values, and reset falls on what `fetch` has taken. -/
theorem commInitComparedWithReset : Obligations.CommInitComparedWithReset := by
  refine ⟨rfl, fun s => ⟨⟨_, rfl, rfl, rfl, rfl, rfl, rfl, List.append_assoc .., rfl⟩, fun inService h => ?_,
    step_of_arrives_between, fun h => ⟨step_of_abandoned_nothing h, fun a r har hw => ⟨?_, ?_⟩, ?_⟩⟩⟩
  · obtain ⟨u, hu⟩ := step_of_arrives h
    refine ⟨_, hu, rfl, rfl, rfl, rfl, fun b => ?_, rfl, rfl, rfl⟩
    rw [applyReset_buf]
    exact ⟨rfl, rfl, rfl⟩
  · intro w ws hp
    rw [step_of_abandoned h (fetch_of_lone_word har hw hp)]
    rcases har with ⟨rfl, rfl⟩ | ⟨rfl, rfl⟩ | ⟨rfl, rfl⟩ <;> rfl
  · exact fun k hk => step_of_abandoned h (fetch_of_lone_lock har hw hk)
  · exact fun v rest hw hv => step_of_abandoned h (fetch_of_lone_channel (by simp [h]) hw hv)

end Sys2Proof.Machine

/-! ### The framing functions are inverse (R310 to R312) -/

namespace Sys2Proof

/-- R116: re-encoding a classified control byte gives it back, or 0x01 for those from 0x07 on. -/
theorem tag_typeOfControl (c : Byte) : (typeOfControl c).tag = if 0x07 ≤ c.toNat then 0x01#8 else c := by
  split
  · rw [typeOfControl_of_ge ‹_›]
    rfl
  · rcases typeOfControl_eq (c := c) rfl with h | ⟨h, -⟩
    · exact h.symm
    · contradiction

/-- R92: the length bytes of a payload whose length three bytes announce are these bytes. -/
theorem lenBytes_lenOfBytes (a b c : Byte) : lenBytes (lenOfBytes a b c).toNat = [a, b, c] := by
  simp [lenBytes]

/-- R92, R111: the length bytes of a payload that a block can carry announce its length. -/
theorem lenBytes_eq {n : Nat} (h : n < 2 ^ 24) : ∃ a b c, lenBytes n = [a, b, c] ∧ (lenOfBytes a b c).toNat = n :=
  ⟨_, _, _, rfl, by rw [lenOfBytes_len, BitVec.toNat_ofNat, Nat.mod_eq_of_lt h]⟩

theorem encodeFrame_of_ne_data {t : BlockType} (h : t ≠ .data) (p : List Byte) :
    encodeFrame t p = [t.tag, Config.checkTx] := by
  cases t with
  | data => exact absurd rfl h
  | _ => rfl

/-- R111: the bytes of a `Data` block whose length bytes announce its payload. -/
abbrev dataFrameBytes (f : Frame) (a b c : Byte) : List Byte := f.control :: [a, b, c] ++ f.payload ++ [f.check]

theorem decodeFrame_of_data {f : Frame} {a b c : Byte} (hd : f.blockType = .data)
    (hn : (lenOfBytes a b c).toNat = f.payload.length) (rest : List Byte) :
    decodeFrame (dataFrameBytes f a b c ++ rest) = some (f, rest) := by
  have hd' : typeOfControl f.control = .data := hd
  simp [decodeFrame, hd', hn]

theorem decodeFrame_of_ne_data {f : Frame} (hd : f.blockType ≠ .data) (hp : f.payload = []) (rest : List Byte) :
    decodeFrame (f.control :: f.check :: rest) = some (f, rest) := by
  have hd' : typeOfControl f.control ≠ .data := hd
  simp [decodeFrame, hd', ← hp]

/-- R311: the bytes that a decoded block consumes are laid out as R111 says. -/
theorem decodeFrame_eq_some {bytes rest : List Byte} {f : Frame} (h : decodeFrame bytes = some (f, rest)) :
    (f.blockType = .data ∧ ∃ a b c, (lenOfBytes a b c).toNat = f.payload.length ∧
      bytes = dataFrameBytes f a b c ++ rest) ∨
    (f.blockType ≠ .data ∧ f.payload = [] ∧ bytes = f.control :: f.check :: rest) := by
  unfold decodeFrame at h
  split at h
  · cases h
  split at h
  · split at h
    · rename_i a b c body
      simp only at h
      split at h
      · cases h
      · rename_i hdrop
        cases h
        refine .inl ⟨‹_›, a, b, c, ?_, ?_⟩
        · have hlen := congrArg List.length hdrop
          simp only [List.length_drop, List.length_cons] at hlen
          rw [List.length_take]
          omega
        · have hbody := List.take_append_drop (lenOfBytes a b c).toNat body
          rw [hdrop] at hbody
          simp [hbody]
    · cases h
  · split at h
    · cases h
    · cases h
      exact .inr ⟨‹_›, rfl, rfl⟩

/-- Settles O5: an encoded block is laid out as its frame, and a decoded one is the layout of its frame. -/
theorem framingRoundTrip : Obligations.FramingRoundTrip := by
  refine ⟨fun t p r hp => ?_, fun bytes rest f h => ?_⟩
  · by_cases ht : t = .data
    · subst ht
      obtain ⟨a, b, c, hbytes, hlen⟩ := lenBytes_eq (n := p.length) (by omega)
      refine ⟨⟨BlockType.data.tag, p, Config.checkTx⟩, ?_, rfl, rfl⟩
      rw [encodeFrame, dataBytes, hbytes]
      exact decodeFrame_of_data (f := ⟨BlockType.data.tag, p, Config.checkTx⟩) rfl hlen r
    · have htag : Frame.blockType ⟨t.tag, [], Config.checkTx⟩ = t := typeOfControl_tag t
      refine ⟨⟨t.tag, [], Config.checkTx⟩, ?_, htag, (if_neg ht).symm⟩
      rw [encodeFrame_of_ne_data ht]
      exact decodeFrame_of_ne_data (by rwa [htag]) rfl r
  · rw [← tag_typeOfControl]
    rcases decodeFrame_eq_some h with ⟨hd, a, b, c, hlen, rfl⟩ | ⟨hd, -, rfl⟩
    · refine ⟨[a, b, c] ++ f.payload, by simp, ?_⟩
      rw [show typeOfControl f.control = .data from hd, hd, encodeFrame, dataBytes, ← hlen, lenBytes_lenOfBytes]
      simp
    · exact ⟨[], rfl, encodeFrame_of_ne_data hd _⟩

end Sys2Proof

/-! ### What a buffer or a source holds (R144, R147) -/

namespace Sys2Proof.Machine

/-- The number of bytes a buffer holds is its size. -/
theorem Holds.size_eq {s : State} {b : Handle} {p : List Byte} (h : Holds s b p) : (s.buf b).size.toNat = p.length := by
  rw [← RingBuffer.contents_length s.capacity, h, List.length_map]

/-- What a buffer holds is read off the bank and the capacity. -/
theorem Holds.congr {s t : State} {b : Handle} {p : List Byte} (h : Holds s b p) (hc : t.capacity = s.capacity)
    (hr : t.rb = s.rb) : Holds t b p := by
  rwa [Holds, State.buf, hc, hr]

/-- The number of bytes a source holds is its occupancy (R144). -/
theorem SourceHolds.size_eq {s : State} {h : Option Handle} {p : List Byte} (hp : SourceHolds s h p) :
    (rbSize h s).toNat = p.length := by
  cases h with
  | none => exact congrArg List.length (Eq.symm hp)
  | some b => exact Holds.size_eq hp

/-- What a source holds is read off the bank and the capacity. -/
theorem SourceHolds.congr {s t : State} {h : Option Handle} {p : List Byte} (hp : SourceHolds s h p)
    (hc : t.capacity = s.capacity) (hr : t.rb = s.rb) : SourceHolds t h p := by
  cases h with
  | none => exact hp
  | some b => exact Holds.congr hp hc hr

end Sys2Proof.Machine

/-! ### A `Data` block received into its bound buffer (R187 to R190, R315) -/

namespace Sys2Proof.Machine

/-- A normal cycle that has received the part `q` of a payload of `n` bytes into buffer `b`, which has room for it. -/
structure Receiving (b : Handle) (n : Nat) (q : List Byte) (s : State) : Prop where
  ready : RxReady s
  next : rxNext s.rx = some (if q.length < n then .data else .check)
  type : s.rx.blockType = .data
  bound : s.rx.buf = some b
  expected : s.rx.expected.toNat = n
  received : s.rx.received.toNat = q.length
  fits : n ≤ s.capacity.toNat
  ring : RingInv s
  holds : Holds s b q

/-- The bytes `l`, received one after another, are each answered `Ok`. -/
abbrev AnswersOk (l : List Byte) (s : State) : Prop :=
  (receiveBytes l s).responses = s.responses ++ List.replicate l.length (s.serving, ⟨.ok, 0#24⟩)

theorem AnswersOk.append {l m : List Byte} {s : State} (h : AnswersOk l s) (g : AnswersOk m (receiveBytes l s)) :
    AnswersOk (l ++ m) s := by
  rw [AnswersOk, receiveBytes_append, g, h, (receiveBytes_outward l s).1.serving, List.append_assoc,
    List.replicate_append_replicate, List.length_append]

theorem receiveByte_of_exec {v : Byte} {s t : State} (h : exec (.rxByte v) s = .next t) : receiveByte v s = t :=
  Host.Outcome.next.inj h

theorem receiveBytes_of_feed {l : List Byte} {s t : State} (h : feed l s = .next t) : receiveBytes l s = t :=
  Host.Outcome.next.inj ((feed_eq l s).symm.trans h)

/-- One more payload byte (R189). -/
theorem Receiving.byte {b : Handle} {n : Nat} {q : List Byte} {s : State} (h : Receiving b n q s) (hq : q.length < n)
    (v : Byte) : Receiving b n (q ++ [v]) (receiveByte v s) ∧ AnswersOk [v] s := by
  have hroom : (s.buf b).size ≠ s.capacity := fun hfull => by
    have hsize := h.holds.size_eq
    rw [hfull] at hsize
    have hfits := h.fits
    omega
  have hring := h.ring.receiveByte v
  have hnext : rxNext s.rx = some .data := by rw [h.next, if_pos hq]
  have hstep := receiveByte_of_exec ((rxDataByteEffect v s h.ready hnext).2.1 b h.bound hroom)
  have hcount : (s.rx.received + 1#24).toNat = (q ++ [v]).length := by
    have := h.received
    have := h.expected
    rw [List.length_append, List.length_singleton]
    bv_omega
  refine ⟨?_, congrArg State.responses hstep⟩
  rw [hstep] at hring ⊢
  exact {
    ready := h.ready
    next := by rw [rxNext_of_data rfl, hcount, h.expected]
    type := h.type
    bound := h.bound
    expected := h.expected
    received := hcount
    fits := h.fits
    ring := hring
    holds := h.holds.enqueue h.ring hroom v }

/-- The rest `p` of the payload, one byte after another. -/
theorem Receiving.payload {b : Handle} {n : Nat} (p : List Byte) {q : List Byte} {s : State} (h : Receiving b n q s)
    (hn : q.length + p.length = n) : Receiving b n (q ++ p) (receiveBytes p s) ∧ AnswersOk p s := by
  induction p generalizing q s with
  | nil => exact ⟨by rwa [List.append_nil], (List.append_nil _).symm⟩
  | cons v p ih =>
    rw [List.length_cons] at hn
    obtain ⟨hv, hvok⟩ := h.byte (by omega) v
    obtain ⟨hp, hpok⟩ := ih hv (by rw [List.length_append, List.length_singleton]; omega)
    exact ⟨by rwa [List.append_assoc] at hp, hvok.append hpok⟩

/-- The control byte and the length bytes of a `Data` block (R187, R188): the bound buffer is empty. -/
theorem receiving_header {b : Handle} {n : Nat} {s : State} (hring : RingInv s) (hs : RxNormalStart s)
    (hb : s.rx.buf = some b) (hr : s.rx.received = 0#24) (hn : n ≤ s.capacity.toNat) :
    Receiving b n [] (receiveBytes (BlockType.data.tag :: lenBytes n) s) ∧
      AnswersOk (BlockType.data.tag :: lenBytes n) s := by
  obtain ⟨x, y, z, hbytes, hlen⟩ := lenBytes_eq (Nat.lt_of_le_of_lt hn s.capacity.isLt)
  obtain ⟨t, hctrl, hreset, -, ht⟩ := rxControlByteEffect BlockType.data.tag .data s hs (.inl ⟨by decide, rfl⟩)
  have hready : RxReady t := by
    rw [ht]
    exact hs.1
  have hfeed := (feed_cons_of_next hctrl [x, y, z]).trans
    (feed_length x y z hready (by rw [ht]) (by rw [ht]))
  have hringt : RingInv t := receiveByte_of_exec hctrl ▸ hring.receiveByte _
  rw [AnswersOk, hbytes, receiveBytes_of_feed hfeed]
  constructor
  · exact {
      ready := hready
      next := by simp [rxNext_of_lenByte3, ← BitVec.toNat_inj, hlen, Nat.pos_iff_ne_zero]
      type := by rw [ht]
      bound := by rw [ht]; exact hb
      expected := hlen
      received := by rw [ht]; exact congrArg BitVec.toNat hr
      fits := by rw [ht]; exact hn
      ring := hringt.congr rfl rfl
      holds := RingBuffer.contents_empty (congrArg RingBuffer.size (hreset b rfl hb).1) }
  · rw [ht]
    simp [List.replicate]

/-- All bytes of a `Data` block that fits but its last. -/
theorem receiving_dataBytes {b : Handle} {p : List Byte} {s : State} (hring : RingInv s) (hs : RxNormalStart s)
    (hb : s.rx.buf = some b) (hr : s.rx.received = 0#24) (hp : p.length ≤ s.capacity.toNat) (k : Byte) :
    ∃ l, dataBytes p k = l ++ [k] ∧ l.length = 4 + p.length ∧ Receiving b p.length p (receiveBytes l s) ∧
      AnswersOk l s := by
  obtain ⟨hhead, hheadOk⟩ := receiving_header hring hs hb hr hp
  obtain ⟨hpay, hpayOk⟩ := hhead.payload p (Nat.zero_add _)
  rw [← receiveBytes_append] at hpay
  exact ⟨_, rfl, List.length_append, hpay, hheadOk.append hpayOk⟩

/-- The check byte of the block (R190), whether the transmitter is free for the ACK or not. -/
theorem Receiving.check {b : Handle} {p : List Byte} {s : State} (h : Receiving b p.length p s) (k : Byte) :
    (receiveByte k s).rx = { s.rx with state := .check } ∧ (receiveByte k s).tx.ackExpected = true ∧
      Holds (receiveByte k s) b p ∧ AnswersOk [k] s := by
  have hnext : rxNext s.rx = some .check := by rw [h.next, if_neg (Nat.lt_irrefl _)]
  obtain ⟨hheld, hfree⟩ := rxCheckOwesAck k s h.ready hnext (by rw [h.type]; rfl)
  by_cases hp : s.permits .txProcess = 0#8
  · have hstep := receiveByte_of_exec (hheld hp)
    refine ⟨?_, ?_, ?_, congrArg State.responses hstep⟩ <;> rw [hstep]
    exact h.holds.congr rfl rfl
  · have hstep := receiveByte_of_exec (hfree hp)
    refine ⟨?_, ?_, ?_, congrArg State.responses hstep⟩ <;> rw [hstep]
    exact h.holds.congr rfl rfl

/-- Settles O39: the header empties the buffer, each payload byte is enqueued, and the check byte owes an ACK. -/
theorem dataBlockReceived : Obligations.DataBlockReceived := by
  intro b p k s hring hs hb hr hfit
  obtain ⟨l, hl, hlen, h, hok⟩ := receiving_dataBytes hring hs hb hr hfit k
  obtain ⟨hrx, hack, hholds, hlastOk⟩ := h.check k
  have hrun : exec (.blockData p k) s = .next (receiveByte k (receiveBytes l s)) := by
    rw [exec_of_encode_wire rfl, hl, receiveBytes_append]
    rfl
  have hall : (receiveByte k (receiveBytes l s)).responses =
      s.responses ++ List.replicate (l ++ [k]).length (s.serving, ⟨.ok, 0#24⟩) := by
    rw [← hok.append hlastOk, receiveBytes_append]
    rfl
  refine ⟨_, hrun, ?_, ?_, ?_, ?_, ?_, ?_, hack, hholds, fun c hc => ?_⟩
  · rw [hall, List.length_append, List.length_singleton, hlen, Nat.add_right_comm]
  · rw [hrx]; exact h.type
  · rw [hrx]; exact h.expected
  · rw [hrx]; exact h.received
  · rw [hrx]
  · rw [hrx]; exact h.ready.1
  · refine ((receiveBytes_boundOnly l s).trans (receiveByte_boundOnly k _)).2 c fun hbc => hc ?_
    exact Option.some.inj (hbc.symm.trans hb)

end Sys2Proof.Machine

/-! ### A transmission sends the frame of its type and payload (R245 to R264, R314) -/

namespace Sys2Proof.Machine

/-- `TX_NEXT`, once per byte of `l`, returns exactly these bytes and puts them on the channel. -/
def Pumps (l : List Byte) (s u : State) : Prop :=
  pump l.length s = .next u ∧ u.serving = s.serving ∧ u.wireOut = s.wireOut ++ l ∧
    u.responses = s.responses ++ l.map fun v => (s.serving, ⟨.ok, v.setWidth 24⟩)

theorem pump_add {m : Nat} {s t : State} (h : pump m s = .next t) (n : Nat) : pump (m + n) s = pump n t := by
  induction m generalizing s with
  | zero =>
    cases h
    rw [Nat.zero_add]
  | succ m ih =>
    rw [Nat.add_right_comm]
    rw [pump] at h ⊢
    split at h
    · exact ih h
    · cases h
    · cases h

theorem Pumps.nil (s : State) : Pumps [] s s := ⟨rfl, rfl, (List.append_nil _).symm, (List.append_nil _).symm⟩

theorem Pumps.append {l m : List Byte} {s t u : State} (h : Pumps l s t) (g : Pumps m t u) : Pumps (l ++ m) s u := by
  obtain ⟨hp, hs, hw, hr⟩ := h
  obtain ⟨gp, gs, gw, gr⟩ := g
  refine ⟨?_, gs.trans hs, ?_, ?_⟩
  · rw [List.length_append, pump_add hp, gp]
  · rw [gw, hw, List.append_assoc]
  · rw [gr, hr, hs, List.append_assoc, List.map_append]

/-- One `TX_NEXT` whose entry action emits a byte. -/
theorem pumps_of_action {s t : State} {n : TxState} {v : Byte} (h : TxReady s)
    (hn : txNext s.tx (rbSize s.tx.buf s) = .goto n) (ha : txAction n (txEntered n s) = .ok (some v, t)) :
    Pumps [v] s (txAnswered (some v) (disableTxIfIdle t)) := by
  obtain ⟨hi, hr, hw, -⟩ : Quiet (txEntered n s) (disableTxIfIdle t) :=
    (txAction_quiet ha).1.trans (disableTxIfIdle_engineOnly t).quiet
  refine ⟨?_, hi.serving, congrArg (· ++ [v]) hw, ?_⟩
  · simp [pump, exec_txNext_of_action h hn ha]
  · show (disableTxIfIdle t).responses ++ [((disableTxIfIdle t).serving, _)] = _
    rw [hr, hi.serving]
    rfl

/-! #### What stays the same while the main block is sent -/

/-- A cycle whose transmission context is `x` but for its state `n`, with the bytes `p` still in the source. -/
structure Sending (x : TxContext) (n : TxState) (p : List Byte) (s : State) : Prop where
  tx : s.tx = { x with state := n }
  inProgress : x.inProgress = true
  fault : x.fault = false
  lock : s.permits .txContext ≠ 0#8
  ring : RingInv s
  source : SourceHolds s x.buf p

section
variable {x : TxContext} {m n : TxState} {p q : List Byte} {s : State}

theorem Sending.ready (h : Sending x n p s) : TxReady s := by
  rw [TxReady, h.tx]
  exact ⟨h.inProgress, h.fault, h.lock⟩

theorem Sending.buf (h : Sending x n p s) : s.tx.buf = x.buf := by rw [h.tx]

/-- The occupancy of the source (R251). -/
theorem Sending.occupancy (h : Sending x n p s) : rbSize s.tx.buf s = BitVec.ofNat 24 p.length := by
  rw [h.buf, ← h.source.size_eq, BitVec.ofNat_toNat, BitVec.setWidth_eq]

/-- A change of the engine's state alone. -/
theorem Sending.enter (h : Sending x m p s) (n : TxState) : Sending x n p (txEntered n s) where
  tx := congrArg (fun y : TxContext => { y with state := n }) h.tx
  inProgress := h.inProgress
  fault := h.fault
  lock := h.lock
  ring := h.ring.congr rfl rfl
  source := h.source

/-- The end of a step that sends a byte changes none of it. -/
theorem Sending.answered (h : Sending x n p s) (v : Byte) :
    Sending x n p (txAnswered (some v) (disableTxIfIdle s)) := by
  obtain ⟨hi, hrb, -⟩ := disableTxIfIdle_engineOnly s
  exact {
    tx := (disableTxIfIdle_tx s).trans h.tx
    inProgress := h.inProgress
    fault := h.fault
    lock := (disableTxIfIdle_permits s .txContext).trans_ne h.lock
    ring := h.ring.congr hi.1 hrb
    source := h.source.congr hi.1 hrb }

/-- One byte of the main block. -/
theorem Sending.step {t : State} {v : Byte} (h : Sending x m p s)
    (hn : txNext s.tx (rbSize s.tx.buf s) = .goto n) (ha : txAction n (txEntered n s) = .ok (some v, t))
    (ht : Sending x n q t) : ∃ u, Pumps [v] s u ∧ Sending x n q u :=
  ⟨_, pumps_of_action h.ready hn ha, ht.answered v⟩

/-- One byte of the header, whose entry action only reads. -/
theorem Sending.header {v : Byte} (h : Sending x m p s) (hn : txNext s.tx (rbSize s.tx.buf s) = .goto n)
    (ha : txAction n (txEntered n s) = .ok (some v, txEntered n s)) : ∃ u, Pumps [v] s u ∧ Sending x n p u :=
  h.step hn ha (h.enter n)

/-! #### The parts of the frame -/

/-- The control byte (R250). -/
theorem Sending.control (h : Sending x .init p s) : ∃ u, Pumps [x.blockType.tag] s u ∧ Sending x .ctrlByte p u := by
  have hty : s.tx.blockType = x.blockType := by rw [h.tx]
  rw [← hty]
  exact h.header (by simp only [txNext, h.tx]) rfl

/-- The three length bytes (R251 to R253). -/
theorem Sending.length (h : Sending x .ctrlByte p s) (hd : x.blockType = .data) :
    ∃ u, Pumps (lenBytes p.length) s u ∧ Sending x .lenByte3 p u := by
  obtain ⟨t1, h1, g1⟩ := h.header (n := .lenByte1) (v := len1 (BitVec.ofNat 24 p.length))
    (by simp only [txNext, h.tx, if_pos hd]) (by rw [← h.occupancy]; rfl)
  obtain ⟨t2, h2, g2⟩ := g1.header (n := .lenByte2) (v := len2 (BitVec.ofNat 24 p.length))
    (by simp only [txNext, g1.tx]) (by rw [← g1.occupancy]; rfl)
  obtain ⟨t3, h3, g3⟩ := g2.header (n := .lenByte3) (v := len3 (BitVec.ofNat 24 p.length))
    (by simp only [txNext, g2.tx]) (by rw [← g2.occupancy]; rfl)
  exact ⟨t3, (h1.append h2).append h3, g3⟩

/-- The payload goes on while the source holds a byte (R246). -/
theorem Sending.next (h : Sending x n p s) (hn : n = .lenByte3 ∨ n = .data) :
    txNext s.tx (rbSize s.tx.buf s) = .goto (if 0 < p.length then .data else .check) := by
  have hst : s.tx.state = .lenByte3 ∨ s.tx.state = .data := by rwa [h.tx]
  rw [txNext_of_payload hst, h.buf, h.source.size_eq]

/-- One payload byte (R254). -/
theorem Sending.byte {v : Byte} (h : Sending x n (v :: p) s) (hn : n = .lenByte3 ∨ n = .data) :
    ∃ u, Pumps [v] s u ∧ Sending x .data p u := by
  have hnext := h.next hn
  rw [List.length_cons, if_pos (Nat.succ_pos _)] at hnext
  have hsource := h.source
  cases hb : x.buf with
  | none =>
    rw [hb] at hsource
    cases hsource
  | some b =>
    rw [hb] at hsource
    have hne : (s.buf b).size ≠ 0#24 := toNat_ne_zero_iff.2 (Holds.size_eq hsource ▸ Nat.succ_pos _)
    obtain ⟨w, hw⟩ := RingBuffer.oldest_isSome (h.ring b) hne
    obtain ⟨p', heq, hp'⟩ := Holds.dequeue hsource h.ring hne hw
    cases heq
    have henter := h.enter .data
    refine h.step hnext (txDataAction_of_read (s := txEntered .data s) (h.buf.trans hb) hne hw) {
      tx := henter.tx
      inProgress := h.inProgress
      fault := h.fault
      lock := h.lock
      ring := henter.ring.setBuf b (RingBuffer.ok_dequeue (h.ring b) hne)
      source := ?_ }
    rw [hb]
    exact hp'

/-- The payload, one byte after another. -/
theorem Sending.payload (h : Sending x n p s) (hn : n = .lenByte3 ∨ n = .data) :
    ∃ u n', Pumps p s u ∧ Sending x n' [] u ∧ (n' = .lenByte3 ∨ n' = .data) := by
  induction p generalizing n s with
  | nil => exact ⟨s, n, .nil s, h, hn⟩
  | cons v p ih =>
    obtain ⟨t, hv, ht⟩ := h.byte hn
    obtain ⟨u, n', hp, hu, hn'⟩ := ih ht (.inr rfl)
    exact ⟨u, n', hv.append hp, hu, hn'⟩

/-- R262 with no ACK owed leaves the engine in its state. -/
theorem endTransmissionCycle_tx_state {s : State} (ho : s.tx.ackExpected = false) :
    (endTransmissionCycle s).tx.state = s.tx.state := by
  rw [endTransmissionCycle_eq, ho, if_neg Bool.false_ne_true]
  rfl

/-- R260 with no ACK owed and none received: the engine ends or waits where it is. -/
theorem completion_tx_state {s : State} (ho : s.tx.ackExpected = false) (ha : s.tx.ackReceived = false) :
    (completion s).tx.state = s.tx.state := by
  cases hr : requiresAck s.tx.blockType with
  | false => rw [completion_of_no_reply hr, endTransmissionCycle_tx_state ho]
  | true => rw [completion_of_awaited hr ha, startReception_tx]

/-- The check byte (R255); with no ACK owed and none received, the engine then stands in `Check`. -/
theorem Sending.check (h : Sending x n p s) (hn : txNext s.tx (rbSize s.tx.buf s) = .goto .check) :
    ∃ u, Pumps [Config.checkTx] s u ∧ (x.ackExpected = false → x.ackReceived = false → u.tx.state = .check) := by
  refine ⟨_, pumps_of_action h.ready hn rfl, fun ho ha => ?_⟩
  have ho' : s.tx.ackExpected = false := by rw [h.tx, ho]
  have ha' : s.tx.ackReceived = false := by rw [h.tx, ha]
  show (disableTxIfIdle (txCheckAction (txEntered .check s))).tx.state = .check
  rw [disableTxIfIdle_tx, txCheckAction_of_not_owed_ack (fun g => by simp [ho'] at g)]
  exact completion_tx_state (s := txEntered .check s) ho' ha'

/-- The frame (R264): the parts in order. -/
theorem Sending.frame (h : Sending x .init p s) :
    ∃ u, Pumps (encodeFrame x.blockType p) s u ∧
      (x.ackExpected = false → x.ackReceived = false → u.tx.state = .check) := by
  obtain ⟨t, hctrl, ht⟩ := h.control
  by_cases hd : x.blockType = .data
  · obtain ⟨t2, hlen, ht2⟩ := ht.length hd
    obtain ⟨t3, n, hpay, ht3, hn⟩ := ht2.payload (.inl rfl)
    obtain ⟨u, hcheck, hu⟩ := ht3.check (ht3.next hn)
    rw [hd] at hctrl ⊢
    exact ⟨u, ((hctrl.append hlen).append hpay).append hcheck, hu⟩
  · obtain ⟨u, hcheck, hu⟩ := ht.check (by simp only [txNext, ht.tx, if_neg hd])
    rw [encodeFrame_of_ne_data hd]
    exact ⟨u, hctrl.append hcheck, hu⟩

end

/-- The state after `TX_SEND` with the process lock free (R241). -/
abbrev sendStarted (h : Option Handle) (ty : BlockType) (s : State) : State :=
  { s with
    sem := { s.sem with txProcess := s.sem.txProcess - 1#8 }
    tx := { s.tx with done := false, inProgress := true, buf := h, blockType := ty, state := .init,
                      ackReceived := false }
    irq := { s.irq with txEn := true }
    events := s.events ++ [.txIrqEnable]
    responses := s.responses ++ [(s.serving, ⟨.started, 0#24⟩)] }

/-- Settles O38: a started transmission stands before its frame, and each part of the frame is sent in turn. -/
theorem transmissionSendsTheFrame : Obligations.TransmissionSendsTheFrame := by
  intro h ty p s hring hproc hctx hfault hsource
  have hstart : exec (.txSend h ty) s = .next (sendStarted h ty s) := (txSendEffect h ty s).2.2 hproc
  have hsending : Sending (sendStarted h ty s).tx .init p (sendStarted h ty s) :=
    { tx := rfl, inProgress := rfl, fault := hfault, lock := hctx, ring := hring.congr rfl rfl, source := hsource }
  obtain ⟨u, ⟨hpump, -, hwire, hresp⟩, hstate⟩ := hsending.frame
  exact ⟨_, u, hstart, hpump, hwire, hresp, fun ho => hstate ho rfl⟩

end Sys2Proof.Machine

/-! ### The context locks (R350) -/

namespace Sys2Proof.Machine

/-- Settles O53: every effect of `Ran` but the semaphores' own and `COMM_INIT`'s keeps both context locks. -/
theorem contextLocksAreGivenBack : Obligations.ContextLocksAreGivenBack := fun _ _ _ hi hc h =>
  ⟨(exec_ran h).contextLocks (.inl rfl) hi hc, (exec_ran h).contextLocks (.inr rfl) hi hc⟩

end Sys2Proof.Machine

/-! ### The entry of a byte step, and a step with no next state (R340 to R342) -/

namespace Sys2Proof.Machine

/-- R341: which check turns a byte step away; none of them looks at anything but the engine's two flags and its
context lock. -/
theorem enterStep_eq_error_iff {p f : Bool} {k : SemId} {s : State} {st : Status} :
    enterStep p f k s = .error st ↔
      (p = false ∨ f = true) ∧ st = .error ∨ (p = true ∧ f = false ∧ s.permits k = 0#8) ∧ st = .busy := by
  rcases enterStep_cases p f k s with ⟨rfl, rfl, hn, e⟩ | ⟨rfl, rfl, h0, e⟩ | ⟨h, e⟩ <;> rw [e]
  · simp [hn]
  · simp [h0, eq_comm]
  · have hno : ¬ (p = true ∧ f = false ∧ s.permits k = 0#8) := by
      rintro ⟨rfl, rfl, -⟩
      simp at h
    simp only [h, hno, true_and, false_and, or_false, Except.error.injEq]
    exact eq_comm

theorem rxReady_or_turned_away (s : State) :
    RxReady s ∨ ∃ st, enterStep s.rx.inProgress s.rx.fault .rxContext s = .error st := by
  rcases enterStep_cases s.rx.inProgress s.rx.fault .rxContext s with ⟨hi, hf, hl, -⟩ | ⟨-, -, -, e⟩ | ⟨-, e⟩
  · exact .inl ⟨hi, hf, hl⟩
  · exact .inr ⟨_, e⟩
  · exact .inr ⟨_, e⟩

theorem txReady_or_turned_away (s : State) :
    TxReady s ∨ ∃ st, enterStep s.tx.inProgress s.tx.fault .txContext s = .error st := by
  rcases enterStep_cases s.tx.inProgress s.tx.fault .txContext s with ⟨hi, hf, hl, -⟩ | ⟨-, -, -, e⟩ | ⟨-, e⟩
  · exact .inl ⟨hi, hf, hl⟩
  · exact .inr ⟨_, e⟩
  · exact .inr ⟨_, e⟩

theorem onByteReceived_of_turned_away {s : State} {st : Status}
    (h : enterStep s.rx.inProgress s.rx.fault .rxContext s = .error st) (v : Byte) :
    onByteReceived v s = (s, st) := by
  simp only [onByteReceived, h]

theorem exec_rxByte_of_turned_away {s : State} {st : Status}
    (h : enterStep s.rx.inProgress s.rx.fault .rxContext s = .error st) (v : Byte) :
    exec (.rxByte v) s = .next (s.respond st 0#24) := by
  show Host.Outcome.next (receiveByte v s) = _
  rw [receiveByte, onByteReceived_of_turned_away h]

theorem exec_txNext_of_turned_away {s : State} {st : Status}
    (h : enterStep s.tx.inProgress s.tx.fault .txContext s = .error st) :
    exec .txNext s = .next (s.respond st 0#24) := by
  show execTxNext s = _
  simp only [execTxNext, h]

/-- Settles O18: an entry check that fails is the whole step. -/
theorem byteStepEntryPriority : Obligations.ByteStepEntryPriority := fun v _ =>
  ⟨fun hi => exec_rxByte_of_turned_away (enterStep_eq_error_iff.2 (.inl ⟨.inl hi, rfl⟩)) v,
    fun _ hf => exec_rxByte_of_turned_away (enterStep_eq_error_iff.2 (.inl ⟨.inr hf, rfl⟩)) v,
    fun hi hf hl => exec_rxByte_of_turned_away (enterStep_eq_error_iff.2 (.inr ⟨⟨hi, hf, hl⟩, rfl⟩)) v,
    fun hi => exec_txNext_of_turned_away (enterStep_eq_error_iff.2 (.inl ⟨.inl hi, rfl⟩)),
    fun _ hf => exec_txNext_of_turned_away (enterStep_eq_error_iff.2 (.inl ⟨.inr hf, rfl⟩)),
    fun hi hf hl => exec_txNext_of_turned_away (enterStep_eq_error_iff.2 (.inr ⟨⟨hi, hf, hl⟩, rfl⟩))⟩

/-- R342: the lock is given back, and the fault bit is all that stays. -/
theorem onByteReceived_of_no_next {s : State} (h : RxReady s) (hn : rxNext s.rx = none) (v : Byte) :
    onByteReceived v s = raiseRx s := by
  rcases onByteReceived_cases v s with ⟨-, e⟩ | ⟨h', -⟩ | ⟨h', -⟩
  · have ht : rxTransition v (s.setPermits .rxContext (s.permits .rxContext - 1#8)) =
        ((raiseRx s).1.setPermits .rxContext (s.permits .rxContext - 1#8), .error) := by
      unfold rxTransition
      rw [State.setPermits_rx, hn]
      rfl
    rw [e, ht]
    exact congrArg (·, Status.error) (exitStep_setPermits (s := (raiseRx s).1) h.2.2 _ rfl)
  · exact absurd h h'
  · exact absurd h h'

theorem exec_txNext_of_no_next {s : State} (h : TxReady s) (hn : txNext s.tx (rbSize s.tx.buf s) = .none) :
    exec .txNext s = .next ((raiseTx s).respond .error 0#24) := by
  have hn' : txNext (txLocked s).tx (rbSize (txLocked s).tx.buf (txLocked s)) = .none := hn
  have hexit : exitStep .txContext (raiseTx (txLocked s)) = raiseTx s :=
    exitStep_setPermits (s := raiseTx s) h.2.2 _ rfl
  show execTxNext s = _
  simp only [execTxNext, enterStep_of_txReady h, hn', hexit]

/-- Settles O23: past the entry, no next state is `raise Error` in either engine. -/
theorem rxNoNextStateIsFatal : Obligations.RxNoNextStateIsFatal := by
  refine ⟨fun v s h hn => ?_, fun s => exec_txNext_of_no_next⟩
  show Host.Outcome.next (receiveByte v s) = _
  rw [receiveByte, onByteReceived_of_no_next h hn]
  rfl

end Sys2Proof.Machine

/-! ### What a lone requester's step runs (R75, R80, R100, R331) -/

namespace Sys2Proof.Machine

/-- Log 8: a complete block is one service. -/
theorem serveChannel_of_block {s : State} {r : Requester} {i : Instr} {rest : List Byte} (hr : s.resetIn = .low)
    (hw : waiting s = [r]) (hd : s.driver = .polling) (hb : decodeBlock s.wireIn = some (i, rest)) :
    serveChannel s = some (.ok i, { s with wireIn := rest }.serve .rxirq) := by
  simp only [serveChannel, hd, hr, hw, hb]

theorem fetch_of_lone_channel_eq {s : State} (hw : waiting s = [.channel]) : fetch s = serveChannel s := by
  rw [fetch_of_arbitrate (by rw [hw]; rfl), if_pos rfl]

/-- Settles O46: `fetch` of a lone requester is the service of its port or of the channel. -/
theorem stepRunsTheDecodedInstruction : Obligations.StepRunsTheDecodedInstruction := by
  refine fun i s hr => ⟨fun a r w ws har hw hp hd => ?_, fun rest hw hd hb => ?_, fun v rest hw h hv => ?_⟩ <;>
    rw [step_of_low hr]
  · have hf := fetch_of_lone_word har hw hp
    rw [hd] at hf
    rw [serveNext_of_fetch_ok hf, serve_setPort]
  · have hf := (fetch_of_lone_channel_eq hw).trans (serveChannel_of_block hr hw hd hb)
    exact serveNext_of_fetch_ok hf
  · have hbyte : serveChannel s = serveChannelByte s := serveChannel_eq_byte (h.imp_right fun hn => .inr (.inr hn))
    have hf := ((fetch_of_lone_channel_eq hw).trans hbyte).trans (serveChannelByte_of_cons hv)
    exact serveNext_of_fetch_ok hf

end Sys2Proof.Machine

/-! ### States that differ in the interrupt-enable bits only (R335) -/

namespace Sys2Proof.Machine

/-- The two states agree in everything but the interrupt-enable bits. -/
def SameButIrq (s t : State) : Prop := ∃ q, t = { s with irq := q }

/-- What R335 says of two outcomes. -/
theorem SameButIrq.next {s t : State} (h : SameButIrq s t) : withoutIrq (.next t) = withoutIrq (.next s) := by
  obtain ⟨q, rfl⟩ := h
  rfl

/-- A branch whose condition is the same in both states. -/
theorem SameButIrq.ite {c : Prop} [Decidable c] {s t s' t' : State} (h : SameButIrq s t) (h' : SameButIrq s' t') :
    SameButIrq (if c then s else s') (if c then t else t') := by
  split
  · exact h
  · exact h'

/-! #### Registers and outputs -/

theorem emit_sameButIrq (e : Event) {s t : State} (h : SameButIrq s t) : SameButIrq (s.emit e) (t.emit e) := by
  obtain ⟨q, rfl⟩ := h
  exact ⟨q, rfl⟩

theorem respond_sameButIrq (st : Status) (v : Len) {s t : State} (h : SameButIrq s t) :
    SameButIrq (s.respond st v) (t.respond st v) := by
  obtain ⟨q, rfl⟩ := h
  exact ⟨q, rfl⟩

theorem setPermits_sameButIrq (k : SemId) (n : Byte) {s t : State} (h : SameButIrq s t) :
    SameButIrq (s.setPermits k n) (t.setPermits k n) := by
  obtain ⟨q, rfl⟩ := h
  exact ⟨q, rfl⟩

theorem setPort_withIrq (s : State) (a : Agent) (p : Port) (q : Irq) :
    State.setPort { s with irq := q } a p = { s.setPort a p with irq := q } := by
  cases a <;> rfl

theorem setPending_sameButIrq (l : Option SemId) {s t : State} (h : SameButIrq s t) :
    SameButIrq (s.setPending l) (t.setPending l) := by
  obtain ⟨q, rfl⟩ := h
  exact ⟨q, setPort_withIrq s s.serving _ q⟩

theorem release_sameButIrq (k : SemId) {s t : State} (h : SameButIrq s t) :
    SameButIrq (release k s) (release k t) := by
  obtain ⟨q, rfl⟩ := h
  exact .ite ⟨q, rfl⟩ ⟨q, rfl⟩

/-! #### Starts, ends and hand-offs (R181, R200, R241, R260, R262, R292 to R295) -/

theorem startReception_sameButIrq (b : Option Handle) {s t : State} (h : SameButIrq s t) :
    SameButIrq ((startReception b s).getD s) ((startReception b t).getD t) := by
  obtain ⟨q, rfl⟩ := h
  by_cases hp : s.permits .rxProcess = 0#8
  · rw [startReception_of_held hp, startReception_of_held (s := { s with irq := q }) hp]
    exact ⟨q, rfl⟩
  · rw [startReception_of_free hp, startReception_of_free (s := { s with irq := q }) hp]
    exact ⟨_, rfl⟩

theorem sendBlock_sameButIrq (b : Option Handle) (ty : BlockType) {s t : State} (h : SameButIrq s t) :
    SameButIrq ((sendBlock b ty s).getD s) ((sendBlock b ty t).getD t) := by
  obtain ⟨q, rfl⟩ := h
  by_cases hp : s.permits .txProcess = 0#8
  · rw [sendBlock_of_held hp, sendBlock_of_held (s := { s with irq := q }) hp]
    exact ⟨q, rfl⟩
  · rw [sendBlock_of_free hp, sendBlock_of_free (s := { s with irq := q }) hp]
    exact ⟨_, rfl⟩

theorem endReceptionCycle_sameButIrq {s t : State} (h : SameButIrq s t) :
    SameButIrq (endReceptionCycle s) (endReceptionCycle t) := by
  have hend : SameButIrq (endedReception s) (endedReception t) := by
    obtain ⟨q, hq⟩ := release_sameButIrq .rxProcess h
    obtain ⟨_, rfl⟩ := h
    simp only [endedReception, hq]
    exact ⟨_, rfl⟩
  rw [endReceptionCycle_eq, endReceptionCycle_eq]
  obtain ⟨_, rfl⟩ := h
  exact .ite (startReception_sameButIrq _ hend) hend

theorem endTransmissionCycle_sameButIrq {s t : State} (h : SameButIrq s t) :
    SameButIrq (endTransmissionCycle s) (endTransmissionCycle t) := by
  have hend : SameButIrq (endedTransmission s) (endedTransmission t) := by
    obtain ⟨q, hq⟩ := release_sameButIrq .txProcess h
    obtain ⟨_, rfl⟩ := h
    simp only [endedTransmission, hq]
    exact ⟨_, rfl⟩
  rw [endTransmissionCycle_eq, endTransmissionCycle_eq]
  obtain ⟨_, rfl⟩ := h
  exact .ite (sendBlock_sameButIrq none .ack hend) hend

theorem disableTxIfIdle_sameButIrq {s t : State} (h : SameButIrq s t) :
    SameButIrq (disableTxIfIdle s) (disableTxIfIdle t) := by
  obtain ⟨q, rfl⟩ := h
  exact .ite ⟨_, rfl⟩ ⟨q, rfl⟩

theorem ackReceivedHandling_sameButIrq {s t : State} (h : SameButIrq s t) :
    SameButIrq (ackReceivedHandling s) (ackReceivedHandling t) := by
  obtain ⟨q, rfl⟩ := h
  by_cases hr : TxRedriven s
  · rw [ackReceivedHandling_of_redriven hr, ackReceivedHandling_of_redriven (s := { s with irq := q }) hr]
    exact disableTxIfIdle_sameButIrq (endTransmissionCycle_sameButIrq ⟨q, rfl⟩)
  · rw [ackReceivedHandling_of_not_redriven hr, ackReceivedHandling_of_not_redriven (s := { s with irq := q }) hr]
    exact ⟨q, rfl⟩

theorem ackSentHandling_sameButIrq {s t : State} (h : SameButIrq s t) :
    SameButIrq (ackSentHandling s) (ackSentHandling t) := by
  obtain ⟨q, rfl⟩ := h
  by_cases hr : RxRedriven s
  · rw [ackSentHandling_of_redriven hr, ackSentHandling_of_redriven (s := { s with irq := q }) hr]
    exact endReceptionCycle_sameButIrq ⟨q, rfl⟩
  · rw [ackSentHandling_of_not_redriven hr, ackSentHandling_of_not_redriven (s := { s with irq := q }) hr]
    exact ⟨q, rfl⟩

theorem transmittedAckAction_sameButIrq {s t : State} (h : SameButIrq s t) :
    SameButIrq (transmittedAckAction s) (transmittedAckAction t) := by
  obtain ⟨q, rfl⟩ := h
  exact endReceptionCycle_sameButIrq ⟨q, rfl⟩

theorem completion_sameButIrq {s t : State} (h : SameButIrq s t) : SameButIrq (completion s) (completion t) := by
  obtain ⟨q, rfl⟩ := h
  exact .ite (.ite (endTransmissionCycle_sameButIrq ⟨q, rfl⟩) (startReception_sameButIrq none ⟨q, rfl⟩))
    (endTransmissionCycle_sameButIrq ⟨q, rfl⟩)

/-! #### The reception step (R185) -/

theorem rxCheckAction_sameButIrq {s t : State} (h : SameButIrq s t) :
    SameButIrq (rxCheckAction s) (rxCheckAction t) := by
  obtain ⟨q, rfl⟩ := h
  exact .ite (endReceptionCycle_sameButIrq (ackReceivedHandling_sameButIrq ⟨q, rfl⟩))
    (.ite (endReceptionCycle_sameButIrq ⟨q, rfl⟩) (sendBlock_sameButIrq none .ack ⟨q, rfl⟩))

theorem rxAckCheckAction_sameButIrq {s t : State} (h : SameButIrq s t) :
    SameButIrq (rxAckCheckAction s) (rxAckCheckAction t) := by
  have hack := ackReceivedHandling_sameButIrq h
  obtain ⟨q, rfl⟩ := h
  by_cases ho : ReplyStillOwed s
  · rwa [rxAckCheckAction_of_owed ho, rxAckCheckAction_of_owed (s := { s with irq := q }) ho]
  · rw [rxAckCheckAction_of_not_owed ho, rxAckCheckAction_of_not_owed (s := { s with irq := q }) ho]
    exact transmittedAckAction_sameButIrq hack

theorem rxCtrlByteAction_sameButIrq (v : Byte) {s t : State} (h : SameButIrq s t) :
    SameButIrq (rxCtrlByteAction v s) (rxCtrlByteAction v t) := by
  obtain ⟨q, rfl⟩ := h
  refine .ite ?_ ⟨q, rfl⟩
  cases s.rx.buf <;> exact ⟨q, rfl⟩

/-- Two answered states agree but for the bits, and the answers agree. -/
abbrev SameAnswer (a b : State × Status) : Prop := SameButIrq a.1 b.1 ∧ b.2 = a.2

theorem rxDataAction_sameAnswer (v : Byte) {s t : State} (h : SameButIrq s t) :
    SameAnswer (rxDataAction v s) (rxDataAction v t) := by
  obtain ⟨q, rfl⟩ := h
  cases hb : s.rx.buf with
  | none =>
    rw [rxDataAction_of_unbound hb, rxDataAction_of_unbound (s := { s with irq := q }) hb]
    exact ⟨⟨q, rfl⟩, rfl⟩
  | some b =>
    by_cases hs : (s.buf b).size = s.capacity
    · rw [rxDataAction_of_full hb hs, rxDataAction_of_full (s := { s with irq := q }) hb hs]
      exact ⟨⟨q, rfl⟩, rfl⟩
    · rw [rxDataAction_of_room hb hs, rxDataAction_of_room (s := { s with irq := q }) hb hs]
      exact ⟨⟨q, rfl⟩, rfl⟩

theorem rxAckCtrlByteAction_sameAnswer (p : RxState) (v : Byte) {s t : State} (h : SameButIrq s t) :
    SameAnswer (rxAckCtrlByteAction p v s) (rxAckCtrlByteAction p v t) := by
  obtain ⟨q, rfl⟩ := h
  unfold rxAckCtrlByteAction
  split
  · exact ⟨⟨q, rfl⟩, rfl⟩
  · split <;> exact ⟨⟨q, rfl⟩, rfl⟩

theorem rxAction_sameAnswer (n p : RxState) (v : Byte) {s t : State} (h : SameButIrq s t) :
    SameAnswer (rxAction n p v s) (rxAction n p v t) := by
  cases n with
  | init | lenByte1 | lenByte2 | lenByte3 =>
    obtain ⟨q, rfl⟩ := h
    exact ⟨⟨q, rfl⟩, rfl⟩
  | ctrlByte => exact ⟨rxCtrlByteAction_sameButIrq v h, rfl⟩
  | data => exact rxDataAction_sameAnswer v h
  | check => exact ⟨rxCheckAction_sameButIrq h, rfl⟩
  | ackCtrlByte => exact rxAckCtrlByteAction_sameAnswer p v h
  | ackCheck => exact ⟨rxAckCheckAction_sameButIrq h, rfl⟩
  | transmittedAck => exact ⟨transmittedAckAction_sameButIrq h, rfl⟩

/-- R341: the entry checks are the same. -/
theorem enterStep_error_withIrq {p f : Bool} {k : SemId} {s : State} {st : Status}
    (h : enterStep p f k s = .error st) (q : Irq) : enterStep p f k { s with irq := q } = .error st := by
  rw [enterStep_eq_error_iff] at h ⊢
  exact h

theorem onByteReceived_sameAnswer (v : Byte) {s t : State} (h : SameButIrq s t) :
    SameAnswer (onByteReceived v s) (onByteReceived v t) := by
  obtain ⟨q, rfl⟩ := h
  rcases rxReady_or_turned_away s with hr | ⟨st, he⟩
  · cases hn : rxNext s.rx with
    | none =>
      rw [onByteReceived_of_no_next hr hn, onByteReceived_of_no_next (s := { s with irq := q }) hr hn]
      exact ⟨⟨q, rfl⟩, rfl⟩
    | some n =>
      rw [onByteReceived_eq_rxAction v hr hn, onByteReceived_eq_rxAction (s := { s with irq := q }) v hr hn]
      exact rxAction_sameAnswer n s.rx.state v ⟨q, rfl⟩
  · rw [onByteReceived_of_turned_away he,
      onByteReceived_of_turned_away (s := { s with irq := q }) (enterStep_error_withIrq he q)]
    exact ⟨⟨q, rfl⟩, rfl⟩

theorem receiveByte_sameButIrq (v : Byte) {s t : State} (h : SameButIrq s t) :
    SameButIrq (receiveByte v s) (receiveByte v t) := by
  obtain ⟨hst, heq⟩ := onByteReceived_sameAnswer v h
  unfold receiveByte
  rw [heq]
  exact respond_sameButIrq _ _ hst

theorem receiveBytes_sameButIrq (l : List Byte) {s t : State} (h : SameButIrq s t) :
    SameButIrq (receiveBytes l s) (receiveBytes l t) := by
  induction l generalizing s t with
  | nil => exact h
  | cons v l ih => exact ih (receiveByte_sameButIrq v h)

/-! #### The transmission step (R245) -/

theorem txCheckAction_sameButIrq {s t : State} (h : SameButIrq s t) :
    SameButIrq (txCheckAction s) (txCheckAction t) := by
  have hack := ackSentHandling_sameButIrq h
  obtain ⟨q, rfl⟩ := h
  exact completion_sameButIrq (.ite hack ⟨q, rfl⟩)

theorem txAckCheckAction_sameButIrq {s t : State} (h : SameButIrq s t) :
    SameButIrq (txAckCheckAction s) (txAckCheckAction t) := by
  obtain ⟨q, rfl⟩ := h
  exact completion_sameButIrq (ackSentHandling_sameButIrq ⟨q, rfl⟩)

/-- Two entry actions stop alike, or give the same byte in states that agree but for the bits. -/
inductive SameAction : Except Fault (Option Byte × State) → Except Fault (Option Byte × State) → Prop where
  | ok (byte : Option Byte) {s t : State} (h : SameButIrq s t) : SameAction (.ok (byte, s)) (.ok (byte, t))
  | error (e : Fault) : SameAction (.error e) (.error e)

theorem txDataAction_sameAction {s t : State} (h : SameButIrq s t) :
    SameAction (txDataAction s) (txDataAction t) := by
  obtain ⟨q, rfl⟩ := h
  cases hb : s.tx.buf with
  | none =>
    rw [txDataAction_of_unbound hb, txDataAction_of_unbound (s := { s with irq := q }) hb]
    exact .ok none ⟨q, rfl⟩
  | some b =>
    rcases rbDequeue_cases b s with ⟨hs, -⟩ | ⟨hs, hv, -⟩ | ⟨v, hs, hv, -⟩
    · rw [txDataAction_of_empty hb hs, txDataAction_of_empty (s := { s with irq := q }) hb hs]
      exact .ok none ⟨q, rfl⟩
    · rw [txDataAction_of_unwritten hb hs hv, txDataAction_of_unwritten (s := { s with irq := q }) hb hs hv]
      exact .error _
    · rw [txDataAction_of_read hb hs hv, txDataAction_of_read (s := { s with irq := q }) hb hs hv]
      exact .ok (some v) ⟨q, rfl⟩

theorem txAction_sameAction (n : TxState) {s t : State} (h : SameButIrq s t) :
    SameAction (txAction n s) (txAction n t) := by
  cases n with
  | init | ctrlByte | lenByte1 | lenByte2 | lenByte3 | ackCtrlByte =>
    obtain ⟨q, rfl⟩ := h
    exact .ok _ ⟨q, rfl⟩
  | data => exact txDataAction_sameAction h
  | check => exact .ok _ (txCheckAction_sameButIrq h)
  | ackCheck => exact .ok _ (txAckCheckAction_sameButIrq h)
  | rcvdAck => exact .ok _ (endTransmissionCycle_sameButIrq h)

theorem txAnswered_sameButIrq (byte : Option Byte) {s t : State} (h : SameButIrq s t) :
    SameButIrq (txAnswered byte s) (txAnswered byte t) := by
  obtain ⟨q, rfl⟩ := h
  cases byte <;> exact ⟨q, rfl⟩

/-- A `TX_NEXT` past its entry whose entry action stops (R43, R254). -/
theorem exec_txNext_of_stop {s : State} {n : TxState} {e : Fault} (h : TxReady s)
    (hn : txNext s.tx (rbSize s.tx.buf s) = .goto n) (ha : txAction n (txEntered n s) = .error e) :
    exec .txNext s = .fault e := by
  rcases execTxNext_cases s with ⟨_, h', -⟩ | ⟨-, ⟨hn', -⟩ | ⟨hn', -⟩ | ⟨m, hm, ⟨byte, t, hok, -⟩ | ⟨e', -, heq⟩⟩⟩
  · exact absurd h h'
  · cases hn.symm.trans hn'
  · cases hn.symm.trans hn'
  · cases hn.symm.trans hm
    have hfree : txAction n (txEntered n s) = .ok (byte, t.setPermits .txContext (s.permits .txContext)) := by
      rw [← setPermits_restore (s := txEntered n s) (k := .txContext) rfl (s.permits .txContext - 1#8)]
      exact txAction_setPermits hok _
    cases ha.symm.trans hfree
  · cases e
    cases e'
    exact heq

theorem exec_txNext_withoutIrq (s : State) (q : Irq) :
    withoutIrq (exec .txNext { s with irq := q }) = withoutIrq (exec .txNext s) := by
  rcases txReady_or_turned_away s with hr | ⟨st, he⟩
  · cases hn : txNext s.tx (rbSize s.tx.buf s) with
    | none =>
      rw [exec_txNext_of_no_next hr hn, exec_txNext_of_no_next (s := { s with irq := q }) hr hn]
      rfl
    | stay =>
      rw [exec_txNext_of_stay hr hn, exec_txNext_of_stay (s := { s with irq := q }) hr hn]
      exact (txAnswered_sameButIrq none (disableTxIfIdle_sameButIrq ⟨q, rfl⟩)).next
    | goto n =>
      have hact : SameAction (txAction n (txEntered n s)) (txAction n (txEntered n { s with irq := q })) :=
        txAction_sameAction n ⟨q, rfl⟩
      generalize ha : txAction n (txEntered n s) = x at hact
      generalize hb : txAction n (txEntered n { s with irq := q }) = y at hact
      cases hact with
      | ok byte hst =>
        rw [exec_txNext_of_action hr hn ha, exec_txNext_of_action (s := { s with irq := q }) hr hn hb]
        exact (txAnswered_sameButIrq byte (disableTxIfIdle_sameButIrq hst)).next
      | error e =>
        rw [exec_txNext_of_stop hr hn ha, exec_txNext_of_stop (s := { s with irq := q }) hr hn hb]
  · rw [exec_txNext_of_turned_away he,
      exec_txNext_of_turned_away (s := { s with irq := q }) (enterStep_error_withIrq he q)]
    rfl

/-! #### Every instruction -/

theorem exec_withoutIrq (i : Instr) (s : State) (q : Irq) :
    withoutIrq (exec i { s with irq := q }) = withoutIrq (exec i s) := by
  have hq : SameButIrq s { s with irq := q } := ⟨q, rfl⟩
  have wire : ∀ {bytes}, encode i = .wire bytes →
      withoutIrq (exec i { s with irq := q }) = withoutIrq (exec i s) := fun {bytes} hi => by
    rw [exec_of_encode_wire hi, exec_of_encode_wire hi]
    exact (receiveBytes_sameButIrq bytes hq).next
  cases i with
  | rbReset | rbSize | rbEmpty | rbFull | rxAvail | rxFully | semInit | commInit => rfl
  | rbEnq b v =>
    by_cases hs : (s.buf b).size = s.capacity
    · rw [exec_rbEnq_of_full hs, exec_rbEnq_of_full (s := { s with irq := q }) hs]
      rfl
    · rw [exec_rbEnq_of_not_full hs, exec_rbEnq_of_not_full (s := { s with irq := q }) hs]
      rfl
  | rbDeq b =>
    rcases rbDequeue_cases b s with ⟨hs, -⟩ | ⟨hs, hv, -⟩ | ⟨v, hs, hv, -⟩
    · rw [exec_rbDeq_of_empty hs, exec_rbDeq_of_empty (s := { s with irq := q }) hs]
      rfl
    · rw [(dequeueOfUnwrittenByteStops b s).2 ⟨hs, hv⟩,
        (dequeueOfUnwrittenByteStops b { s with irq := q }).2 ⟨hs, hv⟩]
    · rw [exec_rbDeq_of_not_empty hs hv, exec_rbDeq_of_not_empty (s := { s with irq := q }) hs hv]
      rfl
  | semTry k =>
    by_cases hp : s.permits k = 0#8
    · rw [exec_semTry_of_zero hp, exec_semTry_of_zero (s := { s with irq := q }) hp]
      rfl
    · rw [exec_semTry_of_ne_zero hp, exec_semTry_of_ne_zero (s := { s with irq := q }) hp]
      rfl
  | semLock k =>
    by_cases hp : s.permits k = 0#8
    · rw [exec_semLock_of_zero hp, exec_semLock_of_zero (s := { s with irq := q }) hp]
      exact (emit_sameButIrq _ (setPending_sameButIrq _ hq)).next
    · rw [exec_semLock_of_ne_zero hp, exec_semLock_of_ne_zero (s := { s with irq := q }) hp]
      exact (respond_sameButIrq _ _ (setPending_sameButIrq none (setPermits_sameButIrq k _ hq))).next
  | semRel k => exact (respond_sameButIrq _ _ (release_sameButIrq k hq)).next
  | rxStart b =>
    by_cases hp : s.permits .rxProcess = 0#8
    · rw [(rxStartEffect b s).2.1 hp, (rxStartEffect b { s with irq := q }).2.1 hp]
      rfl
    · rw [(rxStartEffect b s).2.2 hp, (rxStartEffect b { s with irq := q }).2.2 hp]
      rfl
  | txSend b ty =>
    by_cases hp : s.permits .txProcess = 0#8
    · rw [(txSendEffect b ty s).2.1 hp, (txSendEffect b ty { s with irq := q }).2.1 hp]
      rfl
    · rw [(txSendEffect b ty s).2.2 hp, (txSendEffect b ty { s with irq := q }).2.2 hp]
      rfl
  | rxByte v => exact (receiveByte_sameButIrq v hq).next
  | txNext => exact exec_txNext_withoutIrq s q
  | blockData | blockUnknown | blockColdReset | blockWarmReset | blockBusy | blockAck | blockNack => exact wire rfl

end Sys2Proof.Machine

/-! ### A step reads the interrupt-enable bits through who waits only (R333) -/

namespace Sys2Proof.Machine

/-- What is served, with other interrupt-enable bits in the state it starts from. -/
def servedWithIrq (q : Irq) (x : Except Illegal Instr × State) : Except Illegal Instr × State :=
  (x.1, { x.2 with irq := q })

theorem servePort_withIrq (a : Agent) (s : State) (q : Irq) :
    servePort a { s with irq := q } = (servePort a s).map (servedWithIrq q) := by
  have hport : State.port { s with irq := q } a = s.port a := rfl
  unfold servePort
  rw [hport]
  cases (s.port a).lock with
  | some k => rfl
  | none =>
    cases (s.port a).queue with
    | nil => rfl
    | cons w ws =>
      simp only [setPort_withIrq]
      rfl

theorem serveChannelByte_withIrq (s : State) (q : Irq) :
    serveChannelByte { s with irq := q } = (serveChannelByte s).map (servedWithIrq q) := by
  unfold serveChannelByte
  cases s.wireIn <;> rfl

theorem serveChannel_withIrq {s : State} {q : Irq} (hw : waiting { s with irq := q } = waiting s) :
    serveChannel { s with irq := q } = (serveChannel s).map (servedWithIrq q) := by
  by_cases h : s.driver = .gated ∨ s.resetIn ≠ .low ∨ (∀ r, waiting s ≠ [r]) ∨ decodeBlock s.wireIn = none
  · rw [serveChannel_eq_byte h, serveChannel_eq_byte (s := { s with irq := q }) (by rwa [hw]),
      serveChannelByte_withIrq]
  · simp only [not_or, not_not, not_forall] at h
    obtain ⟨hgated, hr, ⟨r, hone⟩, hb⟩ := h
    obtain ⟨⟨i, rest⟩, hb⟩ := Option.ne_none_iff_exists'.1 hb
    have hd : s.driver = .polling := by
      cases hs : s.driver with
      | polling => rfl
      | gated => exact absurd hs hgated
    rw [serveChannel_of_block hr hone hd hb,
      serveChannel_of_block (s := { s with irq := q }) hr (hw.trans hone) hd hb]
    rfl

/-- R333: which bits a gated driver obeys shows in who waits, and nowhere else. -/
theorem fetch_withIrq {s : State} {q : Irq} (hw : waiting { s with irq := q } = waiting s) :
    fetch { s with irq := q } = (fetch s).map (servedWithIrq q) := by
  by_cases hnil : waiting s = []
  · rw [fetch_of_waiting_nil hnil, fetch_of_waiting_nil (hw.trans hnil)]
    rfl
  · obtain ⟨r, -, ha⟩ := arbitrate_of_ne_nil s.served hnil
    have ha' : arbitrate s.served (waiting { s with irq := q }) = some r := by rw [hw, ha]
    rw [fetch_of_arbitrate ha, fetch_of_arbitrate (s := { s with irq := q }) ha']
    split
    · exact serveChannel_withIrq hw
    · exact servePort_withIrq r.agent s q

theorem serveNext_withoutIrq {s : State} {q : Irq} (hw : waiting { s with irq := q } = waiting s) :
    withoutIrq (serveNext { s with irq := q }) = withoutIrq (serveNext s) := by
  have hf := fetch_withIrq hw
  rcases serveNext_cases s with ⟨h, e⟩ | ⟨i, t, h, e⟩ | ⟨r, t, h, e⟩ <;> rw [e] <;> rw [h] at hf
  · rw [serveNext_of_fetch_none hf]
    rfl
  · rw [serveNext_of_fetch_ok hf]
    exact exec_withoutIrq i t q
  · rw [serveNext_of_fetch_error hf]
    rfl

/-- Reset writes the bits whatever they were (R381). -/
theorem abandonService_withIrq {s : State} {q : Irq} (hw : waiting { s with irq := q } = waiting s) :
    abandonService { s with irq := q } = abandonService s := by
  unfold abandonService
  rw [fetch_withIrq hw]
  rcases fetch s with _ | ⟨x, t⟩ <;> rfl

/-- R333: under a polling driver nobody is held back. -/
theorem waiting_withIrq_of_polling {s : State} (h : s.driver = .polling) (q : Irq) :
    waiting { s with irq := q } = waiting s := by
  have hword : ∀ a w, wordPresented { s with irq := q } a w = wordPresented s a w := fun a w => by
    rw [wordPresented_polling h, wordPresented_polling (s := { s with irq := q }) h]
  have hport : ∀ a, portWaiting a { s with irq := q } = portWaiting a s := fun a => by
    rw [Bool.eq_iff_iff, portWaiting_iff, portWaiting_iff]
    simp only [hword]
    rfl
  have hchannel : channelWaiting { s with irq := q } = channelWaiting s := by
    simp only [channelWaiting, h, Driver.presents]
  have hwaits : ∀ r, isWaiting { s with irq := q } r = isWaiting s r := fun r => by
    cases r with
    | host | rxirq | txirq => exact hport _
    | channel => exact hchannel
  exact congrArg (List.filter · _) (funext hwaits)

/-- Settles O55: an instruction never reads the bits, and a step only to see who waits. -/
theorem irqBitsAreNeverRead : Obligations.IrqBitsAreNeverRead := by
  refine ⟨exec_withoutIrq, fun s q h => ?_⟩
  have hw : waiting { s with irq := q } = waiting s := h.elim (waiting_withIrq_of_polling · q) id
  rcases step_cases s with ⟨hr, e⟩ | ⟨n, inService, hr, e⟩ | ⟨hr, e⟩ | ⟨hr, e⟩ <;> rw [e]
  · rw [step_of_low (s := { s with irq := q }) hr]
    exact serveNext_withoutIrq hw
  · rw [step_of_arrives_succ (s := { s with irq := q }) hr]
    exact serveNext_withoutIrq (s := { s with resetIn := .arrives n inService }) hw
  · rw [step_of_arrives_between (s := { s with irq := q }) hr]
    rfl
  · rw [step_of_arrives_inService (s := { s with irq := q }) hr, abandonService_withIrq hw]

end Sys2Proof.Machine

/-! ### The reset values (R47, R381) -/

namespace Sys2Proof.Machine

/-- R43: after reset no storage byte holds a value. -/
theorem State.resetWith_read (c : Len) (b : Handle) (i : Nat) :
    Memory.read ((State.resetWith c).buf b).store i = none := by
  rw [State.resetWith_buf]
  rfl

/-- Settles O45: every register has its reset value by definition, every buffer of the bank is `RingBuffer.reset`, and
with no cycle in progress the entry of a byte step answers `Error` (O18). -/
theorem resetValues : Obligations.ResetValues := by
  intro c s
  have hbank : ∀ b, (s.buf b).size = 0#24 ∧ (s.buf b).readIndex = 0#24 ∧ (s.buf b).writeIndex = 0#24 ∧
      ∀ i, Memory.read (s.buf b).store i = none := fun b => by
    have hb : s.buf b = RingBuffer.reset := State.resetWith_buf c b
    exact ⟨congrArg RingBuffer.size hb, congrArg RingBuffer.readIndex hb, congrArg RingBuffer.writeIndex hb,
      State.resetWith_read c b⟩
  have hrx : ∀ v, exec (.rxByte v) s = .next (s.respond .error 0#24) :=
    exec_rxByte_of_turned_away (enterStep_eq_error_iff.2 (.inl ⟨.inl rfl, rfl⟩))
  have htx : exec .txNext s = .next (s.respond .error 0#24) :=
    exec_txNext_of_turned_away (enterStep_eq_error_iff.2 (.inl ⟨.inl rfl, rfl⟩))
  exact ⟨rfl, rfl, rfl, rfl, hbank, rfl, hrx, htx⟩

end Sys2Proof.Machine

/-! ### Decoding an encoded instruction (R100, R101, R111) -/

namespace Sys2Proof.Machine

/-- R100, R101: a command word that an instruction is encoded as has the fields that present it. -/
theorem presents_of_encode {i : Instr} {w : CmdWord} (h : encode i = .command w) : Presents w i := by
  have buffer (b : Handle) : (selOfHandle b).toNat = b.val := handleOfSel_eq_some_iff.1 (handleOfSel_selOfHandle b)
  have binding (d : Option Handle) : SelBinds (selOfBinding d) d :=
    bindingOfSel_eq_some_iff.1 (bindingOfSel_selOfBinding d)
  cases i with
  | rbReset b | rbEnq b v | rbDeq b | rbSize b | rbEmpty b | rbFull b => cases h; simp [Presents, Op.code, buffer]
  | semInit k n | semTry k | semLock k | semRel k => cases h; simp [Presents, Op.code]
  | rxStart d | txSend d t => cases h; simp [Presents, Op.code, binding]
  | rxByte v | rxAvail | rxFully | txNext | commInit => cases h; simp [Presents, Op.code]
  | blockData | blockUnknown | blockColdReset | blockWarmReset | blockBusy | blockAck | blockNack => cases h

theorem decode_command_of_presents {w : CmdWord} {i : Instr} (h : Presents w i) : decode (.command w) = some i := by
  rw [decode, decodeCmd_of_presents h]

/-- R111: bytes that are exactly one frame decode to its instruction. -/
theorem decode_wire_of_decodeFrame {bytes : List Byte} {f : Frame} (h : decodeFrame bytes = some (f, [])) :
    decode (.wire bytes) = some f.toInstr := by
  rw [decode, decodeBlock, h]; rfl

/-- R111, R113: the bytes of a `Data` block whose length fits its three length bytes. -/
theorem decode_dataBytes {p : List Byte} (hp : p.length < 2 ^ 24) (k : Byte) :
    decode (.wire (dataBytes p k)) = some (.blockData p k) := by
  obtain ⟨a, b, c, hbytes, hlen⟩ := lenBytes_eq hp
  refine decode_wire_of_decodeFrame (f := ⟨BlockType.data.tag, p, k⟩) ?_
  rw [dataBytes, hbytes, ← List.append_nil (_ ++ _)]
  exact decodeFrame_of_data (f := ⟨BlockType.data.tag, p, k⟩) rfl hlen []

/-- R111: every block but `Data` is its control byte and its check byte. -/
theorem decode_two_bytes {c : Byte} (hc : typeOfControl c ≠ .data) (k : Byte) :
    decode (.wire [c, k]) = some (Frame.toInstr ⟨c, [], k⟩) :=
  decode_wire_of_decodeFrame (decodeFrame_of_ne_data (f := ⟨c, [], k⟩) hc rfl [])

/-- R110, R116: the control bytes that `WellFormed` allows an `Unknown` block are those of its type. -/
theorem typeOfControl_of_wellFormed {c k : Byte} (h : WellFormed (.blockUnknown c k) = true) :
    typeOfControl c = .unknown := by
  rcases of_decide_eq_true h with rfl | hc
  · rfl
  · exact typeOfControl_of_ge hc

/-- R111, R116: the bytes of a well-formed block decode to it. -/
theorem decode_wire_of_encode {i : Instr} {bytes : List Byte} (hw : WellFormed i = true) (h : encode i = .wire bytes) :
    decode (.wire bytes) = some i := by
  cases i with
  | blockData p k => cases h; exact decode_dataBytes (of_decide_eq_true hw) k
  | blockUnknown c k =>
    cases h
    have hc := typeOfControl_of_wellFormed hw
    rw [decode_two_bytes (by simp [hc]), Frame.toInstr, Frame.blockType, hc]
  | blockColdReset k | blockWarmReset k | blockBusy k | blockAck k | blockNack k =>
    cases h; exact decode_two_bytes (by decide) k
  | _ => cases h

/-- Settles O1: an instruction is encoded as the word that presents it, or as the bytes of its frame. -/
theorem decodeEncodeRoundTrip : Obligations.DecodeEncodeRoundTrip := by
  intro i hw
  cases he : encode i with
  | command w => exact decode_command_of_presents (presents_of_encode he)
  | wire bytes => exact decode_wire_of_encode hw he

end Sys2Proof.Machine

/-! ### A block is its bytes (R131, log 8) -/

namespace Sys2Proof.Machine

/-- R103: received bytes are answered once each. -/
theorem receiveBytes_responses (l : List Byte) (s : State) :
    ∃ rs, rs.length = l.length ∧ (receiveBytes l s).responses = s.responses ++ rs := by
  induction l generalizing s with
  | nil => exact ⟨[], rfl, (List.append_nil _).symm⟩
  | cons v l ih =>
    obtain ⟨-, -, -, st, hbyte⟩ := receiveByte_outputs v s
    obtain ⟨rs, hlen, hrs⟩ := ih (receiveByte v s)
    refine ⟨(s.serving, ⟨st, 0#24⟩) :: rs, by simp [hlen], ?_⟩
    rw [receiveBytes_cons, hrs, hbyte, List.append_assoc, List.singleton_append]

/-- Settles O43: the instruction and `FEED` both receive the bytes in order, and each byte has its response. -/
theorem blockIsItsBytes : Obligations.BlockIsItsBytes := by
  intro i bytes s hi
  have hexec := exec_of_encode_wire hi s
  obtain ⟨rs, hlen, hrs⟩ := receiveBytes_responses bytes s
  exact ⟨hexec.trans (feed_eq bytes s).symm, receiveBytes bytes s, rs, hexec, hlen, hrs⟩

end Sys2Proof.Machine

/-! ### The invariants at reset (R42, R43, R47, R48) -/

namespace Sys2Proof.Machine

/-- R48: after reset both context locks are free, no cycle is in progress and no agent presents anything. -/
theorem EnginesUndisturbed.resetWith (c : Len) : EnginesUndisturbed (State.resetWith c) := by
  refine ⟨engineInv_iff.2 ⟨?_, CoreInv.resetWith c⟩, ⟨rfl, rfl, rfl⟩, nofun, nofun, nofun⟩
  rintro k (rfl | rfl) <;> rfl

/-- Settles O59: `RingInv` needs room for one byte, the engines' invariant does not look at the capacity, and
`State.reset` is the reset state of one capacity. -/
theorem invariantsHoldAtReset : Obligations.InvariantsHoldAtReset := by
  have every (c : Len) (hc : 1 ≤ c.toNat) :
      RingInv (State.resetWith c) ∧ EngineInv (State.resetWith c) ∧ NoSemOps (State.resetWith c) :=
    ⟨.resetWith hc, EnginesUndisturbed.resetWith c⟩
  obtain ⟨hring, hengine, hsem⟩ := every Config.resetCapacity (by decide)
  exact ⟨hring, hengine, hsem, every⟩

end Sys2Proof.Machine
